-- ==== Sys2Proof/Word.lean ====
section
/-! DEFINITION. The block's word and byte (spec/00_scope.md R9, R11). -/

namespace Sys2Proof

/-- Every register is 32 bits wide, and every buffer address and length in one is unsigned (00_scope.md R9). -/
abbrev Word := BitVec 32

/-- One byte of buffer memory, one sample, one stored colour component (00_scope.md R9, R13). -/
abbrev Byte := BitVec 8

end Sys2Proof
end

