-- ==== Sys2Proof/Config.lean ====
section
/-! DEFINITION. The open parameters of the block (00_scope.md R7, R8, R10) and the free values the spec
leaves unspecified (20_memory.md R67, R78, 10_state.md R51, 70_reset_and_hazards.md R253). -/

namespace Sys2Proof

/-- The named parameters of the model. A machine fixes them once; no step changes them. `State` carries them, so a
statement about every state is a statement about every legal size and placement. -/
structure Config where
  /-- `MEM_BYTES`, the size in bytes of the buffer memory (00_scope.md R7). -/
  memBytes : Nat
  /-- `REG_BASE`, the host-bus address of the register block (00_scope.md R8). -/
  regBase : Nat
  /-- `MEM_BASE`, the host-bus address of the buffer-memory aperture (00_scope.md R8). -/
  memBase : Nat
  deriving DecidableEq, Repr

/-- The legal sizes: `1 <= MEM_BYTES <= 2^31` (00_scope.md R7). -/
abbrev Config.Legal (c : Config) : Prop := 1 ≤ c.memBytes ∧ c.memBytes ≤ 2 ^ 31

/-- The parameters `State.reset` carries. DESIGN CHOICE (logs 1 and 2): `MEM_BYTES = 256` as in every example of
95_test_vectors.md; the two bases are the model's. -/
def Config.example256 : Config := { memBytes := 256, regBase := 0, memBase := 0x1000 }

/-- Free value: the word that the free draw with this number gives. It stands for a host read of a register in the
in-flight command's write set (10_state.md R51: "A model treats each such read as a free draw"). It has no body, so
nothing constrains it (log 4). -/
opaque Config.freeWord : Nat → Word

/-- Free value: the byte that the free draw with this number gives at this buffer address. It stands for a byte of
power-on memory (20_memory.md R78), for a host read of the in-flight command's destination region (20_memory.md R67)
and for a byte of an abandoned command's destination region (70_reset_and_hazards.md R253). It has no body (log 4). -/
opaque Config.freeByte : Nat → Nat → Byte

end Sys2Proof
end

