-- ==== Sys2Proof/Syntax.lean ====
section
/-! DEFINITION. The commands of the block: one constructor for each row of spec/opcode_table.json
(30_encoding.md R94). -/

namespace Sys2Proof

/-- A command. Operands do not stand in the command word (30_encoding.md R91); only the two options do (R95). -/
inductive Instr where
  /-- `NOP` (40_control.md R114). -/
  | nop
  /-- `CRC_INIT` (41_crc.md R122). -/
  | crcInit
  /-- `CRC_UPDATE` (41_crc.md R123). -/
  | crcUpdate
  /-- `CRC_CHECK` (41_crc.md R124). -/
  | crcCheck
  /-- `CHUNK_FRAME` (42_chunk.md R143). -/
  | chunkFrame
  /-- `TYPE_DECODE` (42_chunk.md R145). -/
  | typeDecode
  /-- `HDR_LOAD` (42_chunk.md R146). -/
  | hdrLoad
  /-- `STRIP_ROWS` (43_scanline.md R171). -/
  | stripRows
  /-- `EXPAND_RGBA`; `sp` is the option bit `CMD[8]`, the palette source (44_expand.md R186, R187). -/
  | expandRgba (sp : Bool)
  /-- `RESAMPLE`; `pix` is the option field `CMD[10:8]`, bytes per pixel, the number 0 to 7 (30_encoding.md R92,
  45_resample.md R207). -/
  | resample (pix : Nat)
  deriving DecidableEq, Repr

end Sys2Proof
end

