-- ==== Sys2Proof/WellFormed.lean ====
section
/-! DEFINITION. Which terms of `Instr` are commands: those whose fields fit the command word. -/

namespace Sys2Proof

/-- The only field wider in the syntax than in the word is `PIX`, three bits read as the number 0 to 7
(30_encoding.md R92). The values 0 and 5 to 7 are well formed: they decode as `RESAMPLE` and then fail (R95). -/
def Instr.wellFormed : Instr → Bool
  | .nop => true
  | .crcInit => true
  | .crcUpdate => true
  | .crcCheck => true
  | .chunkFrame => true
  | .typeDecode => true
  | .hdrLoad => true
  | .stripRows => true
  | .expandRgba _ => true
  | .resample pix => decide (pix < 8)

end Sys2Proof
end

