-- ==== Sys2Proof/Decode.lean ====
section
/-! DEFINITION. The decoder of command words, total and rejecting by name (30_encoding.md R96, R101), and after it the
encoder (30_encoding.md R94, R99) and the opcode table's match and mask (R101). -/

namespace Sys2Proof

/-- Why a command word is illegal (30_encoding.md R96, in the order of R101). -/
inductive Illegal where
  /-- A bit of `RSV`, bits 31:16, is 1. -/
  | reservedBits
  /-- `OP` is not in the table of R94. -/
  | unknownOp (op : Byte)
  /-- An `OPT` bit that the operation does not define is 1. -/
  | undefinedOption (opt : Byte)
  deriving DecidableEq, Repr

/-- `OP`, bits 7:0 of a command word (30_encoding.md R90). -/
def opField (w : Word) : Byte := w.extractLsb' 0 8

/-- `OPT`, bits 15:8 of a command word (30_encoding.md R90). -/
def optField (w : Word) : Byte := w.extractLsb' 8 8

/-- `RSV`, bits 31:16 of a command word (30_encoding.md R90). -/
def rsvField (w : Word) : BitVec 16 := w.extractLsb' 16 16

/-- `SP`, `CMD[8]` (30_encoding.md R92). -/
def spField (w : Word) : Bool := w.getLsbD 8

/-- `PIX`, `CMD[10:8]`, read as a number (30_encoding.md R92). -/
def pixField (w : Word) : Nat := (w.extractLsb' 8 3).toNat

/-- The command that an operation number names, its options taken from the word (30_encoding.md R94). -/
def instrOfOp (w : Word) : Option Instr :=
  match (opField w).toNat with
  | 0x00 => some .nop
  | 0x01 => some .crcInit
  | 0x02 => some .crcUpdate
  | 0x03 => some .crcCheck
  | 0x10 => some .chunkFrame
  | 0x11 => some .typeDecode
  | 0x12 => some .hdrLoad
  | 0x20 => some .stripRows
  | 0x30 => some (.expandRgba (spField w))
  | 0x40 => some (.resample (pixField w))
  | _ => none

/-- `definedmask(OP)`: the `OPT` bits that the operation defines (30_encoding.md R101). -/
def Instr.definedMask : Instr → Byte
  | .nop => 0x00
  | .crcInit => 0x00
  | .crcUpdate => 0x00
  | .crcCheck => 0x00
  | .chunkFrame => 0x00
  | .typeDecode => 0x00
  | .hdrLoad => 0x00
  | .stripRows => 0x00
  | .expandRgba _ => 0x01
  | .resample _ => 0x07

/-- Decoding a command word, in the three steps of 30_encoding.md R101. -/
def decode (w : Word) : Except Illegal Instr :=
  if rsvField w ≠ 0 then .error .reservedBits
  else
    match instrOfOp w with
    | none => .error (.unknownOp (opField w))
    | some i => if optField w &&& ~~~ i.definedMask ≠ 0 then .error (.undefinedOption (optField w)) else .ok i

/-- `OP` of a command (30_encoding.md R94). -/
def Instr.op : Instr → Byte
  | .nop => 0x00
  | .crcInit => 0x01
  | .crcUpdate => 0x02
  | .crcCheck => 0x03
  | .chunkFrame => 0x10
  | .typeDecode => 0x11
  | .hdrLoad => 0x12
  | .stripRows => 0x20
  | .expandRgba _ => 0x30
  | .resample _ => 0x40

/-- `OPT` of a command: `SP` in bit 0 of the field, or `PIX` in bits 2:0 (30_encoding.md R92, R99). -/
def Instr.opt : Instr → Byte
  | .nop => 0x00
  | .crcInit => 0x00
  | .crcUpdate => 0x00
  | .crcCheck => 0x00
  | .chunkFrame => 0x00
  | .typeDecode => 0x00
  | .hdrLoad => 0x00
  | .stripRows => 0x00
  | .expandRgba sp => if sp then 0x01 else 0x00
  | .resample pix => BitVec.ofNat 8 pix

/-- The word of a well-formed command: `OP` in 7:0, `OPT` in 15:8, `RSV = 0` (30_encoding.md R90, R94). -/
def encode (i : Instr) : Word := i.op.setWidth 32 ||| i.opt.setWidth 32 <<< 8

/-- The `match` value of the command's row of opcode_table.json (30_encoding.md R101). -/
def Instr.rowMatch : Instr → Word
  | .nop => 0x00000000
  | .crcInit => 0x00000001
  | .crcUpdate => 0x00000002
  | .crcCheck => 0x00000003
  | .chunkFrame => 0x00000010
  | .typeDecode => 0x00000011
  | .hdrLoad => 0x00000012
  | .stripRows => 0x00000020
  | .expandRgba _ => 0x00000030
  | .resample _ => 0x00000040

/-- The `mask` value of the command's row of opcode_table.json (30_encoding.md R101). -/
def Instr.rowMask : Instr → Word
  | .nop => 0xFFFFFFFF
  | .crcInit => 0xFFFFFFFF
  | .crcUpdate => 0xFFFFFFFF
  | .crcCheck => 0xFFFFFFFF
  | .chunkFrame => 0xFFFFFFFF
  | .typeDecode => 0xFFFFFFFF
  | .hdrLoad => 0xFFFFFFFF
  | .stripRows => 0xFFFFFFFF
  | .expandRgba _ => 0xFFFFFEFF
  | .resample _ => 0xFFFFF8FF

/-- What the decoder reads from a table word: `nbits` bits of `w`, every bit above them 0. -/
def decodeTableWord (nbits w : Nat) : Option Instr :=
  match decode (BitVec.ofNat 32 (w % 2 ^ nbits)) with
  | .ok i => some i
  | .error _ => none

end Sys2Proof
end

