-- ==== Sys2Proof/Machine/State.lean ====
section
/-! DEFINITION. The state of the block and of the two agents around it, as plain data (spec/10_state.md,
spec/20_memory.md, 00_scope.md R6), the reasons a step can stop, and the state after reset
(70_reset_and_hazards.md R251, R252). -/

namespace Sys2Proof.Machine

/-- The error codes that `STATUS.ERRCODE` can hold. The codes 0x0B to 0xFF are "never produced"
(60_exceptions.md R220), so they are no values of this type (log 13). -/
inductive ErrCode where
  | none
  | illegalCmd
  | bounds
  | overlap
  | malformedChunk
  | invalidData
  | invalidColorType
  | unimplementedFilter
  | truncated
  | badArg
  | paletteRange
  deriving DecidableEq, Repr

/-- `CTRL` (10_state.md R22). `SRST` is write-only and the other bits are reserved: they read 0 and have no storage
(R20; log 13). -/
structure Ctrl where
  irqEn : Bool
  deriving DecidableEq, Repr

/-- `STATUS` (10_state.md R23). The reserved bits read 0 and have no storage (R20; log 13). -/
structure Status where
  busy : Bool
  done : Bool
  err : Bool
  werr : Bool
  crcOk : Bool
  errcode : ErrCode
  deriving DecidableEq, Repr

/-- The registers that hold storage, each under its own name (10_state.md section 1). `ID` (R21) and `CRC_RESULT`
(R34) have none. -/
structure Regs where
  ctrl : Ctrl
  status : Status
  cmd : Word
  errInfo : Word
  src : Word
  dst : Word
  len : Word
  limit : Word
  palBase : Word
  palLen : Word
  stepSize : Word
  crcState : Word
  crcExpect : Word
  chLen : Word
  chType : Word
  chPayload : Word
  chCrc : Word
  chNext : Word
  chClass : Word
  hdrWidth : Word
  hdrHeight : Word
  hdrFmt : Word
  hdrInterlace : Word
  outW : Word
  outH : Word
  deriving DecidableEq, Repr

/-- The rows of the register map (10_state.md section 1). -/
inductive Reg where
  | id
  | ctrl
  | status
  | cmd
  | errInfo
  | src
  | dst
  | len
  | limit
  | palBase
  | palLen
  | stepSize
  | crcState
  | crcResult
  | crcExpect
  | chLen
  | chType
  | chPayload
  | chCrc
  | chNext
  | chClass
  | hdrWidth
  | hdrHeight
  | hdrFmt
  | hdrInterlace
  | outW
  | outH
  deriving DecidableEq, Repr

/-- Buffer memory (20_memory.md R60, R78). `cells` lists, addresses strictly rising, the bytes that something has
written since power-on. A byte not listed holds the value of the free draw `draw` at its address, one value fixed
until it is written (R78; log 3). -/
structure Memory where
  cells : List Host.Cell
  draw : Nat
  deriving DecidableEq, Repr

/-- Where a host access goes inside the block: a register offset, or a buffer address (20_memory.md R60). -/
inductive Port where
  | reg (offset : Nat)
  | buf (addr : Nat)
  deriving DecidableEq, Repr

/-- How a host statement names the place: as the spec's own statements do (30_encoding.md R98), or by its address on
the host bus (00_scope.md R8, 20_memory.md R61; log 2). -/
inductive Target where
  | port (p : Port)
  | bus (addr : Nat)
  deriving DecidableEq, Repr

/-- What the host does (30_encoding.md R98, R100). `width` is in bits. `wait` is the pseudo-statement `WAIT`;
`waitIrq` is the wait for the interrupt that 70_reset_and_hazards.md R257 allows in its place (log 12). -/
inductive HostStmt where
  | write (t : Target) (width : Nat) (v : Word)
  | read (t : Target) (width : Nat)
  | wait
  | waitIrq
  deriving DecidableEq, Repr

/-- The host agent, outside the block (00_scope.md R6, 10_state.md R52): the statements still to run, and the value
last read (30_encoding.md R98). -/
structure HostAgent where
  program : List HostStmt
  lastRead : Word
  deriving DecidableEq, Repr

/-- Who moves in one step of the total order of 20_memory.md R73: the engine, the host, or the platform's power-on
reset (70_reset_and_hazards.md R250). -/
inductive Turn where
  | engine
  | host
  | powerOn
  deriving DecidableEq, Repr

/-- The whole state. `cfg`, `turns` and `draws` are the model's: the open parameters (log 1), whose turn comes next
(log 5), and how many free draws have been made (log 4). -/
structure State where
  cfg : Config
  regs : Regs
  mem : Memory
  host : HostAgent
  turns : List Turn
  draws : Nat
  deriving DecidableEq, Repr

/-- No rule of the spec stops the machine: an error is a completion that the block reports (60_exceptions.md R221,
R228), and the engine never leaves buffer memory (00_scope.md R15). So there is no fault to raise. -/
inductive Fault where
  deriving DecidableEq, Repr

/-- Why a step is refused. Every reason but the first is a host access of which the spec says that a model refuses it;
no command is refused. -/
inductive Refusal where
  /-- Raised by `exec` for a command that has no meaning yet. Safe: nothing is claimed of it. -/
  | notModelled (mnemonic : String)
  /-- Raised by a host register access that is not 32 bits wide or not at a multiple of 4 (10_state.md R49). Safe. -/
  | regAccessForm
  /-- Raised by a host register access outside the span 0x000 to 0xFFF (93_implementation_defined.md U14). Safe. -/
  | regOutside
  /-- Raised by a host buffer access that is misaligned, of another width, or partly outside the aperture
  (20_memory.md R64). Safe. -/
  | bufAccessForm
  /-- Raised by a host-bus access that falls in neither window, or in both (93_implementation_defined.md U14; log 2).
  Safe. -/
  | busUnrouted
  deriving DecidableEq, Repr

/-- The registers after either reset (70_reset_and_hazards.md R251). -/
def Regs.reset : Regs where
  ctrl := { irqEn := false }
  status := { busy := false, done := false, err := false, werr := false, crcOk := false, errcode := .none }
  cmd := 0
  errInfo := 0
  src := 0
  dst := 0
  len := 0
  limit := 0
  palBase := 0
  palLen := 0
  stepSize := 0
  crcState := 0xFFFFFFFF
  crcExpect := 0
  chLen := 0
  chType := 0
  chPayload := 0
  chCrc := 0
  chNext := 0
  chClass := 0
  hdrWidth := 0
  hdrHeight := 0
  hdrFmt := 0
  hdrInterlace := 0
  outW := 0
  outH := 0

/-- The machine right after a power-on reset (70_reset_and_hazards.md R250 to R254), with a host that has nothing to
do (log 6). -/
def State.reset : State where
  cfg := .example256
  regs := .reset
  mem := { cells := [], draw := 0 }
  host := { program := [], lastRead := 0 }
  turns := []
  draws := 1

end Sys2Proof.Machine
end

