-- ==== Sys2Proof/Machine/Ops.lean ====
section
/-! DEFINITION. The named operations over memory and registers that the meanings share: loops, bytes of memory,
big- and little-endian words, regions, the completion of a command, raising an error, starting a command and the two
resets' register part. -/

namespace Sys2Proof.Machine

/-! ## Loops (00_scope.md R13: ascending order) -/

/-- `for i in 0 .. n-1: a <- f i a`. -/
def forUp {α : Type} (f : Nat → α → α) (a : α) : Nat → α
  | 0 => a
  | n + 1 => f n (forUp f a n)

/-- `for i in 0 .. n-1: if bad i a then stop at i; a <- f i a`. The second part is where it stopped. -/
def forUpUntil {α : Type} (bad : Nat → α → Bool) (f : Nat → α → α) (a : α) : Nat → α × Option Nat
  | 0 => (a, none)
  | n + 1 =>
    match forUpUntil bad f a n with
    | (b, some k) => (b, some k)
    | (b, none) => if bad n b then (b, some n) else (f n b, none)

/-! ## Buffer memory (20_memory.md R60, R65, R78) -/

/-- The byte listed at an address. -/
def cellsGet : List Host.Cell → Nat → Option Byte
  | [], _ => none
  | (x, c) :: t, a => if x = a then some c else cellsGet t a

/-- The list with the byte at an address replaced or added, addresses still rising. -/
def cellsSet : List Host.Cell → Nat → Byte → List Host.Cell
  | [], a, b => [(a, b)]
  | (x, c) :: t, a, b =>
    if a < x then (a, b) :: (x, c) :: t
    else if a = x then (a, b) :: t
    else (x, c) :: cellsSet t a b

/-- The canonical form: addresses strictly rising. An address that is not listed holds no value a program knows, so no
entry can be equal to it (log 3). -/
abbrev Memory.wf (m : Memory) : Prop := m.cells.Pairwise (fun x y => x.1 < y.1)

/-- What an address that nothing has written reads as: the free draw made at power-on (20_memory.md R78, log 3). -/
def Memory.unwritten (m : Memory) (a : Nat) : Byte := Config.freeByte m.draw a

/-- `Mem[a]` (00_scope.md R13). -/
def Memory.read (m : Memory) (a : Nat) : Byte := (cellsGet m.cells a).getD (m.unwritten a)

/-- `Mem[a] <- b` (00_scope.md R13). -/
def Memory.write (m : Memory) (a : Nat) (b : Byte) : Memory := { m with cells := cellsSet m.cells a b }

/-- `MemRead(a, n)` (00_scope.md R13). -/
def Memory.readBytes (m : Memory) (a : Nat) : Nat → List Byte
  | 0 => []
  | n + 1 => m.read a :: m.readBytes (a + 1) n

/-- `MemWrite(a, n, v)`, lowest address first (00_scope.md R13). -/
def Memory.writeBytes (m : Memory) (a : Nat) : List Byte → Memory
  | [] => m
  | b :: bs => (m.write a b).writeBytes (a + 1) bs

/-- `BE32(a)` (00_scope.md R13, 20_memory.md R63). -/
def Memory.be32 (m : Memory) (a : Nat) : Word :=
  (m.read a).setWidth 32 <<< 24 ||| (m.read (a + 1)).setWidth 32 <<< 16
    ||| (m.read (a + 2)).setWidth 32 <<< 8 ||| (m.read (a + 3)).setWidth 32

/-- The little-endian word of four bytes, the lowest address first (20_memory.md R62, 42_chunk.md R146). -/
def le32 (b0 b1 b2 b3 : Byte) : Word :=
  b0.setWidth 32 ||| b1.setWidth 32 <<< 8 ||| b2.setWidth 32 <<< 16 ||| b3.setWidth 32 <<< 24

/-- The four bytes of a little-endian word, the lowest address first (20_memory.md R62). -/
def le32Bytes (v : Word) : List Byte :=
  [v.extractLsb' 0 8, v.extractLsb' 8 8, v.extractLsb' 16 8, v.extractLsb' 24 8]

/-- `n` bytes from `a` become the bytes of one free draw (70_reset_and_hazards.md R253). -/
def Memory.scramble (m : Memory) (draw a n : Nat) : Memory :=
  forUp (fun i b => b.write (a + i) (Config.freeByte draw (a + i))) m n

/-! ## Regions (00_scope.md R14) -/

/-- `InMem(a, n)`: `a + n <= MEM_BYTES`. -/
abbrev InMem (c : Config) (a n : Nat) : Prop := a + n ≤ c.memBytes

/-- `Overlap(a, n, b, m)`. -/
abbrev Overlap (a n b m : Nat) : Prop := 0 < n ∧ 0 < m ∧ a < b + m ∧ b < a + n

/-! ## Start and completion of a command -/

/-- Writing `STATUS`. -/
def State.setStatus (s : State) (st : Status) : State := { s with regs := { s.regs with status := st } }

/-- The start of a command by a write of `v` to `CMD` (40_control.md R110). -/
def startCommand (v : Word) (s : State) : State :=
  { s with regs := { s.regs with
      cmd := v
      status := { s.regs.status with busy := true, done := false, err := false, errcode := .none }
      errInfo := 0 } }

/-- The end of the completion step of a command that raised no error: `BUSY <- 0`, `DONE <- 1`
(40_control.md R112, R113). -/
def finish (s : State) : State :=
  s.setStatus { s.regs.status with busy := false, done := true }

/-- `raise Error(code, info)`, the whole of the block's exception entry (60_exceptions.md R221, R228). -/
def raiseError (code : ErrCode) (info : Nat) (s : State) : State :=
  { s with regs := { s.regs with
      status := { s.regs.status with busy := false, done := true, err := true, errcode := code }
      errInfo := BitVec.ofNat 32 info } }

/-- The completion of a loop that may have stopped at a data-dependent error: the memory written so far stays, and
the error carries the number of the row or pixel (43_scanline.md R174, 44_expand.md R188). -/
def finishLoop (code : ErrCode) (out : Memory × Option Nat) (s : State) : State :=
  match out.2 with
  | none => finish { s with mem := out.1 }
  | some k => raiseError code k { s with mem := out.1 }

/-- A host write dropped because a command is in flight (10_state.md R50, 20_memory.md R68, 60_exceptions.md R225). -/
def dropWrite (s : State) : State := s.setStatus { s.regs.status with werr := true }

/-- The return from an error or a completion: the host's acknowledge, a write of 1 to `STATUS.DONE`
(60_exceptions.md R229, 30_encoding.md R100). -/
def acknowledge (s : State) : State := s.setStatus { s.regs.status with done := false }

/-- A power-on reset: every register at its reset value, every byte of memory one new draw
(70_reset_and_hazards.md R250 (a), R252). The host agent and the parameters are outside the block (log 18). -/
def powerOnReset (s : State) : State :=
  { s with regs := .reset, mem := { cells := [], draw := s.draws }, draws := s.draws + 1 }

end Sys2Proof.Machine
end

