-- ==== Sys2Proof/Machine/Operands.lean ====
section
/-! DEFINITION. What commands take from registers: the colour type and its bytes per pixel, the palette, tag bytes;
and what a command in flight may write (40_control.md R115). -/

namespace Sys2Proof.Machine

/-! ## Colour types (43_scanline.md R170) -/

/-- The kinds of image the document names. -/
inductive ColorKind where
  | grayscale
  | truecolor
  | indexed
  | grayscaleAlpha
  | truecolorAlpha
  deriving DecidableEq, Repr

/-- The kind a colour-type code names; no other code is defined (43_scanline.md R170; log 14). -/
def ColorKind.ofCode : Nat → Option ColorKind
  | 0 => some .grayscale
  | 2 => some .truecolor
  | 3 => some .indexed
  | 4 => some .grayscaleAlpha
  | 6 => some .truecolorAlpha
  | _ => none

/-- `bpp(ct)` (43_scanline.md R170). -/
def ColorKind.bpp : ColorKind → Nat
  | .grayscale => 1
  | .truecolor => 3
  | .indexed => 1
  | .grayscaleAlpha => 2
  | .truecolorAlpha => 4

/-- `R[HDR_FMT][15:8]`, the colour type (10_state.md R44). -/
def Regs.colorType (r : Regs) : Nat := (r.hdrFmt.extractLsb' 8 8).toNat

/-- The kind of the image the header registers describe. -/
def Regs.colorKind (r : Regs) : Option ColorKind := ColorKind.ofCode r.colorType

/-! ## Sizes, on unbounded numbers (00_scope.md R12) -/

/-- `SL = W * bpp(ct)`, the scanline length in bytes (43_scanline.md R171). -/
def Regs.scanline (r : Regs) (k : ColorKind) : Nat := r.hdrWidth.toNat * k.bpp

/-- `N = W * H`, the number of pixels (44_expand.md R187). -/
def Regs.pixels (r : Regs) : Nat := r.hdrWidth.toNat * r.hdrHeight.toNat

/-- `OW = W div n` (45_resample.md R205). -/
def Regs.thumbW (r : Regs) : Nat := r.hdrWidth.toNat / r.stepSize.toNat

/-- `OH = H div n` (45_resample.md R205). -/
def Regs.thumbH (r : Regs) : Nat := r.hdrHeight.toNat / r.stepSize.toNat

/-- `(PB, PL)`, the palette of an indexed image with `n` bytes of input (44_expand.md R186). -/
def Regs.palette (r : Regs) (sp : Bool) (n : Nat) : Nat × Nat :=
  if sp then (r.src.toNat, n) else (r.palBase.toNat, r.palLen.toNat)

/-! ## Tags (10_state.md R37) -/

/-- Tag byte `k`: byte 0 is in bits 31:24. -/
def tagByte (t : Word) (k : Nat) : Byte := t.extractLsb' (24 - 8 * k) 8

/-! ## Write sets (40_control.md R115) -/

/-- The registers a command's completion may change, beyond `STATUS` and `ERR_INFO`. -/
def writeSet : Instr → List Reg
  | .nop => []
  | .crcInit => [.crcState]
  | .crcUpdate => [.crcState]
  | .crcCheck => []
  | .chunkFrame => [.chLen, .chType, .chPayload, .chCrc, .chNext, .chClass, .crcState]
  | .typeDecode => [.chClass]
  | .hdrLoad => [.hdrWidth, .hdrHeight, .hdrFmt, .hdrInterlace]
  | .stripRows => []
  | .expandRgba _ => []
  | .resample _ => [.outW, .outH]

/-- The commands whose completion may change `STATUS.CRC_OK` (40_control.md R115, 10_state.md R23). -/
def writesCrcOk : Instr → Bool
  | .nop => false
  | .crcInit => false
  | .crcUpdate => false
  | .crcCheck => true
  | .chunkFrame => true
  | .typeDecode => false
  | .hdrLoad => false
  | .stripRows => false
  | .expandRgba _ => false
  | .resample _ => false

/-- The length of a command's destination region, which starts at `DST`. It is 0 where `bpp`, `STEP` or `PIX` is not
defined for the latched values (40_control.md R115). -/
def destLen (i : Instr) (r : Regs) : Nat :=
  match i with
  | .nop => 0
  | .crcInit => 0
  | .crcUpdate => 0
  | .crcCheck => 0
  | .chunkFrame => 0
  | .typeDecode => 0
  | .hdrLoad => 0
  | .stripRows =>
    match r.colorKind with
    | none => 0
    | some k => r.hdrHeight.toNat * r.scanline k
  | .expandRgba _ =>
    match r.colorKind with
    | none => 0
    | some _ => 4 * r.pixels
  | .resample pix =>
    if r.stepSize = 0 ∨ pix = 0 ∨ 4 < pix then 0 else r.thumbW * r.thumbH * pix

/-- The legal command in flight, if there is one. While an illegal word is in flight the write set is empty
(40_control.md R111, R115; log 17). -/
def State.inFlight (s : State) : Option Instr :=
  if s.regs.status.busy then
    match decode s.regs.cmd with
    | .ok i => some i
    | .error _ => none
  else none

/-- The length of the destination region of the command in flight; 0 when there is none. -/
def State.flightDestLen (s : State) : Nat :=
  match s.inFlight with
  | none => 0
  | some i => destLen i s.regs

/-- Whether a buffer address is in the destination region of the command in flight (20_memory.md R67). -/
abbrev State.InFlightDest (s : State) (a : Nat) : Prop :=
  s.regs.dst.toNat ≤ a ∧ a < s.regs.dst.toNat + s.flightDestLen

/-- Whether a host read of a register has no defined value now: the register is in the write set of the command in
flight (10_state.md R51). `CRC_RESULT` is a view of `CRC_STATE` (R34) and shares its lot (log 8). -/
def State.unspecified (s : State) (r : Reg) : Bool :=
  match s.inFlight with
  | none => false
  | some i => r ∈ writeSet i || (r = .crcResult && Reg.crcState ∈ writeSet i)

/-- Whether `STATUS.CRC_OK` has no defined value now (10_state.md R51). -/
def State.crcOkUnspecified (s : State) : Bool :=
  match s.inFlight with
  | none => false
  | some i => writesCrcOk i

end Sys2Proof.Machine
end

