-- ==== Sys2Proof/Machine/Flags.lean ====
section
/-! DEFINITION. Every flag the block computes: the `STATUS` and `CTRL` words and their host writes
(10_state.md R22, R23), the interrupt output (60_exceptions.md R230), and the `CH_CLASS` bits (42_chunk.md R140,
R141). -/

namespace Sys2Proof.Machine

/-- A word with one bit `b` at place `i`. -/
def flag (b : Bool) (i : Nat) : Word := (BitVec.ofBool b).setWidth 32 <<< i

/-! ## STATUS and CTRL -/

/-- The number of an error code (60_exceptions.md R220). -/
def ErrCode.code : ErrCode → Byte
  | .none => 0x00
  | .illegalCmd => 0x01
  | .bounds => 0x02
  | .overlap => 0x03
  | .malformedChunk => 0x04
  | .invalidData => 0x05
  | .invalidColorType => 0x06
  | .unimplementedFilter => 0x07
  | .truncated => 0x08
  | .badArg => 0x09
  | .paletteRange => 0x0A

/-- `STATUS` as it reads (10_state.md R23): BUSY 0, DONE 1, ERR 2, WERR 3, CRC_OK 4, ERRCODE 15:8, the rest 0. -/
def Status.word (t : Status) : Word :=
  flag t.busy 0 ||| flag t.done 1 ||| flag t.err 2 ||| flag t.werr 3 ||| flag t.crcOk 4
    ||| t.errcode.code.setWidth 32 <<< 8

/-- A host write to `STATUS`: it acts only on DONE and WERR, and a 1 clears (10_state.md R20, R23). -/
def Status.hostWrite (t : Status) (v : Word) : Status :=
  { t with done := t.done && !v.getLsbD 1, werr := t.werr && !v.getLsbD 3 }

/-- `CTRL` as it reads (10_state.md R22): IRQ_EN 0, SRST and the rest 0. -/
def Ctrl.word (c : Ctrl) : Word := flag c.irqEn 0

/-- The interrupt output `IRQ = STATUS.DONE & CTRL.IRQ_EN`, a level (60_exceptions.md R230, R231). -/
def State.irq (s : State) : Bool := s.regs.status.done && s.regs.ctrl.irqEn

/-! ## CRC_OK -/

/-- Writing `STATUS.CRC_OK`. -/
def State.setCrcOk (s : State) (ok : Bool) : State := s.setStatus { s.regs.status with crcOk := ok }

/-! ## CH_CLASS -/

/-- `classify(T)`: bits CRITICAL, PUBLIC and RESERVED_VALID, each set when bit 5 of tag byte 0, 1, 2 is clear
(42_chunk.md R140). -/
def classify (t : Word) : Word :=
  flag (!(tagByte t 0).getLsbD 5) 0 ||| flag (!(tagByte t 1).getLsbD 5) 1 ||| flag (!(tagByte t 2).getLsbD 5) 2

/-- `match(T)`: bits IS_IHDR, IS_IDAT, IS_IEND and IS_PLTE, exact comparisons (42_chunk.md R141; log 14). -/
def knownTag (t : Word) : Word :=
  flag (t = 0x49484452) 4 ||| flag (t = 0x49444154) 5 ||| flag (t = 0x49454E44) 6 ||| flag (t = 0x504C5445) 7

/-- `CH_CLASS` of a framed chunk (42_chunk.md R143). -/
def chunkClass (t : Word) (ok : Bool) : Word := classify t ||| flag ok 3 ||| knownTag t

/-- `CH_CLASS` after `TYPE_DECODE`: CRC_VALID keeps its value (42_chunk.md R145). -/
def retypedClass (old t : Word) : Word := (old &&& 0x00000008) ||| classify t ||| knownTag t

end Sys2Proof.Machine
end

