-- ==== Sys2Proof/Machine/Crc.lean ====
section
/-! DEFINITION. The CRC function and the three CRC commands (spec/41_crc.md). -/

namespace Sys2Proof.Machine

/-- One of the 8 shift iterations of the byte step (41_crc.md R120; log 14). -/
def crcShift (c : Word) : Word := if c.getLsbD 0 then (c >>> 1) ^^^ 0xEDB88320 else c >>> 1

/-- `n` shift iterations. -/
def crcShifts (c : Word) : Nat → Word
  | 0 => c
  | n + 1 => crcShifts (crcShift c) n

/-- `crc_byte(c, b)` (41_crc.md R120). -/
def crcByte (c : Word) (b : Byte) : Word := crcShifts (c ^^^ b.setWidth 32) 8

/-- `crc_raw(c0, s)` (41_crc.md R121). -/
def crcRaw (c : Word) : List Byte → Word
  | [] => c
  | b :: bs => crcRaw (crcByte c b) bs

/-- `CRC32(s)` (41_crc.md R121). -/
def crc32 (bs : List Byte) : Word := ~~~ crcRaw 0xFFFFFFFF bs

/-- Writing `CRC_STATE`. -/
def State.setCrcState (s : State) (c : Word) : State := { s with regs := { s.regs with crcState := c } }

/-- `CRC_INIT` (41_crc.md R122). -/
def execCrcInit (s : State) : Host.Outcome State Fault Refusal := .next (finish (s.setCrcState 0xFFFFFFFF))

/-- `CRC_UPDATE` (41_crc.md R123). -/
def execCrcUpdate (s : State) : Host.Outcome State Fault Refusal :=
  let a := s.regs.src.toNat
  let n := s.regs.len.toNat
  if ¬ InMem s.cfg a n then .next (raiseError .bounds 0 s)
  else .next (finish (s.setCrcState (crcRaw s.regs.crcState (s.mem.readBytes a n))))

/-- `CRC_CHECK` (41_crc.md R124). -/
def execCrcCheck (s : State) : Host.Outcome State Fault Refusal :=
  .next (finish (s.setCrcOk (~~~ s.regs.crcState = s.regs.crcExpect)))

end Sys2Proof.Machine
end

