-- ==== Sys2Proof/Machine/Chunk.lean ====
section
/-! DEFINITION. The chunk framer, the type decoder and the header loader (spec/42_chunk.md). -/

namespace Sys2Proof.Machine

/-- The state after the result writes of `CHUNK_FRAME` for a chunk at `a` with length field `len`
(42_chunk.md R142, R143). -/
def frameResults (a len : Nat) (s : State) : State :=
  let t := s.mem.be32 (a + 4)
  let stored := s.mem.be32 (a + 8 + len)
  let c := crcRaw 0xFFFFFFFF (s.mem.readBytes (a + 4) (4 + len))
  let ok : Bool := ~~~ c = stored
  { s with regs := { s.regs with
      chLen := BitVec.ofNat 32 len
      chType := t
      chPayload := BitVec.ofNat 32 (a + 8)
      chCrc := stored
      chNext := BitVec.ofNat 32 (a + 12 + len)
      crcState := c
      chClass := chunkClass t ok
      status := { s.regs.status with crcOk := ok } } }

/-- `CHUNK_FRAME` (42_chunk.md R143). -/
def execChunkFrame (s : State) : Host.Outcome State Fault Refusal :=
  let a := s.regs.src.toNat
  let lim := s.regs.limit.toNat
  let len := (s.mem.be32 a).toNat
  if s.cfg.memBytes < lim then .next (raiseError .bounds 0 s)
  else if lim < a + 12 then .next (raiseError .malformedChunk 0 s)
  else if lim < a + 12 + len then .next (raiseError .malformedChunk 1 s)
  else .next (finish (frameResults a len s))

/-- `TYPE_DECODE` (42_chunk.md R145). -/
def execTypeDecode (s : State) : Host.Outcome State Fault Refusal :=
  .next (finish { s with regs := { s.regs with chClass := retypedClass s.regs.chClass s.regs.chType } })

/-- The state after the header writes of `HDR_LOAD` from a payload at `a`; no field is validated
(42_chunk.md R146, R147). -/
def loadHeader (a : Nat) (s : State) : State :=
  { s with regs := { s.regs with
      hdrWidth := s.mem.be32 a
      hdrHeight := s.mem.be32 (a + 4)
      hdrFmt := le32 (s.mem.read (a + 8)) (s.mem.read (a + 9)) (s.mem.read (a + 10)) (s.mem.read (a + 11))
      hdrInterlace := (s.mem.read (a + 12)).setWidth 32 } }

/-- `HDR_LOAD` (42_chunk.md R146). -/
def execHdrLoad (s : State) : Host.Outcome State Fault Refusal :=
  let a := s.regs.src.toNat
  let n := s.regs.len.toNat
  if n < 13 then .next (raiseError .invalidData 0 s)
  else if ¬ InMem s.cfg a n then .next (raiseError .bounds 0 s)
  else .next (finish (loadHeader a s))

end Sys2Proof.Machine
end

