-- ==== Sys2Proof/Machine/Control.lean ====
section
/-! DEFINITION. The meaning of `NOP` (40_control.md R114). Every meaning is the whole completion step of its command
(R112), from the operands the state holds. -/

namespace Sys2Proof.Machine

/-- `NOP`: nothing beyond the completion (40_control.md R114). -/
def execNop (s : State) : Host.Outcome State Fault Refusal := .next (finish s)

end Sys2Proof.Machine
end

