-- ==== Sys2Proof/Machine/Expand.lean ====
section
/-! DEFINITION. The RGBA pixel expander (spec/44_expand.md). -/

namespace Sys2Proof.Machine

/-- The output bytes R, G, B, A of the pixel whose input bytes start at `a`; `pb` is the palette's address
(44_expand.md R185). -/
def pixelRgba (m : Memory) (k : ColorKind) (pb a : Nat) : List Byte :=
  match k with
  | .grayscale => [m.read a, m.read a, m.read a, 0xFF]
  | .truecolor => [m.read a, m.read (a + 1), m.read (a + 2), 0xFF]
  | .indexed =>
    let x := (m.read a).toNat
    [m.read (pb + 3 * x), m.read (pb + 3 * x + 1), m.read (pb + 3 * x + 2), 0xFF]
  | .grayscaleAlpha => [m.read a, m.read a, m.read a, m.read (a + 1)]
  | .truecolorAlpha => [m.read a, m.read (a + 1), m.read (a + 2), m.read (a + 3)]

/-- Whether the pixel at `a` has a palette index past the end of a palette of `pl` bytes (44_expand.md R186, R187). -/
def badIndex (k : ColorKind) (pl a : Nat) (m : Memory) : Bool :=
  decide (k = .indexed ∧ pl < 3 * (m.read a).toNat + 3)

/-- The pixel loop of `EXPAND_RGBA` (44_expand.md R187, R188). -/
def expandLoop (k : ColorKind) (src dst pb pl n : Nat) (m : Memory) : Memory × Option Nat :=
  forUpUntil (fun i b => badIndex k pl (src + i * k.bpp) b)
    (fun i b => b.writeBytes (dst + 4 * i) (pixelRgba b k pb (src + i * k.bpp))) m n

/-- `EXPAND_RGBA` (44_expand.md R187). -/
def execExpandRgba (sp : Bool) (s : State) : Host.Outcome State Fault Refusal :=
  match s.regs.colorKind with
  | none => .next (raiseError .invalidColorType s.regs.colorType s)
  | some k =>
    let n := s.regs.pixels
    let inp := n * k.bpp
    let out := 4 * n
    let src := s.regs.src.toNat
    let dst := s.regs.dst.toNat
    let pal := s.regs.palette sp inp
    if ¬ InMem s.cfg src inp ∨ ¬ InMem s.cfg dst out then .next (raiseError .bounds 0 s)
    else if k = .indexed ∧ ¬ InMem s.cfg pal.1 pal.2 then .next (raiseError .bounds 0 s)
    else if Overlap src inp dst out then .next (raiseError .overlap 0 s)
    else if k = .indexed ∧ Overlap pal.1 pal.2 dst out then .next (raiseError .overlap 0 s)
    else .next (finishLoop .paletteRange (expandLoop k src dst pal.1 pal.2 n s.mem) s)

end Sys2Proof.Machine
end

