-- ==== Sys2Proof/Machine/Resample.lean ====
section
/-! DEFINITION. The strided resampler (spec/45_resample.md). -/

namespace Sys2Proof.Machine

/-- Output pixel `(ox, oy)`: its `p` bytes come from input pixel `(ox * n, oy * n)` (45_resample.md R205, R207). -/
def copyPixel (src dst w ow n p oy ox : Nat) (m : Memory) : Memory :=
  forUp (fun k b => b.write (dst + (oy * ow + ox) * p + k) (b.read (src + ((oy * n) * w + ox * n) * p + k))) m p

/-- The three loops of `RESAMPLE` (45_resample.md R207). -/
def resampleLoop (src dst w ow oh n p : Nat) (m : Memory) : Memory :=
  forUp (fun oy b => forUp (fun ox b' => copyPixel src dst w ow n p oy ox b') b ow) m oh

/-- `RESAMPLE` (45_resample.md R206, R207). -/
def execResample (pix : Nat) (s : State) : Host.Outcome State Fault Refusal :=
  let n := s.regs.stepSize.toNat
  let w := s.regs.hdrWidth.toNat
  let ow := s.regs.thumbW
  let oh := s.regs.thumbH
  let inp := s.regs.pixels * pix
  let out := ow * oh * pix
  let src := s.regs.src.toNat
  let dst := s.regs.dst.toNat
  if n = 0 then .next (raiseError .badArg 0 s)
  else if pix = 0 ∨ 4 < pix then .next (raiseError .badArg 1 s)
  else if ¬ InMem s.cfg src inp ∨ ¬ InMem s.cfg dst out then .next (raiseError .bounds 0 s)
  else if Overlap src inp dst out then .next (raiseError .overlap 0 s)
  else .next (finish { s with
      mem := resampleLoop src dst w ow oh n pix s.mem
      regs := { s.regs with outW := BitVec.ofNat 32 ow, outH := BitVec.ofNat 32 oh } })

end Sys2Proof.Machine
end

