-- ==== Sys2Proof/Machine/Scanline.lean ====
section
/-! DEFINITION. The scanline filter-tag stripper (spec/43_scanline.md). -/

namespace Sys2Proof.Machine

/-- Row `r` of `STRIP_ROWS`: its `sl` bytes after the tag go to the output row (43_scanline.md R171, R172). -/
def copyRow (src dst sl r : Nat) (m : Memory) : Memory :=
  m.writeBytes (dst + r * sl) (m.readBytes (src + r * (1 + sl) + 1) sl)

/-- Whether row `r`'s filter-type tag is not 0 (43_scanline.md R171). -/
def badTag (src sl r : Nat) (m : Memory) : Bool := m.read (src + r * (1 + sl)) != 0

/-- The row loop of `STRIP_ROWS` (43_scanline.md R171, R174). -/
def stripLoop (src dst sl h : Nat) (m : Memory) : Memory × Option Nat :=
  forUpUntil (badTag src sl) (copyRow src dst sl) m h

/-- `STRIP_ROWS` (43_scanline.md R171). -/
def execStripRows (s : State) : Host.Outcome State Fault Refusal :=
  match s.regs.colorKind with
  | none => .next (raiseError .invalidColorType s.regs.colorType s)
  | some k =>
    let h := s.regs.hdrHeight.toNat
    let sl := s.regs.scanline k
    let need := h * (1 + sl)
    let out := h * sl
    let src := s.regs.src.toNat
    let dst := s.regs.dst.toNat
    let len := s.regs.len.toNat
    if len < need then .next (raiseError .truncated (len / (1 + sl)) s)
    else if ¬ InMem s.cfg src need ∨ ¬ InMem s.cfg dst out then .next (raiseError .bounds 0 s)
    else if Overlap src need dst out then .next (raiseError .overlap 0 s)
    else .next (finishLoop .unimplementedFilter (stripLoop src dst sl h s.mem) s)

end Sys2Proof.Machine
end

