-- ==== Sys2Proof/Machine/Dispatch.lean ====
section
/-! DEFINITION. The meaning of each command: the completion step the opcode table names (40_control.md R112). -/

namespace Sys2Proof.Machine

def exec (i : Instr) (s : State) : Host.Outcome State Fault Refusal :=
  match i with
  | .nop => Sys2Proof.Machine.execNop s
  | .crcInit => Sys2Proof.Machine.execCrcInit s
  | .crcUpdate => Sys2Proof.Machine.execCrcUpdate s
  | .crcCheck => Sys2Proof.Machine.execCrcCheck s
  | .chunkFrame => Sys2Proof.Machine.execChunkFrame s
  | .typeDecode => Sys2Proof.Machine.execTypeDecode s
  | .hdrLoad => Sys2Proof.Machine.execHdrLoad s
  | .stripRows => Sys2Proof.Machine.execStripRows s
  | .expandRgba sp => Sys2Proof.Machine.execExpandRgba sp s
  | .resample pix => Sys2Proof.Machine.execResample pix s

end Sys2Proof.Machine
end

