-- ==== Sys2Proof/Machine/Engine.lean ====
section
/-! DEFINITION. The engine's step (40_control.md R111, R112). -/

namespace Sys2Proof.Machine

/-- The completion step: legality first, then the operation that `CMD` names (40_control.md R111, R112). -/
def complete (s : State) : Host.Outcome State Fault Refusal :=
  match decode s.regs.cmd with
  | .error _ => .next (raiseError .illegalCmd 0 s)
  | .ok i => exec i s

/-- The engine's turn: its one step while `BUSY = 1`, and none while `BUSY = 0`, when the state persists
(40_control.md R112, 60_exceptions.md R239; log 7). -/
def engineStep (s : State) : Host.Outcome State Fault Refusal :=
  if s.regs.status.busy then complete s else .next s

end Sys2Proof.Machine
end

