-- ==== Sys2Proof/Machine/HostPort.lean ====
section
/-! DEFINITION. The host port: register and buffer-memory reads and writes, idle and busy, soft reset, and the host
agent's step (10_state.md sections 1 and 7, spec/20_memory.md, 30_encoding.md R98, R100). -/

namespace Sys2Proof.Machine

/-! ## The register map (10_state.md section 1) -/

/-- The offset of a register. -/
def Reg.offset : Reg → Nat
  | .id => 0x000
  | .ctrl => 0x004
  | .status => 0x008
  | .cmd => 0x00C
  | .errInfo => 0x010
  | .src => 0x014
  | .dst => 0x018
  | .len => 0x01C
  | .limit => 0x020
  | .palBase => 0x024
  | .palLen => 0x028
  | .stepSize => 0x02C
  | .crcState => 0x030
  | .crcResult => 0x034
  | .crcExpect => 0x038
  | .chLen => 0x040
  | .chType => 0x044
  | .chPayload => 0x048
  | .chCrc => 0x04C
  | .chNext => 0x050
  | .chClass => 0x054
  | .hdrWidth => 0x060
  | .hdrHeight => 0x064
  | .hdrFmt => 0x068
  | .hdrInterlace => 0x06C
  | .outW => 0x070
  | .outH => 0x074

/-- The register at an offset; none for an offset that is not in the table (10_state.md R48). -/
def Reg.ofOffset : Nat → Option Reg
  | 0x000 => some .id
  | 0x004 => some .ctrl
  | 0x008 => some .status
  | 0x00C => some .cmd
  | 0x010 => some .errInfo
  | 0x014 => some .src
  | 0x018 => some .dst
  | 0x01C => some .len
  | 0x020 => some .limit
  | 0x024 => some .palBase
  | 0x028 => some .palLen
  | 0x02C => some .stepSize
  | 0x030 => some .crcState
  | 0x034 => some .crcResult
  | 0x038 => some .crcExpect
  | 0x040 => some .chLen
  | 0x044 => some .chType
  | 0x048 => some .chPayload
  | 0x04C => some .chCrc
  | 0x050 => some .chNext
  | 0x054 => some .chClass
  | 0x060 => some .hdrWidth
  | 0x064 => some .hdrHeight
  | 0x068 => some .hdrFmt
  | 0x06C => some .hdrInterlace
  | 0x070 => some .outW
  | 0x074 => some .outH
  | _ => none

/-- The exact value of a register, the one place where registers are read by number: `ID` is constant (10_state.md
R21) and `CRC_RESULT` is a view (R34). -/
def Regs.get (g : Regs) : Reg → Word
  | .id => 0x504E4701
  | .ctrl => g.ctrl.word
  | .status => g.status.word
  | .cmd => g.cmd
  | .errInfo => g.errInfo
  | .src => g.src
  | .dst => g.dst
  | .len => g.len
  | .limit => g.limit
  | .palBase => g.palBase
  | .palLen => g.palLen
  | .stepSize => g.stepSize
  | .crcState => g.crcState
  | .crcResult => ~~~ g.crcState
  | .crcExpect => g.crcExpect
  | .chLen => g.chLen
  | .chType => g.chType
  | .chPayload => g.chPayload
  | .chCrc => g.chCrc
  | .chNext => g.chNext
  | .chClass => g.chClass
  | .hdrWidth => g.hdrWidth
  | .hdrHeight => g.hdrHeight
  | .hdrFmt => g.hdrFmt
  | .hdrInterlace => g.hdrInterlace
  | .outW => g.outW
  | .outH => g.outH

/-! ## Reads (10_state.md R48, R51, 20_memory.md R62, R66, R67) -/

/-- The host receives a value. While a command is in flight the read uses up one draw number, so that two reads may
return different unspecified values (10_state.md R51; log 4). -/
def received (v : Word) (s : State) : State :=
  { s with
    host := { s.host with lastRead := v }
    draws := if s.regs.status.busy then s.draws + 1 else s.draws }

/-- What a host read of a register returns now: the free draw where the value is unspecified, the exact value
otherwise; of `STATUS` only `CRC_OK` is ever unspecified (10_state.md R51; log 9). -/
def State.seenReg (s : State) (r : Reg) : Word :=
  if s.unspecified r then Config.freeWord s.draws
  else if r = .status ∧ s.crcOkUnspecified then
    { s.regs.status with crcOk := (Config.freeWord s.draws).getLsbD 4 : Status }.word
  else s.regs.get r

/-- What a host read of an offset of the span returns now; an offset not in the table reads 0 (10_state.md R48). -/
def State.seenOffset (s : State) (offset : Nat) : Word :=
  match Reg.ofOffset offset with
  | none => 0
  | some r => s.seenReg r

/-- What a host read of a byte returns now: a free draw in the destination region of the command in flight
(20_memory.md R67). -/
def State.seenByte (s : State) (a : Nat) : Byte :=
  if s.InFlightDest a then Config.freeByte s.draws a else s.mem.read a

/-- What a host read of `width` bits of buffer memory returns now (20_memory.md R61, R62; log 15). -/
def State.seenBuf (s : State) (a width : Nat) : Word :=
  if width = 8 then (s.seenByte a).setWidth 32
  else le32 (s.seenByte a) (s.seenByte (a + 1)) (s.seenByte (a + 2)) (s.seenByte (a + 3))

/-! ## Register writes (10_state.md R20, R22, R23, R48, R50) -/

/-- A soft reset: registers to their reset values, memory kept except the destination region of the command it
abandons (70_reset_and_hazards.md R250, R253; logs 10 and 18). -/
def softReset (s : State) : State :=
  { s with
    regs := .reset
    mem := s.mem.scramble s.draws s.regs.dst.toNat (min s.flightDestLen (s.cfg.memBytes - s.regs.dst.toNat))
    draws := s.draws + 1 }

/-- A host write to `CTRL` (10_state.md R22): a 1 in bit 1 resets, whatever bit 0 carries. -/
def writeCtrl (v : Word) (s : State) : State :=
  if v.getLsbD 1 then softReset s else { s with regs := { s.regs with ctrl := { irqEn := v.getLsbD 0 } } }

/-- A host write to an RW register that starts nothing; a write to an RO register is ignored, and so are the reserved
bits of `HDR_INTERLACE` (10_state.md R20, R45). -/
def Regs.put (g : Regs) (r : Reg) (v : Word) : Regs :=
  match r with
  | .id => g
  | .ctrl => g
  | .status => g
  | .cmd => g
  | .errInfo => g
  | .src => { g with src := v }
  | .dst => { g with dst := v }
  | .len => { g with len := v }
  | .limit => { g with limit := v }
  | .palBase => { g with palBase := v }
  | .palLen => { g with palLen := v }
  | .stepSize => { g with stepSize := v }
  | .crcState => { g with crcState := v }
  | .crcResult => g
  | .crcExpect => { g with crcExpect := v }
  | .chLen => g
  | .chType => { g with chType := v }
  | .chPayload => g
  | .chCrc => g
  | .chNext => g
  | .chClass => g
  | .hdrWidth => { g with hdrWidth := v }
  | .hdrHeight => { g with hdrHeight := v }
  | .hdrFmt => { g with hdrFmt := v }
  | .hdrInterlace => { g with hdrInterlace := v &&& 0x000000FF }
  | .outW => g
  | .outH => g

/-- A host write to an offset of the span: `CTRL` and `STATUS` act at any time; while busy every other write is
dropped; a write to `CMD` starts a command (10_state.md R22 to R24, R48, R50, 40_control.md R110). -/
def writeOffset (offset : Nat) (v : Word) (s : State) : State :=
  if offset = Reg.ctrl.offset then writeCtrl v s
  else if offset = Reg.status.offset then s.setStatus (s.regs.status.hostWrite v)
  else if s.regs.status.busy then dropWrite s
  else if offset = Reg.cmd.offset then startCommand v s
  else
    match Reg.ofOffset offset with
    | none => s
    | some r => { s with regs := s.regs.put r v }

/-- A host write to buffer memory; dropped while busy (20_memory.md R61, R62, R68; log 15). -/
def writeBuf (a width : Nat) (v : Word) (s : State) : State :=
  if s.regs.status.busy then dropWrite s
  else if width = 8 then { s with mem := s.mem.write a (v.extractLsb' 0 8) }
  else { s with mem := s.mem.writeBytes a (le32Bytes v) }

/-! ## Which accesses have a meaning -/

/-- The form of a register access: 32 bits at a multiple of 4 (10_state.md R49). -/
abbrev RegForm (offset width : Nat) : Prop := width = 32 ∧ offset % 4 = 0

/-- The form of a buffer access: 8 bits anywhere or 32 bits at a multiple of 4, wholly inside the aperture
(20_memory.md R61). -/
abbrev BufForm (c : Config) (a width : Nat) : Prop :=
  (width = 8 ∧ InMem c a 1) ∨ (width = 32 ∧ a % 4 = 0 ∧ InMem c a 4)

/-- The port a target names: a host-bus address is in the register window or in the aperture (00_scope.md R8,
20_memory.md R61, 93_implementation_defined.md U14; log 2). -/
def Target.resolve (c : Config) : Target → Option Port
  | .port p => some p
  | .bus x =>
    let inRegs := c.regBase ≤ x ∧ x < c.regBase + 0x1000
    let inBuf := c.memBase ≤ x ∧ x < c.memBase + c.memBytes
    if inRegs ∧ ¬ inBuf then some (.reg (x - c.regBase))
    else if inBuf ∧ ¬ inRegs then some (.buf (x - c.memBase))
    else none

/-- Why an access is refused; none for one that has a meaning (10_state.md R49, 20_memory.md R64; log 11). -/
def Port.refusal (c : Config) (width : Nat) : Port → Option Refusal
  | .reg offset =>
    if ¬ RegForm offset width then some .regAccessForm
    else if 0x1000 ≤ offset then some .regOutside
    else none
  | .buf a => if BufForm c a width then none else some .bufAccessForm

/-- A host write (30_encoding.md R98). -/
def hostWrite (t : Target) (width : Nat) (v : Word) (s : State) : Host.Outcome State Fault Refusal :=
  match t.resolve s.cfg with
  | none => .refused .busUnrouted
  | some p =>
    match p.refusal s.cfg width with
    | some why => .refused why
    | none =>
      match p with
      | .reg offset => .next (writeOffset offset v s)
      | .buf a => .next (writeBuf a width v s)

/-- A host read (30_encoding.md R98). -/
def hostRead (t : Target) (width : Nat) (s : State) : Host.Outcome State Fault Refusal :=
  match t.resolve s.cfg with
  | none => .refused .busUnrouted
  | some p =>
    match p.refusal s.cfg width with
    | some why => .refused why
    | none =>
      match p with
      | .reg offset => .next (received (s.seenOffset offset) s)
      | .buf a => .next (received (s.seenBuf a width) s)

/-! ## The host agent -/

/-- One pass of a host statement, the statement already taken from the program; `WAIT` reads `STATUS` and comes back
while `BUSY = 1` (30_encoding.md R100), and the wait for the interrupt comes back while `IRQ` is not asserted
(70_reset_and_hazards.md R257; log 12). -/
def hostExec (st : HostStmt) (s : State) : Host.Outcome State Fault Refusal :=
  match st with
  | .write t width v => hostWrite t width v s
  | .read t width => hostRead t width s
  | .wait =>
    let s' := received (s.seenReg .status) s
    if s.regs.status.busy then .next { s' with host := { s'.host with program := .wait :: s.host.program } }
    else .next s'
  | .waitIrq =>
    if s.irq then .next s else .next { s with host := { s.host with program := .waitIrq :: s.host.program } }

/-- The host's turn: its next statement, if it has one (00_scope.md R6, 20_memory.md R72; log 7). -/
def hostStep (s : State) : Host.Outcome State Fault Refusal :=
  match s.host.program with
  | [] => .next s
  | st :: rest => hostExec st { s with host := { s.host with program := rest } }

end Sys2Proof.Machine
end

