-- ==== Sys2Proof/Machine/HostProgram.lean ====
section
/-! DEFINITION. The host statements and pseudo-statements of 30_encoding.md R98 to R100, as statements of the host
agent. Labels and `B<cond>` are left out: the spec gives their conditions no meaning (log 12). -/

namespace Sys2Proof.Machine

/-- `WR <REG>, <v>` (30_encoding.md R98). -/
def stmtWR (r : Reg) (v : Word) : HostStmt := .write (.port (.reg r.offset)) 32 v

/-- `RD <REG>` (30_encoding.md R98). -/
def stmtRD (r : Reg) : HostStmt := .read (.port (.reg r.offset)) 32

/-- `WB <a>, <b>` (30_encoding.md R98). -/
def stmtWB (a : Nat) (b : Byte) : HostStmt := .write (.port (.buf a)) 8 (b.setWidth 32)

/-- `RB <a>` (30_encoding.md R98). -/
def stmtRB (a : Nat) : HostStmt := .read (.port (.buf a)) 8

/-- `WW <a>, <v>` (30_encoding.md R98). -/
def stmtWW (a : Nat) (v : Word) : HostStmt := .write (.port (.buf a)) 32 v

/-- `RW <a>` (30_encoding.md R98). -/
def stmtRW (a : Nat) : HostStmt := .read (.port (.buf a)) 32

/-- `<MNEMONIC>`: `WR CMD` with the command's word (30_encoding.md R98, R99). -/
def stmtCommand (i : Instr) : HostStmt := stmtWR .cmd (encode i)

/-- `RUN <MNEMONIC>` (30_encoding.md R100). -/
def stmtsRUN (i : Instr) : List HostStmt := [stmtCommand i, .wait]

/-- `WBS <a>, b0, b1, ...` (30_encoding.md R100). -/
def stmtsWBS (a : Nat) : List Byte → List HostStmt
  | [] => []
  | b :: bs => stmtWB a b :: stmtsWBS (a + 1) bs

/-- `CRC32 <s>, <n>` (30_encoding.md R100). -/
def stmtsCRC32 (a n : Word) : List HostStmt :=
  stmtsRUN .crcInit ++ [stmtWR .src a, stmtWR .len n] ++ stmtsRUN .crcUpdate

/-- `FRAME <s>, <lim>` (30_encoding.md R100). -/
def stmtsFRAME (a lim : Word) : List HostStmt := [stmtWR .src a, stmtWR .limit lim] ++ stmtsRUN .chunkFrame

/-- `ACK` (30_encoding.md R100). -/
def stmtACK : HostStmt := stmtWR .status 0x2

end Sys2Proof.Machine
end

