-- ==== Sys2Proof/Machine/Step.lean ====
section
/-! DEFINITION. One step of the whole system: one entry of the total order of host accesses and command completions
(20_memory.md R73). -/

namespace Sys2Proof.Machine

/-- The agent whose turn it is moves. When `turns` names no one, a command in flight completes, and otherwise the host
goes on, so that every started command completes (70_reset_and_hazards.md R263; log 5). -/
def step (s : State) : Host.Outcome State Fault Refusal :=
  match s.turns with
  | [] => if s.regs.status.busy then engineStep s else hostStep s
  | .engine :: ts => engineStep { s with turns := ts }
  | .host :: ts => hostStep { s with turns := ts }
  | .powerOn :: ts => .next (powerOnReset { s with turns := ts })

/-- A command's word written to `CMD` (40_control.md R110), and the engine's turn next (log 6). -/
def State.withFetchWord (s : State) (nbits w : Nat) : State :=
  { startCommand (BitVec.ofNat 32 (w % 2 ^ nbits)) s with turns := .engine :: s.turns }

end Sys2Proof.Machine
end

