-- ==== Sys2Proof/Safety.lean ====
section
/-! DEFINITION. The terms in which claims about the block are stated: the invariant of reachable states, when the
operands of a command fit, and what stays the same. -/

namespace Sys2Proof.Machine

/-- What holds in every state a run reaches. -/
structure State.Inv (s : State) : Prop where
  /-- The size of memory is legal (00_scope.md R7). -/
  legal : s.cfg.Legal
  /-- Memory is in its canonical form. -/
  sorted : s.mem.wf
  /-- Every written byte is at an address that exists (20_memory.md R60). -/
  inside : ∀ c ∈ s.mem.cells, c.1 < s.cfg.memBytes
  /-- While a command is in flight `DONE`, `ERR` and `ERR_INFO` are 0 (40_control.md R110, 10_state.md R51). -/
  busyClean : s.regs.status.busy = true →
    s.regs.status.done = false ∧ s.regs.status.err = false ∧ s.regs.errInfo = 0
  /-- `ERR` is 1 exactly when `ERRCODE` names an error (60_exceptions.md R220, R221). -/
  errHasCode : s.regs.status.err = true ↔ s.regs.status.errcode ≠ .none
  /-- Without an error `ERR_INFO` is 0 (10_state.md R25). -/
  infoZero : s.regs.status.err = false → s.regs.errInfo = 0
  /-- The reserved bits of `CH_CLASS` are 0 (10_state.md R41). -/
  classReserved : s.regs.chClass.toNat < 256
  /-- The reserved bits of `HDR_INTERLACE` are 0 (10_state.md R45, R20). -/
  interlaceReserved : s.regs.hdrInterlace.toNat < 256
  /-- `CH_NEXT` is at most `MEM_BYTES` (10_state.md R40). -/
  nextInside : s.regs.chNext.toNat ≤ s.cfg.memBytes

/-- Every byte outside `Region(a, n)` reads as before. -/
abbrev SameMemOutside (a n : Nat) (s t : State) : Prop :=
  ∀ x, ¬ (a ≤ x ∧ x < a + n) → t.mem.read x = s.mem.read x

/-- Every register that is not listed reads as before, `STATUS` and `ERR_INFO` aside. `CRC_RESULT` is a view of
`CRC_STATE`, so it is kept when `CRC_STATE` is. -/
abbrev KeepsRegsBut (ws : List Reg) (s t : State) : Prop :=
  ∀ r : Reg, r ∉ ws → r ≠ .status → r ≠ .errInfo → (r = .crcResult → Reg.crcState ∉ ws) →
    t.regs.get r = s.regs.get r

/-- The agents around the block, the parameters and the free-draw numbers are as before. -/
abbrev KeepsSurroundings (s t : State) : Prop :=
  t.cfg = s.cfg ∧ t.host = s.host ∧ t.turns = s.turns ∧ t.draws = s.draws ∧ t.mem.draw = s.mem.draw

/-- The two memories hold the same bytes at the addresses that exist. -/
abbrev MemAgree (c : Config) (m m' : Memory) : Prop := ∀ a < c.memBytes, m.read a = m'.read a

/-- The registers the host may read back what it wrote to, those that start or clear something aside
(10_state.md section 1). -/
def plainRW : List Reg :=
  [.src, .dst, .len, .limit, .palBase, .palLen, .stepSize, .crcState, .crcExpect, .chType, .hdrWidth, .hdrHeight,
   .hdrFmt, .hdrInterlace]

/-- The registers a host write to which is ignored (10_state.md section 1). -/
def readOnly : List Reg :=
  [.id, .errInfo, .crcResult, .chLen, .chPayload, .chCrc, .chNext, .chClass, .outW, .outH]

/-- The address is in the destination region of the command in flight (20_memory.md R67, 40_control.md R115). -/
abbrev State.InFlightRegion (s : State) (x : Nat) : Prop :=
  ∃ i, s.inFlight = some i ∧ s.regs.dst.toNat ≤ x ∧ x < s.regs.dst.toNat + destLen i s.regs

/-- The chunk at `SRC` lies below `LIMIT`, and `LIMIT` in memory: none of the tests of `CHUNK_FRAME` fails
(42_chunk.md R143). -/
abbrev ChunkFits (s : State) : Prop :=
  s.regs.limit.toNat ≤ s.cfg.memBytes ∧ s.regs.src.toNat + 12 ≤ s.regs.limit.toNat ∧
    s.regs.src.toNat + 12 + (s.mem.be32 s.regs.src.toNat).toNat ≤ s.regs.limit.toNat

/-- The colour type in `HDR_FMT`, bits 15:8 (10_state.md R44), has this kind and this number of bytes per pixel: a row
of the table of 43_scanline.md R170. -/
abbrev State.ColorRow (s : State) (k : ColorKind) (p : Nat) : Prop :=
  (s.regs.hdrFmt.toNat / 256 % 256, k, p) ∈
    [(0, ColorKind.grayscale, 1), (2, .truecolor, 3), (3, .indexed, 1), (4, .grayscaleAlpha, 2), (6, .truecolorAlpha, 4)]

/-- The colour type in `HDR_FMT` is in no row of the table of 43_scanline.md R170. -/
abbrev State.NoColorRow (s : State) : Prop := s.regs.hdrFmt.toNat / 256 % 256 ∉ [0, 2, 3, 4, 6]

/-- None of the argument tests of `STRIP_ROWS` fails on an image of `p` bytes per pixel (43_scanline.md R171). -/
abbrev StripFits (s : State) (p : Nat) : Prop :=
  s.regs.hdrHeight.toNat * (1 + s.regs.hdrWidth.toNat * p) ≤ s.regs.len.toNat ∧
    InMem s.cfg s.regs.src.toNat (s.regs.hdrHeight.toNat * (1 + s.regs.hdrWidth.toNat * p)) ∧
    InMem s.cfg s.regs.dst.toNat (s.regs.hdrHeight.toNat * (s.regs.hdrWidth.toNat * p)) ∧
    ¬ Overlap s.regs.src.toNat (s.regs.hdrHeight.toNat * (1 + s.regs.hdrWidth.toNat * p))
      s.regs.dst.toNat (s.regs.hdrHeight.toNat * (s.regs.hdrWidth.toNat * p))

/-- The filter-type tag of row `r` of the stream (43_scanline.md R172). -/
abbrev rowTag (s : State) (p r : Nat) : Byte :=
  s.mem.read (s.regs.src.toNat + r * (1 + s.regs.hdrWidth.toNat * p))

/-- The first `n` rows stand in the output of `STRIP_ROWS`, byte for byte (43_scanline.md R172). -/
abbrev RowsCopied (s t : State) (p n : Nat) : Prop :=
  ∀ r < n, ∀ j < s.regs.hdrWidth.toNat * p,
    t.mem.read (s.regs.dst.toNat + r * (s.regs.hdrWidth.toNat * p) + j) =
      s.mem.read (s.regs.src.toNat + r * (1 + s.regs.hdrWidth.toNat * p) + 1 + j)

/-- `N = W * H`, the number of pixels (44_expand.md R187). -/
abbrev State.pixelCount (s : State) : Nat := s.regs.hdrWidth.toNat * s.regs.hdrHeight.toNat

/-- `(PB, PL)`: with `SP` the input region, without it the palette registers (44_expand.md R186). -/
abbrev State.paletteRegion (s : State) (sp : Bool) (p : Nat) : Nat × Nat :=
  if sp then (s.regs.src.toNat, s.pixelCount * p) else (s.regs.palBase.toNat, s.regs.palLen.toNat)

/-- None of the argument tests of `EXPAND_RGBA` fails on an image of kind `k` and `p` bytes per pixel
(44_expand.md R187). -/
abbrev ExpandFits (s : State) (sp : Bool) (k : ColorKind) (p : Nat) : Prop :=
  InMem s.cfg s.regs.src.toNat (s.pixelCount * p) ∧
    InMem s.cfg s.regs.dst.toNat (4 * s.pixelCount) ∧
    ¬ Overlap s.regs.src.toNat (s.pixelCount * p) s.regs.dst.toNat (4 * s.pixelCount) ∧
    (k = .indexed →
      InMem s.cfg (s.paletteRegion sp p).1 (s.paletteRegion sp p).2 ∧
      ¬ Overlap (s.paletteRegion sp p).1 (s.paletteRegion sp p).2 s.regs.dst.toNat (4 * s.pixelCount))

/-- Byte `c` of input pixel `i` (44_expand.md R185). -/
abbrev pixelByte (s : State) (p i c : Nat) : Byte := s.mem.read (s.regs.src.toNat + i * p + c)

/-- Byte `c` of the palette entry with index `x` (44_expand.md R185, R186). -/
abbrev paletteByte (s : State) (sp : Bool) (p : Nat) (x : Byte) (c : Nat) : Byte :=
  s.mem.read ((s.paletteRegion sp p).1 + 3 * x.toNat + c)

/-- The index of pixel `i` is in the palette: always so but for an indexed image (44_expand.md R186). -/
abbrev IndexInRange (s : State) (sp : Bool) (k : ColorKind) (p i : Nat) : Prop :=
  k = .indexed → 3 * (pixelByte s p i 0).toNat + 3 ≤ (s.paletteRegion sp p).2

/-- The four bytes of the output pixel `i` in `t` (44_expand.md R185). -/
abbrev OutPixel (s t : State) (i : Nat) (r g b a : Byte) : Prop :=
  t.mem.read (s.regs.dst.toNat + 4 * i) = r ∧ t.mem.read (s.regs.dst.toNat + 4 * i + 1) = g ∧
    t.mem.read (s.regs.dst.toNat + 4 * i + 2) = b ∧ t.mem.read (s.regs.dst.toNat + 4 * i + 3) = a

/-- The first `n` pixels stand in the output as the table of 44_expand.md R185 maps them. -/
def PixelsMapped (s t : State) (sp : Bool) (k : ColorKind) (p n : Nat) : Prop :=
  ∀ i < n,
    match k with
    | .grayscale => OutPixel s t i (pixelByte s p i 0) (pixelByte s p i 0) (pixelByte s p i 0) 0xFF
    | .truecolor => OutPixel s t i (pixelByte s p i 0) (pixelByte s p i 1) (pixelByte s p i 2) 0xFF
    | .indexed =>
      OutPixel s t i (paletteByte s sp p (pixelByte s p i 0) 0) (paletteByte s sp p (pixelByte s p i 0) 1)
        (paletteByte s sp p (pixelByte s p i 0) 2) 0xFF
    | .grayscaleAlpha =>
      OutPixel s t i (pixelByte s p i 0) (pixelByte s p i 0) (pixelByte s p i 0) (pixelByte s p i 1)
    | .truecolorAlpha =>
      OutPixel s t i (pixelByte s p i 0) (pixelByte s p i 1) (pixelByte s p i 2) (pixelByte s p i 3)

/-- None of the argument tests of `RESAMPLE` fails (45_resample.md R206, R207). -/
abbrev ResampleFits (s : State) (pix : Nat) : Prop :=
  s.regs.stepSize.toNat ≠ 0 ∧ 1 ≤ pix ∧ pix ≤ 4 ∧
    InMem s.cfg s.regs.src.toNat (s.regs.hdrWidth.toNat * s.regs.hdrHeight.toNat * pix) ∧
    InMem s.cfg s.regs.dst.toNat
      (s.regs.hdrWidth.toNat / s.regs.stepSize.toNat * (s.regs.hdrHeight.toNat / s.regs.stepSize.toNat) * pix) ∧
    ¬ Overlap s.regs.src.toNat (s.regs.hdrWidth.toNat * s.regs.hdrHeight.toNat * pix) s.regs.dst.toNat
      (s.regs.hdrWidth.toNat / s.regs.stepSize.toNat * (s.regs.hdrHeight.toNat / s.regs.stepSize.toNat) * pix)

end Sys2Proof.Machine
end

