-- ==== Sys2Proof/Certificates/Slice0/Obligations.lean ====
section
/-! DEFINITION. The statements about the block, for the provers. Each docstring names the rule of spec/ it formalises;
what each one claims in words stands in OBLIGATIONS.json. -/

open Sys2Proof Sys2Proof.Machine

/-! ## Command words -/

/-- Every well-formed command decodes from its own word, options included (30_encoding.md R92, R94, R99). -/
def Obligations.DecodeEncodeGivesBackTheCommand : Prop :=
  ∀ i : Instr, i.wellFormed = true → decode (encode i) = .ok i

/-- Every legal word is the word of the command it decodes to (30_encoding.md R93, R94). -/
def Obligations.EncodeDecodeGivesBackTheWord : Prop :=
  ∀ (w : Word) (i : Instr), decode w = .ok i → encode i = w ∧ i.wellFormed = true

/-- The decoder and the table's match and mask agree: a word decodes to a command exactly when it selects that
command's row, no word selects two rows, and a word that decodes to nothing selects none (30_encoding.md R101). -/
def Obligations.LegalWordsSelectExactlyOneRow : Prop :=
  ∀ w : Word,
    (∀ i, decode w = .ok i → w &&& i.rowMask = i.rowMatch) ∧
    (∀ i : Instr, w &&& i.rowMask = i.rowMatch → ∃ j, decode w = .ok j ∧ j.rowMatch = i.rowMatch) ∧
    (∀ e, decode w = .error e → ∀ i : Instr, w &&& i.rowMask ≠ i.rowMatch)

/-- A word is illegal exactly when its `OP` is in one of the undefined ranges, or a reserved bit or an undefined option
bit is 1; an illegal command completes with `E_ILLEGAL_CMD` and changes nothing but `STATUS` and `ERR_INFO`
(30_encoding.md R96; `CMD` was written at the start, 40_control.md R110). -/
def Obligations.IllegalWordsAreThoseOfTheRule : Prop :=
  ∀ w : Word,
    ((∃ e, decode w = .error e) ↔
      (0x04 ≤ w.toNat % 256 ∧ w.toNat % 256 ≤ 0x0F) ∨ (0x13 ≤ w.toNat % 256 ∧ w.toNat % 256 ≤ 0x1F) ∨
      (0x21 ≤ w.toNat % 256 ∧ w.toNat % 256 ≤ 0x2F) ∨ (0x31 ≤ w.toNat % 256 ∧ w.toNat % 256 ≤ 0x3F) ∨
      0x41 ≤ w.toNat % 256 ∨
      w.toNat / 65536 ≠ 0 ∨
      (w.toNat % 256 = 0x30 ∧ 1 < w.toNat / 256 % 256) ∨
      (w.toNat % 256 = 0x40 ∧ 7 < w.toNat / 256 % 256) ∨
      (w.toNat % 256 ≠ 0x30 ∧ w.toNat % 256 ≠ 0x40 ∧ w.toNat / 256 % 256 ≠ 0)) ∧
    (∀ (s : State) (e : Illegal), s.regs.cmd = w → decode w = .error e →
      complete s = .next { s with regs := { s.regs with
        status := { s.regs.status with busy := false, done := true, err := true, errcode := .illegalCmd }
        errInfo := 0 } })

/-- Words written out from the table of 30_encoding.md R94 decode to the commands they stand for, and neighbours of
them to none. -/
def Obligations.TableWordsDecodeToTheirCommands : Prop :=
  decode 0x00000000 = .ok .nop ∧ decode 0x00000001 = .ok .crcInit ∧ decode 0x00000010 = .ok .chunkFrame ∧
    decode 0x00000012 = .ok .hdrLoad ∧ decode 0x00000020 = .ok .stripRows ∧
    decode 0x00000130 = .ok (.expandRgba true) ∧ decode 0x00000440 = .ok (.resample 4) ∧
    decode 0x00010000 = .error .reservedBits ∧ decode 0x00000050 = .error (.unknownOp 0x50) ∧
    decode 0x00000230 = .error (.undefinedOption 0x02)

/-! ## The engine's step -/

/-- When the engine moves and the word in `CMD` is a legal command in flight, the step is that command's meaning, at
the state with the turn taken (40_control.md R112; that the engine moves when no turn is left is the model's choice,
log 5). -/
def Obligations.EngineTurnRunsTheDecodedCommand : Prop :=
  ∀ (s : State) (ts : List Turn) (i : Instr),
    (s.turns = .engine :: ts ∨ (s.turns = [] ∧ ts = [])) → s.regs.status.busy = true → decode s.regs.cmd = .ok i →
      step s = exec i { s with turns := ts }

/-- A host write of a command's word at the idle block, then the engine's turn, runs the command: the two steps of a
command's life (40_control.md R110, R112; turns and the host's program are the model's, logs 5 and 6). -/
def Obligations.WrittenCommandRunsAtTheNextEngineTurn : Prop :=
  ∀ (s : State) (i : Instr) (rest : List HostStmt) (ts : List Turn),
    i.wellFormed = true → s.regs.status.busy = false → s.turns = .host :: .engine :: ts →
    s.host.program = .write (.port (.reg 0x00C)) 32 (encode i) :: rest →
      ∃ t, step s = .next t ∧ t.regs.cmd = encode i ∧ t.regs.status.busy = true ∧
        step t = exec i { startCommand (encode i) s with
          host := { s.host with program := rest }, turns := ts }

/-- Every command, from every state, completes: `BUSY` becomes 0 and `DONE` 1. From a state that a command's start
leaves, it either raises no error and leaves `ERR`, `ERRCODE` and `ERR_INFO` 0, or sets `ERR` with a code
(40_control.md R112, R113). -/
def Obligations.EveryCommandCompletes : Prop :=
  ∀ (i : Instr) (s : State), ∃ t, exec i s = .next t ∧ t.regs.status.busy = false ∧ t.regs.status.done = true ∧
    (s.regs.status.err = false → s.regs.status.errcode = .none → s.regs.errInfo = 0 →
      (t.regs.status.err = false ∧ t.regs.status.errcode = .none ∧ t.regs.errInfo = 0) ∨
      (t.regs.status.err = true ∧ t.regs.status.errcode ≠ .none))

/-- The frame of all ten commands: a command changes no register outside its write set but `STATUS` and `ERR_INFO`,
no flag of `STATUS` but those of the completion and, for `CRC_CHECK` and `CHUNK_FRAME`, `CRC_OK`, and no byte of
memory outside its destination region (40_control.md R115, 10_state.md R53). -/
def Obligations.CommandsChangeOnlyTheirWriteSet : Prop :=
  ∀ (i : Instr) (s t : State), exec i s = .next t →
    KeepsRegsBut (writeSet i) s t ∧
    t.regs.status.werr = s.regs.status.werr ∧
    (writesCrcOk i = false → t.regs.status.crcOk = s.regs.status.crcOk) ∧
    SameMemOutside s.regs.dst.toNat (destLen i s.regs) s t ∧
    KeepsSurroundings s t

/-- An error completion changes no register but `STATUS` and `ERR_INFO`, not even a result register or `CRC_OK`, and
no byte of memory unless it is one of the two errors found while rows or pixels are written
(60_exceptions.md R224). -/
def Obligations.ErrorCompletionsArePrecise : Prop :=
  ∀ (i : Instr) (s t : State), exec i s = .next t → s.regs.status.err = false → t.regs.status.err = true →
    KeepsRegsBut [] s t ∧ t.regs.status.crcOk = s.regs.status.crcOk ∧ t.regs.status.werr = s.regs.status.werr ∧
    (t.regs.status.errcode ≠ .unimplementedFilter → t.regs.status.errcode ≠ .paletteRange → t.mem = s.mem)

/-- `raise Error(code, info)` writes `ERR`, `ERRCODE`, `ERR_INFO`, `DONE` and `BUSY`, as the host reads them, and
nothing more (60_exceptions.md R221); the numbers of the codes are those of the table of R220. -/
def Obligations.RaisingAnErrorWritesFiveThings : Prop :=
  ∀ (code : ErrCode) (info : Nat) (s : State),
    let t := raiseError code info s
    (t.regs.get .status).extractLsb' 8 8 =
      (match code with
        | .none => 0x00
        | .illegalCmd => 0x01
        | .bounds => 0x02
        | .overlap => 0x03
        | .malformedChunk => 0x04
        | .invalidData => 0x05
        | .invalidColorType => 0x06
        | .unimplementedFilter => 0x07
        | .truncated => 0x08
        | .badArg => 0x09
        | .paletteRange => 0x0A) ∧
    (t.regs.get .status).getLsbD 0 = false ∧ (t.regs.get .status).getLsbD 1 = true ∧
    (t.regs.get .status).getLsbD 2 = true ∧
    (t.regs.get .status).getLsbD 3 = (s.regs.get .status).getLsbD 3 ∧
    (t.regs.get .status).getLsbD 4 = (s.regs.get .status).getLsbD 4 ∧
    t.regs.get .errInfo = BitVec.ofNat 32 info ∧
    KeepsRegsBut [] s t ∧ t.mem = s.mem ∧ KeepsSurroundings s t

/-- No command reads a byte outside buffer memory: two machines that differ only in what lies outside it end with the
same registers and the same memory (00_scope.md R15). -/
def Obligations.CommandsNeverReadOutsideMemory : Prop :=
  ∀ (i : Instr) (s t : State) (m : Memory), MemAgree s.cfg s.mem m → exec i s = .next t →
    ∃ t', exec i { s with mem := m } = .next t' ∧ t'.regs = t.regs ∧ MemAgree s.cfg t.mem t'.mem

/-! ## NOP and the CRC commands -/

/-- `NOP`, the word 0, completes and does nothing else (40_control.md R114). -/
def Obligations.NopOnlyCompletes : Prop :=
  encode .nop = 0x00000000 ∧ ∀ s : State, exec .nop s = .next { s with regs := { s.regs with
    status := { s.regs.status with busy := false, done := true } } }

/-- `CRC_INIT`, the word 1, sets `CRC_STATE`, so that `CRC_RESULT` reads 0, and changes nothing else (41_crc.md R122). -/
def Obligations.CrcInitSetsTheInitialState : Prop :=
  encode .crcInit = 0x00000001 ∧ ∀ s : State, ∃ t, exec .crcInit s = .next t ∧
    t = { s with regs := { s.regs with
      crcState := 0xFFFFFFFF, status := { s.regs.status with busy := false, done := true } } } ∧
    t.regs.get .crcResult = 0

/-- `CRC_UPDATE`, the word 2, folds the `LEN` bytes from `SRC`, in ascending order, into `CRC_STATE` when they lie in memory, and
ends with `E_BOUNDS`, `CRC_STATE` unchanged, when they do not (41_crc.md R123). -/
def Obligations.CrcUpdateFoldsTheSourceBytes : Prop :=
  encode .crcUpdate = 0x00000002 ∧ ∀ s : State,
    (s.regs.src.toNat + s.regs.len.toNat ≤ s.cfg.memBytes →
      exec .crcUpdate s = .next { s with regs := { s.regs with
        crcState := (List.range s.regs.len.toNat).foldl (fun c i => crcByte c (s.mem.read (s.regs.src.toNat + i)))
          s.regs.crcState
        status := { s.regs.status with busy := false, done := true } } }) ∧
    (s.cfg.memBytes < s.regs.src.toNat + s.regs.len.toNat →
      exec .crcUpdate s = .next (raiseError .bounds 0 s))

/-- `CRC_CHECK`, the word 3, writes the comparison of the complemented `CRC_STATE` with `CRC_EXPECT` to `CRC_OK`, and a mismatch is
no error (41_crc.md R124). -/
def Obligations.CrcCheckComparesTheComplement : Prop :=
  encode .crcCheck = 0x00000003 ∧ ∀ s : State, ∃ t, exec .crcCheck s = .next t ∧
    (t.regs.status.crcOk = true ↔ s.regs.get .crcResult = s.regs.get .crcExpect) ∧
    t = { s with regs := { s.regs with
      status := { s.regs.status with busy := false, done := true, crcOk := t.regs.status.crcOk } } }

/-- The byte step on the spec's single-step vectors, and the document's check value with its raw state
(41_crc.md R120, R121). -/
def Obligations.CrcCheckValueIsReproduced : Prop :=
  crcByte 0x00000000 0x01 = 0x77073096 ∧ crcByte 0x00000000 0x80 = 0xEDB88320 ∧
    crcRaw 0xFFFFFFFF [0x31, 0x32, 0x33, 0x34, 0x35, 0x36, 0x37, 0x38, 0x39] = 0x340BC6D9 ∧
    crc32 [0x31, 0x32, 0x33, 0x34, 0x35, 0x36, 0x37, 0x38, 0x39] = 0xCBF43926

/-- The split law: the CRC of a joined sequence is the CRC of its parts in turn, and so two `CRC_UPDATE` commands over
adjacent regions leave the `CRC_STATE` that one command over the joined region leaves; the empty sequence has CRC 0
(41_crc.md R125). -/
def Obligations.CrcOfAJoinedRegionIsTheCrcInTwoParts : Prop :=
  (∀ (c : Word) (a b : List Byte), crcRaw c (a ++ b) = crcRaw (crcRaw c a) b) ∧ crc32 [] = 0 ∧
  ∀ (s t u v : State) (n k : Nat),
    s.regs.src.toNat + (n + k) ≤ s.cfg.memBytes → n + k < 2 ^ 32 → s.regs.src.toNat + n < 2 ^ 32 →
    exec .crcUpdate { s with regs := { s.regs with len := BitVec.ofNat 32 n } } = .next t →
    exec .crcUpdate { t with regs := { t.regs with
      src := BitVec.ofNat 32 (s.regs.src.toNat + n), len := BitVec.ofNat 32 k } } = .next u →
    exec .crcUpdate { s with regs := { s.regs with len := BitVec.ofNat 32 (n + k) } } = .next v →
      u.regs.crcState = v.regs.crcState

/-! ## The chunk framer, the type decoder and the header loader -/

/-- `CHUNK_FRAME` on a chunk that fits: every result register, with addresses as numbers that do not wrap, and nothing
else changed (42_chunk.md R142, R143, 10_state.md R36 to R41). -/
def Obligations.ChunkFrameReportsTheChunk : Prop :=
  ∀ s : State, s.cfg.Legal → ChunkFits s →
    let a := s.regs.src.toNat
    let len := (s.mem.be32 a).toNat
    let crc := crcRaw 0xFFFFFFFF ((List.range (4 + len)).map fun i => s.mem.read (a + 4 + i))
    ∃ t, exec .chunkFrame s = .next t ∧
      t.regs.chLen = s.mem.be32 a ∧ t.regs.chType = s.mem.be32 (a + 4) ∧
      t.regs.chPayload.toNat = a + 8 ∧ t.regs.chCrc = s.mem.be32 (a + 8 + len) ∧
      t.regs.chNext.toNat = a + 12 + len ∧ t.regs.crcState = crc ∧
      (t.regs.status.crcOk = true ↔ ~~~ crc = s.mem.be32 (a + 8 + len)) ∧
      t.regs.chClass.getLsbD 0 = !(s.mem.read (a + 4)).getLsbD 5 ∧
      t.regs.chClass.getLsbD 1 = !(s.mem.read (a + 5)).getLsbD 5 ∧
      t.regs.chClass.getLsbD 2 = !(s.mem.read (a + 6)).getLsbD 5 ∧
      t.regs.chClass.getLsbD 3 = t.regs.status.crcOk ∧
      (t.regs.chClass.getLsbD 4 = true ↔ t.regs.chType = 0x49484452) ∧
      (t.regs.chClass.getLsbD 5 = true ↔ t.regs.chType = 0x49444154) ∧
      (t.regs.chClass.getLsbD 6 = true ↔ t.regs.chType = 0x49454E44) ∧
      (t.regs.chClass.getLsbD 7 = true ↔ t.regs.chType = 0x504C5445) ∧
      t.regs.chClass.toNat < 256 ∧
      t = { s with regs := { s.regs with
        chLen := t.regs.chLen, chType := t.regs.chType, chPayload := t.regs.chPayload, chCrc := t.regs.chCrc
        chNext := t.regs.chNext, chClass := t.regs.chClass, crcState := t.regs.crcState
        status := { s.regs.status with busy := false, done := true, crcOk := t.regs.status.crcOk } } }

/-- The errors of `CHUNK_FRAME`, in the order of its tests (42_chunk.md R143). -/
def Obligations.ChunkFrameRejectsChunksThatDoNotFit : Prop :=
  ∀ s : State,
    let a := s.regs.src.toNat
    let lim := s.regs.limit.toNat
    (s.cfg.memBytes < lim → exec .chunkFrame s = .next (raiseError .bounds 0 s)) ∧
    (lim ≤ s.cfg.memBytes → lim < a + 12 → exec .chunkFrame s = .next (raiseError .malformedChunk 0 s)) ∧
    (lim ≤ s.cfg.memBytes → a + 12 ≤ lim → lim < a + 12 + (s.mem.be32 a).toNat →
      exec .chunkFrame s = .next (raiseError .malformedChunk 1 s))

/-- Sensitivity: change one byte of the tag or the payload of a chunk that was CRC-valid, and `CHUNK_FRAME` reports the
changed chunk CRC-invalid, in `CRC_OK` and in `CH_CLASS` (41_crc.md R126). -/
def Obligations.OneChangedByteMakesAChunkInvalid : Prop :=
  ∀ (s t : State) (x : Nat) (b : Byte), ChunkFits s → exec .chunkFrame s = .next t → t.regs.status.crcOk = true →
    s.regs.src.toNat + 4 ≤ x → x < s.regs.src.toNat + 8 + (s.mem.be32 s.regs.src.toNat).toNat →
    b ≠ s.mem.read x →
      ∃ t', exec .chunkFrame { s with mem := s.mem.write x b } = .next t' ∧
        t'.regs.status.crcOk = false ∧ t'.regs.chClass.getLsbD 3 = false ∧ t'.regs.status.err = s.regs.status.err

/-- `TYPE_DECODE`, the word 0x11, classifies `CH_TYPE` bit by bit, keeps `CRC_VALID`, and changes nothing else (42_chunk.md R140, R141,
R145). -/
def Obligations.TypeDecodeClassifiesTheTag : Prop :=
  encode .typeDecode = 0x00000011 ∧ ∀ s : State, ∃ t, exec .typeDecode s = .next t ∧
    (∀ n < 32, t.regs.chClass.getLsbD n =
      if n = 0 then !s.regs.chType.getLsbD 29
      else if n = 1 then !s.regs.chType.getLsbD 21
      else if n = 2 then !s.regs.chType.getLsbD 13
      else if n = 3 then s.regs.chClass.getLsbD 3
      else if n = 4 then decide (s.regs.chType = 0x49484452)
      else if n = 5 then decide (s.regs.chType = 0x49444154)
      else if n = 6 then decide (s.regs.chType = 0x49454E44)
      else if n = 7 then decide (s.regs.chType = 0x504C5445)
      else false) ∧
    t = { s with regs := { s.regs with
      chClass := t.regs.chClass, status := { s.regs.status with busy := false, done := true } } }

/-- `HDR_LOAD` on a payload of at least 13 bytes in memory: the two big-endian sizes and the five single bytes in
document order, nothing validated, nothing else changed (42_chunk.md R146, R147). -/
def Obligations.HdrLoadReadsTheThirteenBytes : Prop :=
  ∀ s : State, 13 ≤ s.regs.len.toNat → s.regs.src.toNat + s.regs.len.toNat ≤ s.cfg.memBytes →
    let byte := fun i => s.mem.read (s.regs.src.toNat + i)
    ∃ t, exec .hdrLoad s = .next t ∧
      t.regs.hdrWidth.toNat =
        (byte 0).toNat * 2 ^ 24 + (byte 1).toNat * 2 ^ 16 + (byte 2).toNat * 2 ^ 8 + (byte 3).toNat ∧
      t.regs.hdrHeight.toNat =
        (byte 4).toNat * 2 ^ 24 + (byte 5).toNat * 2 ^ 16 + (byte 6).toNat * 2 ^ 8 + (byte 7).toNat ∧
      t.regs.hdrFmt.extractLsb' 0 8 = byte 8 ∧ t.regs.hdrFmt.extractLsb' 8 8 = byte 9 ∧
      t.regs.hdrFmt.extractLsb' 16 8 = byte 10 ∧ t.regs.hdrFmt.extractLsb' 24 8 = byte 11 ∧
      t.regs.hdrInterlace.toNat = (byte 12).toNat ∧
      t = { s with regs := { s.regs with
        hdrWidth := t.regs.hdrWidth, hdrHeight := t.regs.hdrHeight, hdrFmt := t.regs.hdrFmt
        hdrInterlace := t.regs.hdrInterlace
        status := { s.regs.status with busy := false, done := true } } }

/-- The errors of `HDR_LOAD`: `LEN < 13` is tested before bounds (42_chunk.md R146). -/
def Obligations.HdrLoadRejectsShortOrOutsidePayloads : Prop :=
  ∀ s : State,
    (s.regs.len.toNat < 13 → exec .hdrLoad s = .next (raiseError .invalidData 0 s)) ∧
    (13 ≤ s.regs.len.toNat → s.cfg.memBytes < s.regs.src.toNat + s.regs.len.toNat →
      exec .hdrLoad s = .next (raiseError .bounds 0 s))

/-! ## The stripper -/

/-- `STRIP_ROWS` with every tag 0, on an image of any colour type of the table, `p` bytes per pixel: each row, without
its tag, stands in the output, and nothing else changed (43_scanline.md R170, R171, R172). -/
def Obligations.StripRowsCopiesEveryRow : Prop :=
  ∀ (s : State) (k : ColorKind) (p : Nat), s.ColorRow k p → StripFits s p →
    (∀ r < s.regs.hdrHeight.toNat, rowTag s p r = 0) →
    ∃ t, exec .stripRows s = .next t ∧ RowsCopied s t p s.regs.hdrHeight.toNat ∧
      SameMemOutside s.regs.dst.toNat (s.regs.hdrHeight.toNat * (s.regs.hdrWidth.toNat * p)) s t ∧
      t = { s with
        mem := t.mem, regs := { s.regs with status := { s.regs.status with busy := false, done := true } } } ∧
      t.mem.draw = s.mem.draw

/-- `STRIP_ROWS` at the first non-zero tag, row `r`: rows before it are written as on success, every other byte is
unchanged, and `ERR_INFO` is the row number (43_scanline.md R170, R174). -/
def Obligations.StripRowsStopsAtTheFirstBadTag : Prop :=
  ∀ (s : State) (k : ColorKind) (p r : Nat), s.ColorRow k p → StripFits s p → r < s.regs.hdrHeight.toNat →
    (∀ q < r, rowTag s p q = 0) → rowTag s p r ≠ 0 →
    ∃ t, exec .stripRows s = .next t ∧ RowsCopied s t p r ∧
      SameMemOutside s.regs.dst.toNat (r * (s.regs.hdrWidth.toNat * p)) s t ∧
      t = { raiseError .unimplementedFilter r s with mem := t.mem } ∧ t.regs.errInfo.toNat = r ∧
      t.mem.draw = s.mem.draw

/-- The argument errors of `STRIP_ROWS`, in the order of its tests: a colour type that is not 0, 2, 3, 4 or 6, a stream
that is too short, for which `E_TRUNCATED` reports the complete rows it holds, bounds, overlap (43_scanline.md R170,
R171, R173). -/
def Obligations.StripRowsTestsItsArgumentsInOrder : Prop :=
  ∀ s : State,
    (s.NoColorRow →
      ∃ t, exec .stripRows s = .next t ∧ t = raiseError .invalidColorType (s.regs.hdrFmt.toNat / 256 % 256) s ∧
        t.regs.errInfo.toNat = s.regs.hdrFmt.toNat / 256 % 256) ∧
    (∀ k p, s.ColorRow k p →
      let sl := s.regs.hdrWidth.toNat * p
      let need := s.regs.hdrHeight.toNat * (1 + sl)
      let out := s.regs.hdrHeight.toNat * sl
      (s.regs.len.toNat < need →
        ∃ t, exec .stripRows s = .next t ∧ t = raiseError .truncated (s.regs.len.toNat / (1 + sl)) s ∧
          t.regs.errInfo.toNat = s.regs.len.toNat / (1 + sl)) ∧
      (need ≤ s.regs.len.toNat → (¬ InMem s.cfg s.regs.src.toNat need ∨ ¬ InMem s.cfg s.regs.dst.toNat out) →
        exec .stripRows s = .next (raiseError .bounds 0 s)) ∧
      (need ≤ s.regs.len.toNat → InMem s.cfg s.regs.src.toNat need → InMem s.cfg s.regs.dst.toNat out →
        Overlap s.regs.src.toNat need s.regs.dst.toNat out →
        exec .stripRows s = .next (raiseError .overlap 0 s)))

/-! ## The expander -/

/-- `EXPAND_RGBA` with every index in the palette, on an image of any colour type of the table, `p` bytes per pixel:
each output pixel is the map of its input pixel, and nothing else changed (43_scanline.md R170, 44_expand.md R185,
R187). -/
def Obligations.ExpandRgbaMapsEveryPixel : Prop :=
  ∀ (s : State) (sp : Bool) (k : ColorKind) (p : Nat), s.ColorRow k p → ExpandFits s sp k p →
    (∀ i < s.pixelCount, IndexInRange s sp k p i) →
    ∃ t, exec (.expandRgba sp) s = .next t ∧ PixelsMapped s t sp k p s.pixelCount ∧
      SameMemOutside s.regs.dst.toNat (4 * s.pixelCount) s t ∧
      t = { s with
        mem := t.mem, regs := { s.regs with status := { s.regs.status with busy := false, done := true } } } ∧
      t.mem.draw = s.mem.draw

/-- `EXPAND_RGBA` at the first index out of range, pixel `n`: pixels before it are written as on success, every other
byte is unchanged, and `ERR_INFO` is the pixel number (43_scanline.md R170, 44_expand.md R188). -/
def Obligations.ExpandRgbaStopsAtTheFirstBadIndex : Prop :=
  ∀ (s : State) (sp : Bool) (k : ColorKind) (p n : Nat), s.cfg.Legal → s.ColorRow k p → ExpandFits s sp k p →
    n < s.pixelCount → (∀ i < n, IndexInRange s sp k p i) → ¬ IndexInRange s sp k p n →
    ∃ t, exec (.expandRgba sp) s = .next t ∧ PixelsMapped s t sp k p n ∧
      SameMemOutside s.regs.dst.toNat (4 * n) s t ∧
      t = { raiseError .paletteRange n s with mem := t.mem } ∧ t.regs.errInfo.toNat = n ∧
      t.mem.draw = s.mem.draw

/-- The argument errors of `EXPAND_RGBA`, in the order of its tests: a colour type that is not 0, 2, 3, 4 or 6, bounds,
overlap (43_scanline.md R170, 44_expand.md R187). -/
def Obligations.ExpandRgbaTestsItsArgumentsInOrder : Prop :=
  ∀ (s : State) (sp : Bool),
    (s.NoColorRow →
      ∃ t, exec (.expandRgba sp) s = .next t ∧
        t = raiseError .invalidColorType (s.regs.hdrFmt.toNat / 256 % 256) s ∧
        t.regs.errInfo.toNat = s.regs.hdrFmt.toNat / 256 % 256) ∧
    (∀ k p, s.ColorRow k p →
      let inp := s.regs.hdrWidth.toNat * s.regs.hdrHeight.toNat * p
      let out := 4 * (s.regs.hdrWidth.toNat * s.regs.hdrHeight.toNat)
      let pal := if sp then (s.regs.src.toNat, inp) else (s.regs.palBase.toNat, s.regs.palLen.toNat)
      let inside := InMem s.cfg s.regs.src.toNat inp ∧ InMem s.cfg s.regs.dst.toNat out ∧
        (k = .indexed → InMem s.cfg pal.1 pal.2)
      (¬ inside → exec (.expandRgba sp) s = .next (raiseError .bounds 0 s)) ∧
      (inside → (Overlap s.regs.src.toNat inp s.regs.dst.toNat out ∨
          (k = .indexed ∧ Overlap pal.1 pal.2 s.regs.dst.toNat out)) →
        exec (.expandRgba sp) s = .next (raiseError .overlap 0 s)))

/-- For an image that is not indexed (colour type 3), neither `SP` nor the palette registers matter
(44_expand.md R186). -/
def Obligations.PaletteIsReadOnlyForIndexedImages : Prop :=
  ∀ (s t : State) (sp sp' : Bool) (pb pl : Word), s.regs.hdrFmt.toNat / 256 % 256 ≠ 3 →
    exec (.expandRgba sp) s = .next t →
      exec (.expandRgba sp') { s with regs := { s.regs with palBase := pb, palLen := pl } } =
        .next { t with regs := { t.regs with palBase := pb, palLen := pl } }

/-- The pixel commands depend on no header field but width, height and colour type: with any other bit depth,
compression, filter method and interlace they do the same (43_scanline.md R175). -/
def Obligations.PixelCommandsIgnoreTheOtherHeaderFields : Prop :=
  ∀ (i : Instr) (s t : State) (f x : Word),
    (i = .stripRows ∨ (∃ sp, i = .expandRgba sp) ∨ ∃ pix, i = .resample pix) →
    f.extractLsb' 8 8 = s.regs.hdrFmt.extractLsb' 8 8 → exec i s = .next t →
      exec i { s with regs := { s.regs with hdrFmt := f, hdrInterlace := x } } =
        .next { t with regs := { t.regs with hdrFmt := f, hdrInterlace := x } }

/-! ## The resampler -/

/-- `RESAMPLE`: output pixel `(ox, oy)` is input pixel `(ox * n, oy * n)`, byte for byte, exactly `OW * OH` pixels are
written, `OUT_W` and `OUT_H` are the shape, and nothing else changed (45_resample.md R205, R207). -/
def Obligations.ResampleCopiesEveryNthPixel : Prop :=
  ∀ (s : State) (pix : Nat), ResampleFits s pix →
    let n := s.regs.stepSize.toNat
    let w := s.regs.hdrWidth.toNat
    let ow := s.regs.hdrWidth.toNat / n
    let oh := s.regs.hdrHeight.toNat / n
    ∃ t, exec (.resample pix) s = .next t ∧
      (∀ oy < oh, ∀ ox < ow, ∀ c < pix,
        t.mem.read (s.regs.dst.toNat + (oy * ow + ox) * pix + c) =
          s.mem.read (s.regs.src.toNat + ((oy * n) * w + ox * n) * pix + c)) ∧
      SameMemOutside s.regs.dst.toNat (ow * oh * pix) s t ∧
      t.regs.outW.toNat = ow ∧ t.regs.outH.toNat = oh ∧
      t = { s with
        mem := t.mem
        regs := { s.regs with
          outW := t.regs.outW, outH := t.regs.outH
          status := { s.regs.status with busy := false, done := true } } } ∧
      t.mem.draw = s.mem.draw

/-- The identity property: with `STEP = 1` the output is the whole image, byte for byte, in the image's own shape
(45_resample.md R207; 95_test_vectors.md W5). -/
def Obligations.ResampleByOneCopiesTheImage : Prop :=
  ∀ (s : State) (pix : Nat), ResampleFits s pix → s.regs.stepSize = 1 →
    ∃ t, exec (.resample pix) s = .next t ∧
      (∀ i < s.regs.hdrWidth.toNat * s.regs.hdrHeight.toNat * pix,
        t.mem.read (s.regs.dst.toNat + i) = s.mem.read (s.regs.src.toNat + i)) ∧
      t.regs.outW = s.regs.hdrWidth ∧ t.regs.outH = s.regs.hdrHeight

/-- The errors of `RESAMPLE`, in the order of its tests: the step, the pixel size, bounds, overlap; nothing is written
and `OUT_W`, `OUT_H` keep their values (45_resample.md R206, R207). -/
def Obligations.ResampleTestsItsArgumentsInOrder : Prop :=
  ∀ (s : State) (pix : Nat),
    let inp := s.regs.hdrWidth.toNat * s.regs.hdrHeight.toNat * pix
    let out := s.regs.hdrWidth.toNat / s.regs.stepSize.toNat * (s.regs.hdrHeight.toNat / s.regs.stepSize.toNat) * pix
    let inside := InMem s.cfg s.regs.src.toNat inp ∧ InMem s.cfg s.regs.dst.toNat out
    (s.regs.stepSize = 0 → exec (.resample pix) s = .next (raiseError .badArg 0 s)) ∧
    (s.regs.stepSize ≠ 0 → ¬ (1 ≤ pix ∧ pix ≤ 4) → exec (.resample pix) s = .next (raiseError .badArg 1 s)) ∧
    (s.regs.stepSize ≠ 0 → 1 ≤ pix → pix ≤ 4 → ¬ inside →
      exec (.resample pix) s = .next (raiseError .bounds 0 s)) ∧
    (s.regs.stepSize ≠ 0 → 1 ≤ pix → pix ≤ 4 → inside → Overlap s.regs.src.toNat inp s.regs.dst.toNat out →
      exec (.resample pix) s = .next (raiseError .overlap 0 s))

/-! ## The host port -/

/-- A host write to `CMD` while no command is in flight starts the command: the whole word is stored, `BUSY` set,
`DONE`, `ERR`, `ERRCODE` and `ERR_INFO` cleared, `WERR` and `CRC_OK` and everything else unchanged; while one is in
flight the write is dropped (40_control.md R110, 10_state.md R50). -/
def Obligations.WritingCmdStartsTheCommand : Prop :=
  ∀ (s : State) (v : Word),
    (s.regs.status.busy = false →
      hostWrite (.port (.reg 0x00C)) 32 v s = .next { s with regs := { s.regs with
        cmd := v
        status := { s.regs.status with busy := true, done := false, err := false, errcode := .none }
        errInfo := 0 } }) ∧
    (s.regs.status.busy = true →
      hostWrite (.port (.reg 0x00C)) 32 v s =
        .next { s with regs := { s.regs with status := { s.regs.status with werr := true } } })

/-- While a command is in flight a host write to any register but `CTRL` and `STATUS`, mapped or not, and every host
write to buffer memory, changes nothing but `WERR`, which becomes 1; writes to `CTRL` and `STATUS` act as ever
(10_state.md R50, 20_memory.md R68). -/
def Obligations.WritesWhileBusyOnlySetWerr : Prop :=
  ∀ (s : State) (v : Word), s.regs.status.busy = true →
    (∀ off, off < 0x1000 → off % 4 = 0 → off ≠ 0x004 → off ≠ 0x008 →
      hostWrite (.port (.reg off)) 32 v s =
        .next { s with regs := { s.regs with status := { s.regs.status with werr := true } } }) ∧
    (∀ a width, BufForm s.cfg a width →
      hostWrite (.port (.buf a)) width v s =
        .next { s with regs := { s.regs with status := { s.regs.status with werr := true } } }) ∧
    hostWrite (.port (.reg 0x008)) 32 v s =
      .next { s with regs := { s.regs with status := { s.regs.status with
        done := s.regs.status.done && !v.getLsbD 1, werr := s.regs.status.werr && !v.getLsbD 3 } } } ∧
    (v.getLsbD 1 = false →
      hostWrite (.port (.reg 0x004)) 32 v s =
        .next { s with regs := { s.regs with ctrl := { irqEn := v.getLsbD 0 } } }) ∧
    (v.getLsbD 1 = true →
      ∃ t, hostWrite (.port (.reg 0x004)) 32 v s = .next t ∧ t.regs = Regs.reset)

/-- A host read of a register outside the write set of the command in flight returns its exact value, busy or idle; a
read inside it returns one free draw, whose number it uses up. Of `STATUS` every bit but `CRC_OK` is exact, and `CRC_OK`
too, unless `CRC_CHECK` or `CHUNK_FRAME` is in flight: then it is a free draw. The read changes nothing the block holds
(10_state.md R51, 20_memory.md R66). The model's readings: that the draw is the whole word, by number (logs 4 and 9),
that `CRC_RESULT` shares the lot of `CRC_STATE` (log 8), and that every read is exact while an illegal word is in
flight (log 17). -/
def Obligations.RegisterReadsAreExactOutsideTheWriteSet : Prop :=
  ∀ s : State,
    (∀ r : Reg, r ≠ .status →
      (∀ i, s.inFlight = some i → r ∉ writeSet i ∧ (r = .crcResult → Reg.crcState ∉ writeSet i)) →
      ∃ t, hostRead (.port (.reg r.offset)) 32 s = .next t ∧ t.host.lastRead = s.regs.get r ∧
        t.regs = s.regs ∧ t.mem = s.mem ∧ t.cfg = s.cfg) ∧
    (∀ (r : Reg) (i : Instr), s.inFlight = some i → r ∈ writeSet i ∨ (r = .crcResult ∧ Reg.crcState ∈ writeSet i) →
      ∃ t, hostRead (.port (.reg r.offset)) 32 s = .next t ∧ t.host.lastRead = Config.freeWord s.draws ∧
        t.draws = s.draws + 1 ∧ t.regs = s.regs ∧ t.mem = s.mem ∧ t.cfg = s.cfg) ∧
    (∃ t, hostRead (.port (.reg 0x008)) 32 s = .next t ∧ t.regs = s.regs ∧ t.mem = s.mem ∧ t.cfg = s.cfg ∧
      (∀ n, (n = 4 → ∀ i, s.inFlight = some i → writesCrcOk i = false) →
        t.host.lastRead.getLsbD n = (s.regs.get .status).getLsbD n) ∧
      (∀ i, s.inFlight = some i → writesCrcOk i = true →
        t.host.lastRead.getLsbD 4 = (Config.freeWord s.draws).getLsbD 4 ∧ t.draws = s.draws + 1))

/-- A host read of memory, 8 or 32 bits, busy or idle: every byte outside the destination region of the command in
flight is exact, and every byte inside it is a free draw, whose number the read uses up. The read changes nothing the
block holds (20_memory.md R62, R66, R67). The model's readings: the form of the draw (log 4), that an 8-bit read is
zero-extended (log 15), and that every read is exact while an illegal word is in flight (log 17). -/
def Obligations.ByteReadsAreExactOutsideTheDestination : Prop :=
  ∀ (s : State) (a : Nat),
    (a < s.cfg.memBytes →
      ∃ t, hostRead (.port (.buf a)) 8 s = .next t ∧ t.regs = s.regs ∧ t.mem = s.mem ∧ t.cfg = s.cfg ∧
        (¬ s.InFlightRegion a → t.host.lastRead = (s.mem.read a).setWidth 32) ∧
        (s.InFlightRegion a →
          t.host.lastRead = (Config.freeByte s.draws a).setWidth 32 ∧ t.draws = s.draws + 1)) ∧
    (a % 4 = 0 → a + 4 ≤ s.cfg.memBytes →
      ∃ t, hostRead (.port (.buf a)) 32 s = .next t ∧ t.regs = s.regs ∧ t.mem = s.mem ∧ t.cfg = s.cfg ∧
        ∀ i < 4,
          (¬ s.InFlightRegion (a + i) → t.host.lastRead.extractLsb' (8 * i) 8 = s.mem.read (a + i)) ∧
          (s.InFlightRegion (a + i) →
            t.host.lastRead.extractLsb' (8 * i) 8 = Config.freeByte s.draws (a + i) ∧ t.draws = s.draws + 1))

/-- A host write to a register of the idle block that starts and clears nothing: a writable register reads back what
was written (of `HDR_INTERLACE` the low byte), a read-only one keeps its value, and every other register and all of
memory are unchanged (10_state.md R20, R26 to R47). -/
def Obligations.RegisterWritesReadBack : Prop :=
  ∀ (s : State) (r : Reg) (v : Word), s.regs.status.busy = false → r ≠ .ctrl → r ≠ .status → r ≠ .cmd →
    ∃ t, hostWrite (.port (.reg r.offset)) 32 v s = .next t ∧
      (r ∈ plainRW → t.regs.get r = if r = .hdrInterlace then v &&& 0xFF else v) ∧
      (r ∈ readOnly → t = s) ∧ (r ∈ plainRW ∨ r ∈ readOnly) ∧
      (∀ q : Reg, q ≠ r → (q = .crcResult → r ≠ .crcState) → t.regs.get q = s.regs.get q) ∧
      t.mem = s.mem ∧ KeepsSurroundings s t

/-- An offset of the span that the table does not hold reads 0; a write to it changes nothing, except that while a
command is in flight it sets `WERR` (10_state.md R48). -/
def Obligations.UnmappedOffsetsReadZeroAndIgnoreWrites : Prop :=
  ∀ (s : State) (off : Nat), off < 0x1000 → off % 4 = 0 → (∀ r : Reg, r.offset ≠ off) →
    (∃ t, hostRead (.port (.reg off)) 32 s = .next t ∧ t.host.lastRead = 0 ∧ t.regs = s.regs ∧ t.mem = s.mem) ∧
    (∀ v, hostWrite (.port (.reg off)) 32 v s =
      .next (if s.regs.status.busy then
        { s with regs := { s.regs with status := { s.regs.status with werr := true } } } else s))

/-- A host write to `STATUS`, busy or idle: it clears `DONE` and `WERR` where it carries a 1, leaves every other bit,
and every other register and memory, as it was; reserved bits read 0 (10_state.md R20, R23). -/
def Obligations.StatusWritesClearOnlyDoneAndWerr : Prop :=
  ∀ (s : State) (v : Word), ∃ t, hostWrite (.port (.reg 0x008)) 32 v s = .next t ∧
    (∀ n, (t.regs.get .status).getLsbD n =
      if n = 1 ∨ n = 3 then (s.regs.get .status).getLsbD n && !v.getLsbD n
      else (s.regs.get .status).getLsbD n) ∧
    (∀ n, 5 ≤ n → n ≤ 7 ∨ 16 ≤ n → (t.regs.get .status).getLsbD n = false) ∧
    (∀ r : Reg, r ≠ .status → t.regs.get r = s.regs.get r) ∧ t.mem = s.mem ∧ KeepsSurroundings s t

/-- A host write to `CTRL` without `SRST`: `IRQ_EN` takes bit 0 and nothing else changes. With `SRST`: every register
takes its reset value, `CTRL` included, and memory is kept but for the destination region of the command it abandons
(10_state.md R22, 70_reset_and_hazards.md R250, R253; that the region ends at `MEM_BYTES` and that the host and the
turns are kept is the model's reading, logs 10 and 18). -/
def Obligations.CtrlWritesSetTheEnableOrReset : Prop :=
  ∀ (s : State) (v : Word),
    (v.getLsbD 1 = false →
      hostWrite (.port (.reg 0x004)) 32 v s =
        .next { s with regs := { s.regs with ctrl := { irqEn := v.getLsbD 0 } } }) ∧
    (v.getLsbD 1 = true →
      ∃ t, hostWrite (.port (.reg 0x004)) 32 v s = .next t ∧ t.regs = Regs.reset ∧
        (∀ x, (∀ i, s.inFlight = some i →
            ¬ (s.regs.dst.toNat ≤ x ∧ x < s.regs.dst.toNat + destLen i s.regs)) →
          t.mem.read x = s.mem.read x) ∧
        (∀ x i, x < s.cfg.memBytes → s.inFlight = some i → s.regs.dst.toNat ≤ x →
          x < s.regs.dst.toNat + destLen i s.regs → t.mem.read x = Config.freeByte s.draws x) ∧
        t.cfg = s.cfg ∧ t.host = s.host ∧ t.turns = s.turns)

/-- A 32-bit host access to the memory of the idle block: a read returns the four bytes, the lowest address in the
lowest bits; a write stores the word's bytes the same way and leaves every other byte and every register
(20_memory.md R62). -/
def Obligations.HostWordsAreLittleEndian : Prop :=
  ∀ (s : State) (a : Nat) (v : Word), s.regs.status.busy = false → a % 4 = 0 → a + 4 ≤ s.cfg.memBytes →
    (∃ u, hostRead (.port (.buf a)) 32 s = .next u ∧
      u.host.lastRead.extractLsb' 0 8 = s.mem.read a ∧ u.host.lastRead.extractLsb' 8 8 = s.mem.read (a + 1) ∧
      u.host.lastRead.extractLsb' 16 8 = s.mem.read (a + 2) ∧
      u.host.lastRead.extractLsb' 24 8 = s.mem.read (a + 3)) ∧
    ∃ t, hostWrite (.port (.buf a)) 32 v s = .next t ∧
      t.mem.read a = v.extractLsb' 0 8 ∧ t.mem.read (a + 1) = v.extractLsb' 8 8 ∧
      t.mem.read (a + 2) = v.extractLsb' 16 8 ∧ t.mem.read (a + 3) = v.extractLsb' 24 8 ∧
      SameMemOutside a 4 s t ∧ t.regs = s.regs ∧ KeepsSurroundings s t

/-- An 8-bit host write to the idle block stores the byte, leaves every other byte and every register, and an 8-bit
read then returns it (20_memory.md R60, R61; that the byte travels in bits 7:0 is the model's reading, log 15). -/
def Obligations.HostBytesReadBack : Prop :=
  ∀ (s : State) (a : Nat) (v : Word), s.regs.status.busy = false → a < s.cfg.memBytes →
    ∃ t, hostWrite (.port (.buf a)) 8 v s = .next t ∧ t.mem.read a = v.extractLsb' 0 8 ∧
      SameMemOutside a 1 s t ∧ t.regs = s.regs ∧ KeepsSurroundings s t ∧
      ∃ u, hostRead (.port (.buf a)) 8 t = .next u ∧ u.host.lastRead = v &&& 0xFF

/-- A host access is refused exactly when it has not the form the spec gives a meaning: registers take 32 bits at a
multiple of 4 in the span, memory 8 bits anywhere or 32 bits at a multiple of 4 wholly inside (10_state.md R49,
20_memory.md R61, R64; 93_implementation_defined.md U14). That this is so while a command is in flight too, so that a
malformed write is refused then and not dropped with `WERR`, is the model's reading (log 11). -/
def Obligations.OnlyMalformedHostAccessesAreRefused : Prop :=
  ∀ (s : State) (width : Nat) (v : Word),
    (∀ off,
      ((∃ why, hostRead (.port (.reg off)) width s = .refused why) ↔
        ¬ (width = 32 ∧ off % 4 = 0 ∧ off < 0x1000)) ∧
      ((∃ why, hostWrite (.port (.reg off)) width v s = .refused why) ↔
        ¬ (width = 32 ∧ off % 4 = 0 ∧ off < 0x1000))) ∧
    (∀ a,
      ((∃ why, hostRead (.port (.buf a)) width s = .refused why) ↔
        ¬ ((width = 8 ∧ a + 1 ≤ s.cfg.memBytes) ∨ (width = 32 ∧ a % 4 = 0 ∧ a + 4 ≤ s.cfg.memBytes))) ∧
      ((∃ why, hostWrite (.port (.buf a)) width v s = .refused why) ↔
        ¬ ((width = 8 ∧ a + 1 ≤ s.cfg.memBytes) ∨ (width = 32 ∧ a % 4 = 0 ∧ a + 4 ≤ s.cfg.memBytes))))

/-- A host-bus access goes to the register block or the buffer aperture, wherever its address falls; an address in
neither window, or in both, is refused (00_scope.md R8, 20_memory.md R61; that an address in both is refused is the
model's choice, log 2). -/
def Obligations.BusAddressesReachTheBlock : Prop :=
  ∀ (s : State) (x width : Nat) (v : Word),
    let inRegs := s.cfg.regBase ≤ x ∧ x < s.cfg.regBase + 0x1000
    let inBuf := s.cfg.memBase ≤ x ∧ x < s.cfg.memBase + s.cfg.memBytes
    (inRegs → ¬ inBuf →
      hostWrite (.bus x) width v s = hostWrite (.port (.reg (x - s.cfg.regBase))) width v s ∧
      hostRead (.bus x) width s = hostRead (.port (.reg (x - s.cfg.regBase))) width s) ∧
    (inBuf → ¬ inRegs →
      hostWrite (.bus x) width v s = hostWrite (.port (.buf (x - s.cfg.memBase))) width v s ∧
      hostRead (.bus x) width s = hostRead (.port (.buf (x - s.cfg.memBase))) width s) ∧
    ((inRegs ↔ inBuf) →
      hostWrite (.bus x) width v s = .refused .busUnrouted ∧ hostRead (.bus x) width s = .refused .busUnrouted)

/-- `ID` reads `0x504E4701` at all times: in every state, with any command in flight (10_state.md R21). -/
def Obligations.IdAlwaysReadsTheIdentity : Prop :=
  ∀ s : State, ∃ t, hostRead (.port (.reg 0x000)) 32 s = .next t ∧ t.host.lastRead = 0x504E4701

/-! ## The interrupt -/

/-- `IRQ` is `DONE` and `IRQ_EN`. Every completion by the engine, success or error, sets `DONE` and so asserts `IRQ` while
enabled. `DONE`, `STATUS` bit 1 as the host reads it, becomes 0 by the acknowledge, by a command's start and by either
reset, whatever the enable, and a written 0 has no effect; `IRQ` deasserts with it, or when the enable is cleared, and a
set enable asserts it at once where `DONE` is 1 (60_exceptions.md R230, R231). -/
def Obligations.IrqFollowsDoneAndTheEnable : Prop :=
  ∀ s : State,
    (s.irq = true ↔ (s.regs.get .status).getLsbD 1 = true ∧ (s.regs.get .ctrl).getLsbD 0 = true) ∧
    (∀ t, complete s = .next t → (t.regs.get .status).getLsbD 1 = true ∧ t.irq = s.regs.ctrl.irqEn) ∧
    (∀ t v, hostWrite (.port (.reg 0x008)) 32 v s = .next t →
      (t.regs.get .status).getLsbD 1 = ((s.regs.get .status).getLsbD 1 && !v.getLsbD 1) ∧
      t.irq = (s.irq && !v.getLsbD 1)) ∧
    (∀ t v, v.getLsbD 1 = false → hostWrite (.port (.reg 0x004)) 32 v s = .next t →
      (t.regs.get .status).getLsbD 1 = (s.regs.get .status).getLsbD 1 ∧
      t.irq = ((s.regs.get .status).getLsbD 1 && v.getLsbD 0)) ∧
    (∀ t v, s.regs.status.busy = false → hostWrite (.port (.reg 0x00C)) 32 v s = .next t →
      (t.regs.get .status).getLsbD 1 = false ∧ t.irq = false) ∧
    (∀ t v, v.getLsbD 1 = true → hostWrite (.port (.reg 0x004)) 32 v s = .next t →
      (t.regs.get .status).getLsbD 1 = false ∧ t.irq = false) ∧
    (∀ t ts, s.turns = .powerOn :: ts → step s = .next t →
      (t.regs.get .status).getLsbD 1 = false ∧ t.irq = false)

/-! ## Reset -/

/-- After reset the host reads `0x504E4701` at `ID`, `0xFFFFFFFF` at `CRC_STATE` and 0 at every other offset of the
span, unmapped ones included; a power-on reset and a soft reset, of any state, leave exactly these registers, and the
interrupt is not asserted (70_reset_and_hazards.md R251). -/
def Obligations.RegistersTakeTheirResetValues : Prop :=
  (∀ s : State, s.regs = State.reset.regs → s.irq = false ∧ ∀ off, off < 0x1000 → off % 4 = 0 →
    ∃ u, hostRead (.port (.reg off)) 32 s = .next u ∧
      u.host.lastRead = if off = 0x000 then 0x504E4701 else if off = 0x030 then 0xFFFFFFFF else 0) ∧
  (∀ (s : State) (ts : List Turn), s.turns = .powerOn :: ts →
    ∃ t, step s = .next t ∧ t.regs = State.reset.regs) ∧
  (∀ (s : State) (v : Word), v.getLsbD 1 = true →
    ∃ t, hostWrite (.port (.reg 0x004)) 32 v s = .next t ∧ t.regs = State.reset.regs)

/-- After a power-on reset every byte of memory reads as one free draw, a new one at each reset, whatever memory held
before (70_reset_and_hazards.md R252, 20_memory.md R78; the form of the draw, and that the host, the parameters and the
turns go on, are the model's, logs 3, 4 and 18). -/
def Obligations.PowerOnResetRedrawsMemory : Prop :=
  ∀ (s : State) (ts : List Turn), s.turns = .powerOn :: ts →
    ∃ t, step s = .next t ∧ (∀ x, t.mem.read x = Config.freeByte s.draws x) ∧ t.draws = s.draws + 1 ∧
      t.cfg = s.cfg ∧ t.host = s.host ∧ t.turns = ts

/-! ## Whole-machine rules -/

/-- The reset state meets the invariant; its `MEM_BYTES` of 256 is the model's choice (log 1). -/
def Obligations.ResetStateMeetsTheInvariant : Prop := State.reset.Inv

/-- Every step keeps the invariant: memory canonical and inside `MEM_BYTES`, `STATUS` and `ERR_INFO` consistent,
reserved bits 0, `CH_NEXT` at most `MEM_BYTES` (00_scope.md R7, R15, 10_state.md R25, R40, R41, R45, R51,
60_exceptions.md R220). -/
def Obligations.EveryStepKeepsTheInvariant : Prop :=
  ∀ s t : State, s.Inv → step s = .next t → t.Inv

/-- A command starts only by a 32-bit host write to `CMD` (00_scope.md R6, 40_control.md R110). -/
def Obligations.OnlyAHostWriteToCmdStartsACommand : Prop :=
  ∀ s t : State, step s = .next t → s.regs.status.busy = false → t.regs.status.busy = true →
    ∃ tgt v rest, s.host.program = .write tgt 32 v :: rest ∧ tgt.resolve s.cfg = some (.reg 0x00C) ∧
      t.regs.cmd = v ∧ t.host.program = rest

/-- A command in flight ends only by the engine's completion step, by a power-on reset, or by a host write of a 1 to
`CTRL` bit 1; until then `CMD` keeps its word (40_control.md R116, 70_reset_and_hazards.md R250, R253; that the engine
moves when no turn is left is the model's choice, log 5). -/
def Obligations.OnlyCompletionOrResetEndsACommand : Prop :=
  ∀ s t : State, step s = .next t → s.regs.status.busy = true →
    (t.regs.status.busy = true → t.regs.cmd = s.regs.cmd) ∧
    (t.regs.status.busy = false →
      (∃ ts, (s.turns = .engine :: ts ∨ (s.turns = [] ∧ ts = [])) ∧ complete { s with turns := ts } = .next t ∧
        t.regs.status.done = true ∧ t.regs.cmd = s.regs.cmd) ∨
      (∃ ts, s.turns = .powerOn :: ts ∧ t.regs = Regs.reset) ∨
      (∃ ts tgt v rest, s.turns = .host :: ts ∧ s.host.program = .write tgt 32 v :: rest ∧
        tgt.resolve s.cfg = some (.reg 0x004) ∧ v.getLsbD 1 = true ∧ t.regs = Regs.reset))

/-- The operand registers change only by host writes or a reset: no step of the engine changes one
(10_state.md R53). -/
def Obligations.TheEngineNeverChangesOperandRegisters : Prop :=
  ∀ (s t : State) (r : Reg), r ∈ [Reg.src, .dst, .len, .limit, .palBase, .palLen, .stepSize] →
    engineStep s = .next t → t.regs.get r = s.regs.get r

/-- A started command completes: a host that only waits, whatever the order of turns short of a power-on reset, sees
the command done after at most one step more than the turns given, and a `WAIT` loop ends with `BUSY` read as 0
(70_reset_and_hazards.md R263; that the engine moves when the turns run out is the model's scheduler, log 5). -/
def Obligations.WaitingHostSeesTheCommandComplete : Prop :=
  ∀ s : State, s.regs.status.busy = true → .powerOn ∉ s.turns →
    (s.host.program = [] → ∃ n ≤ s.turns.length + 1, ∃ t, core.run n s = .next t ∧
      t.regs.status.busy = false ∧ t.regs.status.done = true) ∧
    (s.host.program = [.wait] → ∃ n ≤ s.turns.length + 2, ∃ t, core.run n s = .next t ∧
      t.regs.status.busy = false ∧ t.regs.status.done = true ∧ t.host.program = [] ∧
      t.host.lastRead.getLsbD 0 = false)

/-! ## The tables of the spec, by number -/

/-- The register map: the host reads each field at its own offset, and a host write to the idle block changes the field
at its offset and nothing else, or nothing at all where the register is read-only (10_state.md section 1, R20 to R47).
The offsets that start or clear something have statements of their own. -/
def Obligations.RegisterMapIsTheTable : Prop :=
  ∀ (s : State) (v : Word), s.regs.status.busy = false →
    (∀ row ∈ ([(0x000, 0x504E4701), (0x00C, s.regs.cmd), (0x010, s.regs.errInfo), (0x014, s.regs.src),
        (0x018, s.regs.dst), (0x01C, s.regs.len), (0x020, s.regs.limit), (0x024, s.regs.palBase),
        (0x028, s.regs.palLen), (0x02C, s.regs.stepSize), (0x030, s.regs.crcState), (0x034, ~~~ s.regs.crcState),
        (0x038, s.regs.crcExpect), (0x040, s.regs.chLen), (0x044, s.regs.chType), (0x048, s.regs.chPayload),
        (0x04C, s.regs.chCrc), (0x050, s.regs.chNext), (0x054, s.regs.chClass), (0x060, s.regs.hdrWidth),
        (0x064, s.regs.hdrHeight), (0x068, s.regs.hdrFmt), (0x06C, s.regs.hdrInterlace), (0x070, s.regs.outW),
        (0x074, s.regs.outH)] : List (Nat × Word)),
      ∃ u, hostRead (.port (.reg row.1)) 32 s = .next u ∧ u.host.lastRead = row.2 ∧ u.regs = s.regs ∧
        u.mem = s.mem) ∧
    (∃ u, hostRead (.port (.reg 0x004)) 32 s = .next u ∧
      ∀ n, u.host.lastRead.getLsbD n = (decide (n = 0) && s.regs.ctrl.irqEn)) ∧
    (∃ u, hostRead (.port (.reg 0x008)) 32 s = .next u ∧
      u.host.lastRead.getLsbD 0 = s.regs.status.busy ∧ u.host.lastRead.getLsbD 1 = s.regs.status.done ∧
      u.host.lastRead.getLsbD 2 = s.regs.status.err ∧ u.host.lastRead.getLsbD 3 = s.regs.status.werr ∧
      u.host.lastRead.getLsbD 4 = s.regs.status.crcOk ∧
      u.host.lastRead.extractLsb' 8 8 = s.regs.status.errcode.code) ∧
    (∀ row ∈ ([(0x014, { s.regs with src := v }), (0x018, { s.regs with dst := v }), (0x01C, { s.regs with len := v }),
        (0x020, { s.regs with limit := v }), (0x024, { s.regs with palBase := v }),
        (0x028, { s.regs with palLen := v }), (0x02C, { s.regs with stepSize := v }),
        (0x030, { s.regs with crcState := v }), (0x038, { s.regs with crcExpect := v }),
        (0x044, { s.regs with chType := v }), (0x060, { s.regs with hdrWidth := v }),
        (0x064, { s.regs with hdrHeight := v }), (0x068, { s.regs with hdrFmt := v }),
        (0x06C, { s.regs with hdrInterlace := v &&& 0xFF })] : List (Nat × Regs)),
      hostWrite (.port (.reg row.1)) 32 v s = .next { s with regs := row.2 }) ∧
    (∀ off ∈ [0x000, 0x010, 0x034, 0x040, 0x048, 0x04C, 0x050, 0x054, 0x070, 0x074],
      hostWrite (.port (.reg off)) 32 v s = .next s)

/-- The write sets that the frames and the reads while busy speak of: the registers, `CRC_OK` and the length of the
destination region of each command, by number; and which command is in flight (40_control.md R115). That an illegal
word in flight has no register in its write set is the model's reading (log 17). -/
def Obligations.WriteSetsAreThoseOfTheTable : Prop :=
  (∀ i ∈ [Instr.nop, .crcCheck, .stripRows, .expandRgba false, .expandRgba true], writeSet i = []) ∧
  writeSet .crcInit = [.crcState] ∧ writeSet .crcUpdate = [.crcState] ∧
  writeSet .chunkFrame = [.chLen, .chType, .chPayload, .chCrc, .chNext, .chClass, .crcState] ∧
  writeSet .typeDecode = [.chClass] ∧ writeSet .hdrLoad = [.hdrWidth, .hdrHeight, .hdrFmt, .hdrInterlace] ∧
  (∀ pix, writeSet (.resample pix) = [.outW, .outH]) ∧
  (∀ i, writesCrcOk i = true ↔ i = .crcCheck ∨ i = .chunkFrame) ∧
  ∀ s : State,
    (∀ i ∈ [Instr.nop, .crcInit, .crcUpdate, .crcCheck, .chunkFrame, .typeDecode, .hdrLoad], destLen i s.regs = 0) ∧
    (s.NoColorRow → destLen .stripRows s.regs = 0 ∧ ∀ sp, destLen (.expandRgba sp) s.regs = 0) ∧
    (∀ k p, s.ColorRow k p →
      destLen .stripRows s.regs = s.regs.hdrHeight.toNat * s.regs.hdrWidth.toNat * p ∧
      ∀ sp, destLen (.expandRgba sp) s.regs = 4 * s.regs.hdrWidth.toNat * s.regs.hdrHeight.toNat) ∧
    (∀ pix, destLen (.resample pix) s.regs =
      if s.regs.stepSize.toNat = 0 ∨ pix = 0 ∨ 4 < pix then 0
      else s.regs.hdrWidth.toNat / s.regs.stepSize.toNat * (s.regs.hdrHeight.toNat / s.regs.stepSize.toNat) * pix) ∧
    (s.regs.status.busy = false → s.inFlight = none) ∧
    (∀ i, s.regs.status.busy = true → decode s.regs.cmd = .ok i → s.inFlight = some i) ∧
    (∀ e, s.regs.status.busy = true → decode s.regs.cmd = .error e → s.inFlight = none)
end

