-- ==== Sys2Proof/Laws/Loops.lean ====
section
/-! SUPPORT. The two loops: what one does in terms of its body, once. -/

namespace Sys2Proof.Machine

variable {α : Type}

@[simp] theorem forUp_zero (f : Nat → α → α) (a : α) : forUp f a 0 = a := rfl

@[simp] theorem forUp_succ (f : Nat → α → α) (a : α) (n : Nat) : forUp f a (n + 1) = f n (forUp f a n) := rfl

/-- A property that the start has and every pass carries on holds after the loop. -/
theorem forUp_induction {f : Nat → α → α} {a : α} (P : Nat → α → Prop) (h0 : P 0 a) (n : Nat)
    (hs : ∀ i < n, ∀ x, P i x → P (i + 1) (f i x)) : P n (forUp f a n) := by
  induction n with
  | zero => exact h0
  | succ n ih => exact hs n (Nat.lt_succ_self n) _ (ih fun i hi => hs i (Nat.lt_succ_of_lt hi))

/-- The loop that may stop: either no pass was bad and it is the plain loop, or it stopped at the first bad pass `k`
with what the passes before `k` made. -/
theorem forUpUntil_cases (bad : Nat → α → Bool) (f : Nat → α → α) (a : α) (n : Nat) :
    (forUpUntil bad f a n = (forUp f a n, none) ∧ ∀ i < n, bad i (forUp f a i) = false) ∨
      ∃ k < n, forUpUntil bad f a n = (forUp f a k, some k) ∧ bad k (forUp f a k) = true ∧
        ∀ i < k, bad i (forUp f a i) = false := by
  induction n with
  | zero => exact .inl ⟨rfl, fun i hi => absurd hi (Nat.not_lt_zero i)⟩
  | succ n ih =>
    rcases ih with ⟨he, hg⟩ | ⟨k, hk, he, hb, hg⟩
    · cases hbad : bad n (forUp f a n) with
      | true => exact .inr ⟨n, Nat.lt_succ_self n, by simp [forUpUntil, he, hbad], hbad, hg⟩
      | false =>
        refine .inl ⟨by simp [forUpUntil, he, hbad], fun i hi => ?_⟩
        rcases Nat.lt_succ_iff_lt_or_eq.mp hi with h | rfl
        · exact hg i h
        · exact hbad
    · exact .inr ⟨k, Nat.lt_succ_of_lt hk, by simp [forUpUntil, he], hb, hg⟩

/-- No pass bad: the plain loop. -/
theorem forUpUntil_eq_none {bad : Nat → α → Bool} {f : Nat → α → α} {a : α} {n : Nat}
    (h : ∀ i < n, bad i (forUp f a i) = false) : forUpUntil bad f a n = (forUp f a n, none) := by
  rcases forUpUntil_cases bad f a n with ⟨he, _⟩ | ⟨k, hk, _, hb, _⟩
  · exact he
  · simp [h k hk] at hb

/-- Pass `k` the first bad one: the loop stops there. -/
theorem forUpUntil_eq_some {bad : Nat → α → Bool} {f : Nat → α → α} {a : α} {n k : Nat} (hk : k < n)
    (hb : bad k (forUp f a k) = true) (h : ∀ i < k, bad i (forUp f a i) = false) :
    forUpUntil bad f a n = (forUp f a k, some k) := by
  rcases forUpUntil_cases bad f a n with ⟨_, hg⟩ | ⟨j, _, he, hbj, hg⟩
  · simp [hg k hk] at hb
  · rcases Nat.lt_trichotomy j k with hj | rfl | hj
    · simp [h j hj] at hbj
    · exact he
    · simp [hg k hj] at hb

/-- A property that the start has and every good pass carries on holds of what the loop made, stopped or not. -/
theorem forUpUntil_induction {bad : Nat → α → Bool} {f : Nat → α → α} {a : α} (P : α → Prop) (h0 : P a) (n : Nat)
    (hs : ∀ i < n, ∀ x, P x → P (f i x)) : P (forUpUntil bad f a n).1 := by
  rcases forUpUntil_cases bad f a n with ⟨he, _⟩ | ⟨k, hk, he, _⟩ <;> rw [he]
  · exact forUp_induction (fun _ => P) h0 n hs
  · exact forUp_induction (fun _ => P) h0 k fun i hi => hs i (hi.trans hk)

end Sys2Proof.Machine
end

