-- ==== Sys2Proof/Laws/Memory.lean ====
section
/-! SUPPORT. Buffer memory: a read after a write, the canonical form, and bytes staying inside memory, for each named
operation. -/

namespace Sys2Proof.Machine

/-! ## One byte -/

theorem cellsGet_cellsSet (l : List Host.Cell) (a x : Nat) (b : Byte) :
    cellsGet (cellsSet l a b) x = if a = x then some b else cellsGet l x := by
  induction l with
  | nil => simp [cellsSet, cellsGet]
  | cons c t ih =>
    obtain ⟨y, v⟩ := c
    simp only [cellsSet]
    split_ifs <;> grind [cellsGet]

@[simp] theorem write_draw (m : Memory) (a : Nat) (b : Byte) : (m.write a b).draw = m.draw := rfl

/-- A read after a write: the value written there, every other byte as before. -/
theorem read_write (m : Memory) (a x : Nat) (b : Byte) :
    (m.write a b).read x = if a = x then b else m.read x := by
  simp only [Memory.read, Memory.write, Memory.unwritten, cellsGet_cellsSet]
  split_ifs <;> rfl

@[simp] theorem read_write_self (m : Memory) (a : Nat) (b : Byte) : (m.write a b).read a = b := by
  simp [read_write]

theorem read_write_ne (m : Memory) {a x : Nat} (b : Byte) (h : a ≠ x) : (m.write a b).read x = m.read x := by
  simp [read_write, h]

/-! ## Several bytes -/

@[simp] theorem readBytes_length (m : Memory) (a n : Nat) : (m.readBytes a n).length = n := by
  induction n generalizing a with
  | zero => rfl
  | succ n ih => simp [Memory.readBytes, ih]

theorem readBytes_getElem (m : Memory) (a n i : Nat) (h : i < (m.readBytes a n).length) :
    (m.readBytes a n)[i] = m.read (a + i) := by
  induction n generalizing a i with
  | zero => simp [Memory.readBytes] at h
  | succ n ih =>
    cases i with
    | zero => rfl
    | succ i => simp [Memory.readBytes, ih, Nat.add_assoc, Nat.add_comm 1 i]

theorem readBytes_append (m : Memory) (a n k : Nat) :
    m.readBytes a (n + k) = m.readBytes a n ++ m.readBytes (a + n) k := by
  induction n generalizing a with
  | zero => simp [Memory.readBytes]
  | succ n ih =>
    rw [Nat.succ_add_eq_add_succ, Nat.add_succ]
    simp [Memory.readBytes, ih, Nat.add_assoc, Nat.add_comm 1 n]

/-- Bytes that read the same in two memories give the same list. -/
theorem readBytes_congr {m m' : Memory} {a n : Nat} (h : ∀ i < n, m.read (a + i) = m'.read (a + i)) :
    m.readBytes a n = m'.readBytes a n := by
  induction n generalizing a with
  | zero => rfl
  | succ n ih =>
    simp only [Memory.readBytes]
    rw [show m.read a = m'.read a from h 0 (Nat.succ_pos n)]
    exact congrArg _ (ih fun i hi => by simpa [Nat.add_assoc, Nat.add_comm 1 i] using h (i + 1) (by omega))

@[simp] theorem writeBytes_draw (m : Memory) (a : Nat) (bs : List Byte) : (m.writeBytes a bs).draw = m.draw := by
  induction bs generalizing m a with
  | nil => rfl
  | cons b bs ih => simp [Memory.writeBytes, ih]

/-- Bytes outside the written region read as before. -/
theorem read_writeBytes_outside (m : Memory) (a x : Nat) (bs : List Byte) (h : ¬ (a ≤ x ∧ x < a + bs.length)) :
    (m.writeBytes a bs).read x = m.read x := by
  induction bs generalizing m a with
  | nil => rfl
  | cons b bs ih =>
    simp only [List.length_cons] at h
    simp only [Memory.writeBytes]
    rw [ih _ _ (by omega), read_write_ne _ _ (by omega)]

/-- Byte `i` of the written region reads as byte `i` of the data. -/
theorem read_writeBytes_inside (m : Memory) (a i : Nat) (bs : List Byte) (h : i < bs.length) :
    (m.writeBytes a bs).read (a + i) = bs[i] := by
  induction bs generalizing m a i with
  | nil => simp at h
  | cons b bs ih =>
    simp only [Memory.writeBytes]
    cases i with
    | zero =>
      rw [read_writeBytes_outside _ _ _ _ (by omega)]
      simp
    | succ i =>
      have := ih (m.write a b) (a + 1) i (by simpa using h)
      simpa [Nat.add_assoc, Nat.add_comm 1 i] using this

/-! ## The canonical form -/

theorem mem_cellsSet {l : List Host.Cell} {a : Nat} {b : Byte} {c : Host.Cell} (h : c ∈ cellsSet l a b) :
    c = (a, b) ∨ c ∈ l := by
  induction l with
  | nil => simpa [cellsSet] using h
  | cons d t ih =>
    obtain ⟨y, v⟩ := d
    simp only [cellsSet] at h
    split_ifs at h <;> simp at h ⊢ <;> tauto

theorem cellsSet_sorted (l : List Host.Cell) (a : Nat) (b : Byte) (h : l.Pairwise (fun x y => x.1 < y.1)) :
    (cellsSet l a b).Pairwise (fun x y => x.1 < y.1) := by
  induction l with
  | nil => simp [cellsSet]
  | cons d t ih =>
    obtain ⟨y, v⟩ := d
    obtain ⟨hy, ht⟩ := List.pairwise_cons.mp h
    simp only [cellsSet]
    split_ifs with h1 h2
    · exact List.pairwise_cons.mpr ⟨fun c hc => by
        rcases List.mem_cons.mp hc with rfl | hc
        · exact h1
        · exact h1.trans (hy c hc), h⟩
    · subst h2
      exact List.pairwise_cons.mpr ⟨hy, ht⟩
    · refine List.pairwise_cons.mpr ⟨fun c hc => ?_, ih ht⟩
      rcases mem_cellsSet hc with rfl | hc
      · change y < a
        omega
      · exact hy c hc

/-- What every operation on memory keeps: the canonical form, and every listed byte below a bound. -/
structure Memory.Good (n : Nat) (m : Memory) : Prop where
  sorted : m.wf
  inside : ∀ c ∈ m.cells, c.1 < n

theorem good_write {n : Nat} {m : Memory} (h : m.Good n) {a : Nat} (b : Byte) (ha : a < n) : (m.write a b).Good n where
  sorted := cellsSet_sorted _ _ _ h.sorted
  inside c hc := by
    rcases mem_cellsSet hc with rfl | hc
    · exact ha
    · exact h.inside c hc

theorem good_writeBytes {n : Nat} {m : Memory} (h : m.Good n) {a : Nat} (bs : List Byte) (ha : a + bs.length ≤ n) :
    (m.writeBytes a bs).Good n := by
  induction bs generalizing m a with
  | nil => exact h
  | cons b bs ih =>
    simp only [List.length_cons] at ha
    exact ih (good_write h b (by omega)) (by omega)

theorem good_scramble {n : Nat} {m : Memory} (h : m.Good n) (d a k : Nat) (hk : k ≤ n - a) :
    (m.scramble d a k).Good n :=
  forUp_induction (fun _ => Memory.Good n) h k fun i hi _ hx => good_write hx _ (by omega)

@[simp] theorem scramble_draw (m : Memory) (d a k : Nat) : (m.scramble d a k).draw = m.draw :=
  forUp_induction (fun _ (x : Memory) => x.draw = m.draw) rfl k fun _ _ _ hx => hx

/-- A scramble leaves every byte outside its region alone. -/
theorem read_scramble_outside (m : Memory) (d a k x : Nat) (h : ¬ (a ≤ x ∧ x < a + k)) :
    (m.scramble d a k).read x = m.read x :=
  forUp_induction (fun _ (y : Memory) => y.read x = m.read x) rfl k fun i hi y hy => by
    rw [read_write_ne _ _ (by omega), hy]

/-- Each byte of a scrambled region is the free draw's byte at its address. -/
theorem read_scramble_inside (m : Memory) (d a k x : Nat) (h : a ≤ x ∧ x < a + k) :
    (m.scramble d a k).read x = Config.freeByte d x := by
  obtain ⟨h1, h2⟩ := h
  refine forUp_induction
    (fun i (y : Memory) => x < a + i → y.read x = Config.freeByte d x) (fun h => by omega) k
    (fun i hi y hy hx => ?_) h2
  rw [read_write]
  split_ifs with h
  · rw [h]
  · exact hy (by omega)

/-! ## Words of four bytes -/

theorem be32_congr {m m' : Memory} {a : Nat} (h : ∀ i < 4, m.read (a + i) = m'.read (a + i)) :
    m.be32 a = m'.be32 a := by
  have h0 := h 0 (by omega)
  have h1 := h 1 (by omega)
  have h2 := h 2 (by omega)
  have h3 := h 3 (by omega)
  simp only [Nat.add_zero] at h0
  simp only [Memory.be32, h0, h1, h2, h3]

/-- Writing a word as four little-endian bytes and reading it back gives the word (20_memory.md R62). -/
theorem le32_le32Bytes (v : Word) :
    le32 (v.extractLsb' 0 8) (v.extractLsb' 8 8) (v.extractLsb' 16 8) (v.extractLsb' 24 8) = v := by
  ext i hi
  simp only [le32, BitVec.getElem_or, BitVec.getElem_setWidth, BitVec.getElem_shiftLeft, BitVec.getLsbD_extractLsb']
  interval_cases i <;> simp [BitVec.getLsbD_eq_getElem]

end Sys2Proof.Machine
end

