-- ==== Sys2Proof/Laws/Crc.lean ====
section
/-! SUPPORT. The CRC function: sequences in parts, and no two states or bytes give one result. -/

namespace Sys2Proof.Machine

@[simp] theorem crcRaw_nil (c : Word) : crcRaw c [] = c := rfl

@[simp] theorem crcRaw_cons (c : Word) (b : Byte) (bs : List Byte) : crcRaw c (b :: bs) = crcRaw (crcByte c b) bs := rfl

theorem crcRaw_eq_foldl (c : Word) (bs : List Byte) : crcRaw c bs = bs.foldl crcByte c := by
  induction bs generalizing c with
  | nil => rfl
  | cons b bs ih => simp [ih]

/-- Reading `n` bytes is mapping the read over the offsets. -/
theorem readBytes_eq_map (m : Memory) (a n : Nat) : m.readBytes a n = (List.range n).map fun i => m.read (a + i) :=
  List.ext_getElem (by simp) fun i h _ => by simp [readBytes_getElem]

/-- The bit shifted out of an iteration is the top bit of its result, because the polynomial's top bit is 1. -/
theorem crcShift_top (c : Word) : (crcShift c).getLsbD 31 = c.getLsbD 0 := by
  unfold crcShift
  split <;> simp_all

theorem crcShift_injective : Function.Injective crcShift := by
  intro c d h
  have h0 : c.getLsbD 0 = d.getLsbD 0 := by rw [← crcShift_top, ← crcShift_top, h]
  have hs : c >>> 1 = d >>> 1 := by
    unfold crcShift at h
    rw [h0] at h
    split at h
    · simpa using h
    · exact h
  apply BitVec.eq_of_getLsbD_eq
  intro i hi
  cases i with
  | zero => exact h0
  | succ i => simpa [Nat.add_comm 1 i] using congrArg (fun v => v.getLsbD i) hs

theorem crcShifts_injective (n : Nat) : Function.Injective fun c => crcShifts c n := by
  induction n with
  | zero => exact fun _ _ h => h
  | succ n ih => exact fun _ _ h => crcShift_injective (ih h)

/-- For a fixed byte the byte step loses nothing of the state. -/
theorem crcByte_injective_state (b : Byte) : Function.Injective fun c => crcByte c b := by
  intro c d h
  have := crcShifts_injective 8 h
  simpa using this

/-- For a fixed state the byte step loses nothing of the byte. -/
theorem crcByte_injective_byte (c : Word) : Function.Injective (crcByte c) := by
  intro a b h
  have h' : c ^^^ a.setWidth 32 = c ^^^ b.setWidth 32 := crcShifts_injective 8 h
  have : a.setWidth 32 = b.setWidth 32 := by simpa using h'
  have h8 := congrArg (fun v : Word => v.setWidth 8) this
  simpa using h8

theorem crcRaw_injective_state (bs : List Byte) : Function.Injective fun c => crcRaw c bs := by
  induction bs with
  | nil => exact fun _ _ h => h
  | cons b bs ih => exact fun _ _ h => crcByte_injective_state b (ih h)

/-- Two sequences of one length that differ in exactly one byte have different CRC states. -/
theorem crcRaw_ne_of_one_byte (c : Word) (p q : List Byte) {a b : Byte} (h : a ≠ b) :
    crcRaw c (p ++ a :: q) ≠ crcRaw c (p ++ b :: q) := by
  simp only [crcRaw_eq_foldl, List.foldl_append, List.foldl_cons]
  intro he
  have := crcRaw_injective_state q (by simpa only [crcRaw_eq_foldl] using he)
  exact h (crcByte_injective_byte _ this)

end Sys2Proof.Machine
end

