-- ==== Sys2Proof/Laws/Decode.lean ====
section
/-! SUPPORT. A command word is its three fields, and what a legal word's fields are. -/

namespace Sys2Proof

/-- A word is put together from `OP`, `OPT` and `RSV` (30_encoding.md R90). -/
theorem word_eq_fields (w : Word) :
    w = (opField w).setWidth 32 ||| (optField w).setWidth 32 <<< 8 ||| (rsvField w).setWidth 32 <<< 16 := by
  ext i hi
  simp only [opField, optField, rsvField, BitVec.getElem_or, BitVec.getElem_setWidth, BitVec.getElem_shiftLeft,
    BitVec.getLsbD_extractLsb']
  interval_cases i <;> simp [BitVec.getLsbD_eq_getElem]

theorem opField_toNat (w : Word) : (opField w).toNat = w.toNat % 256 := by
  simp [opField, BitVec.extractLsb'_toNat]

theorem optField_toNat (w : Word) : (optField w).toNat = w.toNat / 256 % 256 := by
  simp [optField, BitVec.extractLsb'_toNat, Nat.shiftRight_eq_div_pow]

theorem rsvField_toNat (w : Word) : (rsvField w).toNat = w.toNat / 65536 := by
  simp only [rsvField, BitVec.extractLsb'_toNat, Nat.shiftRight_eq_div_pow]
  have := w.isLt
  omega

/-- `SP` is bit 0 of `OPT`. -/
theorem spField_eq (w : Word) : spField w = (optField w).getLsbD 0 := by
  simp [spField, optField]

/-- `PIX` is the low three bits of `OPT`. -/
theorem pixField_eq (w : Word) : pixField w = (optField w).toNat % 8 := by
  simp only [pixField, optField_toNat, BitVec.extractLsb'_toNat, Nat.shiftRight_eq_div_pow]
  omega

/-- What a word that decodes has in its fields (30_encoding.md R101). -/
theorem decode_ok {w : Word} {i : Instr} (h : decode w = .ok i) :
    rsvField w = 0 ∧ instrOfOp w = some i ∧ optField w &&& ~~~ i.definedMask = 0 := by
  unfold decode at h
  split at h
  · simp at h
  · split at h
    · simp at h
    · split at h <;> simp_all

/-- The command that an operation number names has that number, and its options are the word's (30_encoding.md R94). -/
theorem instrOfOp_some {w : Word} {i : Instr} (h : instrOfOp w = some i) :
    opField w = i.op ∧ (∀ sp, i = .expandRgba sp → sp = spField w) ∧ (∀ p, i = .resample p → p = pixField w) := by
  unfold instrOfOp at h
  split at h <;> simp at h <;> subst h <;> rename_i h1 <;>
    refine ⟨BitVec.eq_of_toNat_eq (by rw [h1]; rfl), ?_, ?_⟩ <;> simp

end Sys2Proof
end

