-- ==== Sys2Proof/Laws/Flags.lean ====
section
/-! SUPPORT. The words that flags make, bit by bit. -/

namespace Sys2Proof.Machine

/-- A flag's word has the flag at its place and 0 everywhere else. -/
theorem flag_getLsbD (b : Bool) {i : Nat} (hi : i < 32) (n : Nat) : (flag b i).getLsbD n = (decide (n = i) && b) := by
  simp only [flag, BitVec.getLsbD_shiftLeft, BitVec.getLsbD_setWidth, BitVec.getLsbD_ofBool]
  rcases Nat.lt_trichotomy n i with h | rfl | h
  · simp [h, Nat.ne_of_lt h]
  · simp [hi]
  · have h1 : ¬ (n - i = 0) := by omega
    simp [h1, Nat.ne_of_gt h]

/-- Bit `n` of `STATUS` (10_state.md R23). -/
theorem status_word_getLsbD (t : Status) (n : Nat) :
    t.word.getLsbD n =
      ((decide (n = 0) && t.busy) || (decide (n = 1) && t.done) || (decide (n = 2) && t.err) ||
        (decide (n = 3) && t.werr) || (decide (n = 4) && t.crcOk) ||
        (decide (8 ≤ n) && (decide (n < 16) && t.errcode.code.getLsbD (n - 8)))) := by
  simp only [Status.word, BitVec.getLsbD_or, flag_getLsbD _ (show 0 < 32 by decide), flag_getLsbD _ (show 1 < 32 by decide),
    flag_getLsbD _ (show 2 < 32 by decide), flag_getLsbD _ (show 3 < 32 by decide), flag_getLsbD _ (show 4 < 32 by decide),
    BitVec.getLsbD_shiftLeft, BitVec.getLsbD_setWidth]
  congr 1
  by_cases h8 : 8 ≤ n
  · by_cases h16 : n < 16
    · simp [h8, h16, show n < 32 by omega, show n - 8 < 32 by omega]
    · have : t.errcode.code.getLsbD (n - 8) = false := BitVec.getLsbD_of_ge _ _ (by omega)
      simp [this]
  · simp [h8, show n < 8 by omega]

/-- Bit `n` of `CH_CLASS` for a tag with CRC_VALID `ok` (42_chunk.md R140, R141). -/
theorem class_getLsbD (t : Word) (ok : Bool) (n : Nat) :
    (classify t ||| flag ok 3 ||| knownTag t).getLsbD n =
      ((decide (n = 0) && !t.getLsbD 29) || (decide (n = 1) && !t.getLsbD 21) || (decide (n = 2) && !t.getLsbD 13) ||
        (decide (n = 3) && ok) ||
        ((decide (n = 4) && decide (t = 0x49484452)) || (decide (n = 5) && decide (t = 0x49444154)) ||
          (decide (n = 6) && decide (t = 0x49454E44)) || (decide (n = 7) && decide (t = 0x504C5445)))) := by
  simp [classify, knownTag, tagByte, flag_getLsbD]

/-- The bits of `CH_CLASS` above the eighth are 0 (10_state.md R41). -/
theorem class_lt (t : Word) (ok : Bool) : (classify t ||| flag ok 3 ||| knownTag t).toNat < 256 := by
  have h : classify t ||| flag ok 3 ||| knownTag t = ((classify t ||| flag ok 3 ||| knownTag t).setWidth 8).setWidth 32 := by
    apply BitVec.eq_of_getLsbD_eq
    intro i hi
    rw [BitVec.getLsbD_setWidth, BitVec.getLsbD_setWidth]
    by_cases h8 : i < 8
    · simp [h8, hi]
    · rw [class_getLsbD]
      simp [show i ≠ 0 by omega, show i ≠ 1 by omega, show i ≠ 2 by omega, show i ≠ 3 by omega, show i ≠ 4 by omega,
        show i ≠ 5 by omega, show i ≠ 6 by omega, show i ≠ 7 by omega, h8]
  rw [h, BitVec.toNat_setWidth]
  have := ((classify t ||| flag ok 3 ||| knownTag t).setWidth 8).isLt
  omega

/-- `TYPE_DECODE` keeps bit 3 of the old class: the class it writes is that of a tag with the old CRC_VALID. -/
theorem retypedClass_eq (old t : Word) : retypedClass old t = classify t ||| flag (old.getLsbD 3) 3 ||| knownTag t := by
  have h : old &&& 0x00000008 = flag (old.getLsbD 3) 3 := by
    apply BitVec.eq_of_getLsbD_eq
    intro i hi
    rw [flag_getLsbD _ (by decide), BitVec.getLsbD_and]
    by_cases h3 : i = 3
    · subst h3; simp
    · have : (8#32).getLsbD i = false := by
        interval_cases i <;> first | contradiction | rfl
      simp [this, h3]
  rw [retypedClass, h, BitVec.or_comm (flag _ _)]

/-- Every register stands at its own offset (10_state.md section 1). -/
@[simp] theorem ofOffset_offset (r : Reg) : Reg.ofOffset r.offset = some r := by
  cases r <;> rfl

/-- An offset the table names is its register's (10_state.md section 1). -/
theorem offset_ofOffset {n : Nat} {r : Reg} (h : Reg.ofOffset n = some r) : r.offset = n := by
  unfold Reg.ofOffset at h
  split at h <;> simp at h <;> subst h <;> rfl

/-- Every register's offset has the form of an access and is in the span (10_state.md R48, R49). -/
theorem offset_form (r : Reg) : r.offset % 4 = 0 ∧ r.offset < 0x1000 := by
  cases r <;> decide

end Sys2Proof.Machine
end

