-- ==== Sys2Proof/Laws/Images.lean ====
section
/-! SUPPORT. The image loops: each writes its output region block by block, from source bytes that no block touches.
One lemma about such loops, and what it says of `STRIP_ROWS`, `EXPAND_RGBA` and `RESAMPLE`. -/

namespace Sys2Proof.Machine

/-- Outside `Region(d, n)` the two memories read the same. -/
abbrev AgreeOut (d n : Nat) (m y : Memory) : Prop := ∀ x, ¬ (d ≤ x ∧ x < d + n) → y.read x = m.read x

/-- Pass `i` of a loop body writes block `i`, the `len` bytes `g i` at `d + i * len`, and nothing else, whatever
stands in `Region(D, N)`. -/
abbrev WritesBlock (D N d len : Nat) (m : Memory) (f : Nat → Memory → Memory) (g : Nat → Nat → Byte) (i : Nat) : Prop :=
  ∀ y, AgreeOut D N m y →
    (∀ j < len, (f i y).read (d + i * len + j) = g i j) ∧
      ∀ x, ¬ (d + i * len ≤ x ∧ x < d + i * len + len) → (f i y).read x = y.read x

/-- A loop of block writes: after `r` passes the first `r` blocks stand, and everything else is as before. -/
theorem forUp_blocks {D N d len n : Nat} {m : Memory} {f : Nat → Memory → Memory} {g : Nat → Nat → Byte}
    (hD : D ≤ d) (hN : d + n * len ≤ D + N) (hf : ∀ i < n, WritesBlock D N d len m f g i)
    {y0 : Memory} (hy0 : AgreeOut D N m y0) (r : Nat) (hr : r ≤ n) :
    (∀ i < r, ∀ j < len, (forUp f y0 r).read (d + i * len + j) = g i j) ∧
      ∀ x, ¬ (d ≤ x ∧ x < d + r * len) → (forUp f y0 r).read x = y0.read x := by
  induction r with
  | zero => exact ⟨fun i hi => absurd hi (Nat.not_lt_zero i), fun _ _ => rfl⟩
  | succ r ih =>
    obtain ⟨hin, hout⟩ := ih (Nat.le_of_succ_le hr)
    have hle : (r + 1) * len ≤ n * len := Nat.mul_le_mul_right _ hr
    rw [Nat.succ_mul] at hle
    have hag : AgreeOut D N m (forUp f y0 r) := fun x hx => by
      rw [hout x (by omega), hy0 x hx]
    obtain ⟨hb, ho⟩ := hf r hr _ hag
    refine ⟨fun i hi j hj => ?_, fun x hx => ?_⟩
    · rcases Nat.lt_succ_iff_lt_or_eq.mp hi with h | rfl
      · have : (i + 1) * len ≤ r * len := Nat.mul_le_mul_right _ h
        rw [Nat.succ_mul] at this
        rw [forUp_succ, ho _ (by omega)]
        exact hin i h j hj
      · exact hb j hj
    · rw [Nat.succ_mul] at hx
      rw [forUp_succ, ho x (by omega), hout x (by omega)]

theorem forUp_draw {f : Nat → Memory → Memory} (hf : ∀ i y, (f i y).draw = y.draw) (m : Memory) (n : Nat) :
    (forUp f m n).draw = m.draw :=
  forUp_induction (fun _ (x : Memory) => x.draw = m.draw) rfl n fun i _ x hx => by rw [hf, hx]

/-! ## STRIP_ROWS -/

@[simp] theorem copyRow_draw (src dst sl r : Nat) (m : Memory) : (copyRow src dst sl r m).draw = m.draw := by
  simp [copyRow]

/-- The tag of row `r < h` is outside the output region. -/
theorem tag_outside {src dst sl h r : Nat} (hov : ¬ Overlap src (h * (1 + sl)) dst (h * sl)) (hr : r < h) (c : Nat)
    (hc : c ≤ sl) : ¬ (dst ≤ src + r * (1 + sl) + c ∧ src + r * (1 + sl) + c < dst + h * sl) := by
  have h1 : (r + 1) * (1 + sl) ≤ h * (1 + sl) := Nat.mul_le_mul_right _ hr
  rw [Nat.succ_mul] at h1
  by_contra hcon
  exact hov ⟨by omega, by omega, by omega, by omega⟩

/-- Row `r`'s copy writes output row `r` from the stream. -/
theorem copyRow_writesBlock {src dst sl h : Nat} {m : Memory} (hov : ¬ Overlap src (h * (1 + sl)) dst (h * sl))
    (r : Nat) (hr : r < h) :
    WritesBlock dst (h * sl) dst sl m (copyRow src dst sl) (fun r j => m.read (src + r * (1 + sl) + 1 + j)) r := by
  intro y hy
  refine ⟨fun j hj => ?_, fun x hx => ?_⟩
  · have hlen : j < (y.readBytes (src + r * (1 + sl) + 1) sl).length := by simpa using hj
    rw [copyRow, read_writeBytes_inside _ _ _ _ hlen, readBytes_getElem]
    exact hy _ (by simpa [Nat.add_assoc] using tag_outside hov hr (1 + j) (by omega))
  · exact read_writeBytes_outside _ _ _ _ (by simpa using hx)

/-- After `r` rows of `STRIP_ROWS`: the rows stand in the output, the rest is as before, and the tags still to come
read as before. -/
theorem stripped_rows {src dst sl h : Nat} (m : Memory) (hov : ¬ Overlap src (h * (1 + sl)) dst (h * sl))
    (r : Nat) (hr : r ≤ h) :
    (∀ q < r, ∀ j < sl, (forUp (copyRow src dst sl) m r).read (dst + q * sl + j) =
        m.read (src + q * (1 + sl) + 1 + j)) ∧
      (∀ x, ¬ (dst ≤ x ∧ x < dst + r * sl) → (forUp (copyRow src dst sl) m r).read x = m.read x) ∧
      (∀ q < h, badTag src sl q (forUp (copyRow src dst sl) m r) = badTag src sl q m) := by
  obtain ⟨hin, hout⟩ := forUp_blocks (Nat.le_refl dst) (Nat.le_refl _)
    (fun i hi => copyRow_writesBlock (m := m) hov i hi) (y0 := m) (fun _ _ => rfl) r hr
  refine ⟨hin, hout, fun q hq => ?_⟩
  have hle : r * sl ≤ h * sl := Nat.mul_le_mul_right _ hr
  have := tag_outside hov hq 0 (Nat.zero_le _)
  simp only [Nat.add_zero] at this
  rw [badTag, badTag, hout _ (by omega)]

/-! ## EXPAND_RGBA -/

@[simp] theorem pixelRgba_length (m : Memory) (k : ColorKind) (pb a : Nat) : (pixelRgba m k pb a).length = 4 := by
  cases k <;> rfl

/-- What the input bytes and the palette say of pixel `i` does not change while the output region is written. -/
theorem pixelRgba_congr {m y : Memory} {k : ColorKind} {pb a : Nat}
    (hin : ∀ c < k.bpp, y.read (a + c) = m.read (a + c))
    (hpal : k = .indexed → ∀ c < 3, y.read (pb + 3 * (m.read a).toNat + c) = m.read (pb + 3 * (m.read a).toNat + c)) :
    pixelRgba y k pb a = pixelRgba m k pb a := by
  have h0 : y.read a = m.read a := by
    have := hin 0 (by cases k <;> decide)
    simpa using this
  cases k with
  | grayscale => simp [pixelRgba, h0]
  | truecolor => simp [pixelRgba, h0, hin 1 (by decide), hin 2 (by decide)]
  | indexed =>
    have hp := hpal rfl
    have hp0 := hp 0 (by decide)
    simp only [Nat.add_zero] at hp0
    simp only [pixelRgba, h0, hp0, hp 1 (by decide), hp 2 (by decide)]
  | grayscaleAlpha => simp [pixelRgba, h0, hin 1 (by decide)]
  | truecolorAlpha => simp [pixelRgba, h0, hin 1 (by decide), hin 2 (by decide), hin 3 (by decide)]

/-- Byte `c` of input pixel `i < n` is outside the output region. -/
theorem input_outside {src dst bpp n i c : Nat} (hov : ¬ Overlap src (n * bpp) dst (4 * n)) (hi : i < n) (hc : c < bpp) :
    ¬ (dst ≤ src + i * bpp + c ∧ src + i * bpp + c < dst + 4 * n) := by
  have h : (i + 1) * bpp ≤ n * bpp := Nat.mul_le_mul_right _ hi
  rw [Nat.succ_mul] at h
  intro hcon
  exact hov ⟨by omega, by omega, by omega, by omega⟩

/-- After `r` pixels of `EXPAND_RGBA`, the indices of those pixels in range: the pixels stand in the output, the rest
is as before, and the indices still to come read as before. -/
theorem expanded_pixels {k : ColorKind} {src dst pb pl n : Nat} (m : Memory)
    (hov : ¬ Overlap src (n * k.bpp) dst (4 * n)) (hpal : k = .indexed → ¬ Overlap pb pl dst (4 * n))
    (r : Nat) (hr : r ≤ n) (hgood : ∀ i < r, badIndex k pl (src + i * k.bpp) m = false) :
    (∀ i < r, ∀ (j : Nat) (hj : j < 4),
      (forUp (fun i b => b.writeBytes (dst + 4 * i) (pixelRgba b k pb (src + i * k.bpp))) m r).read (dst + 4 * i + j) =
        (pixelRgba m k pb (src + i * k.bpp))[j]'(by simpa using hj)) ∧
      (∀ x, ¬ (dst ≤ x ∧ x < dst + 4 * r) →
        (forUp (fun i b => b.writeBytes (dst + 4 * i) (pixelRgba b k pb (src + i * k.bpp))) m r).read x = m.read x) ∧
      (∀ i < n, badIndex k pl (src + i * k.bpp)
        (forUp (fun i b => b.writeBytes (dst + 4 * i) (pixelRgba b k pb (src + i * k.bpp))) m r) =
          badIndex k pl (src + i * k.bpp) m) := by
  have hb0 : 0 < k.bpp := by cases k <;> decide
  have hblock : ∀ i < r, WritesBlock dst (4 * n) dst 4 m
      (fun i b => b.writeBytes (dst + 4 * i) (pixelRgba b k pb (src + i * k.bpp)))
      (fun i j => (pixelRgba m k pb (src + i * k.bpp)).getD j 0) i := by
    intro i hi y hy
    have hin : i < n := by omega
    have hsame : pixelRgba y k pb (src + i * k.bpp) = pixelRgba m k pb (src + i * k.bpp) := by
      refine pixelRgba_congr (fun c hc => hy _ (input_outside hov hin hc)) fun hk c hc => hy _ ?_
      have hg := hgood i hi
      simp only [badIndex, hk, true_and, decide_eq_false_iff_not] at hg
      rw [hk]
      intro hcon
      exact hpal hk ⟨by omega, by omega, by omega, by omega⟩
    simp only [hsame, Nat.mul_comm i 4]
    refine ⟨fun j hj => ?_, fun x hx => read_writeBytes_outside _ _ _ _ (by simpa using hx)⟩
    have hlen : j < (pixelRgba m k pb (src + i * k.bpp)).length := by simpa using hj
    rw [read_writeBytes_inside _ _ _ _ hlen, List.getD_eq_getElem _ _ hlen]
  obtain ⟨hin, hout⟩ := forUp_blocks (n := r) (Nat.le_refl dst) (by omega) hblock (y0 := m) (fun _ _ => rfl) r
    (Nat.le_refl r)
  rw [Nat.mul_comm r 4] at hout
  refine ⟨fun i hi j hj => ?_, hout, fun i hi => ?_⟩
  · have := hin i hi j hj
    rw [Nat.mul_comm i 4] at this
    rw [this, List.getD_eq_getElem _ _ (by simpa using hj)]
  · have := input_outside hov hi hb0
    simp only [Nat.add_zero] at this
    rw [badIndex, badIndex, hout _ (by omega)]

/-! ## RESAMPLE -/

/-- Byte `c` of input pixel `(ox * n, oy * n)` is inside the image. -/
theorem sample_inside {w hh n oy ox p c : Nat} (hn : n ≠ 0) (hoy : oy < hh / n) (hox : ox < w / n) (hc : c < p) :
    ((oy * n) * w + ox * n) * p + c < w * hh * p := by
  have h1 : (oy + 1) * n ≤ hh := le_trans (Nat.mul_le_mul_right n hoy) (Nat.div_mul_le_self hh n)
  have h2 : (ox + 1) * n ≤ w := le_trans (Nat.mul_le_mul_right n hox) (Nat.div_mul_le_self w n)
  have hn1 : 1 ≤ n := Nat.one_le_iff_ne_zero.mpr hn
  have h3 : oy * n + 1 ≤ hh := by nlinarith
  have h4 : ox * n + 1 ≤ w := by nlinarith
  have h5 : (oy * n) * w + ox * n + 1 ≤ hh * w := by nlinarith
  have h6 : ((oy * n) * w + ox * n + 1) * p ≤ hh * w * p := Nat.mul_le_mul_right p h5
  rw [Nat.mul_comm w hh]
  nlinarith

/-- The three loops of `RESAMPLE`: every sampled byte stands in the output, the rest is as before. -/
theorem resampleLoop_spec {src dst w hh n p : Nat} (m : Memory) (hn : n ≠ 0)
    (hov : ¬ Overlap src (w * hh * p) dst (w / n * (hh / n) * p)) :
    (∀ oy < hh / n, ∀ ox < w / n, ∀ c < p,
      (resampleLoop src dst w (w / n) (hh / n) n p m).read (dst + (oy * (w / n) + ox) * p + c) =
        m.read (src + ((oy * n) * w + ox * n) * p + c)) ∧
      ∀ x, ¬ (dst ≤ x ∧ x < dst + w / n * (hh / n) * p) →
        (resampleLoop src dst w (w / n) (hh / n) n p m).read x = m.read x := by
  generalize how : w / n = ow at *
  generalize hoh : hh / n = oh at *
  have hsrc : ∀ oy < oh, ∀ ox < ow, ∀ c < p, ∀ y, AgreeOut dst (ow * oh * p) m y →
      y.read (src + ((oy * n) * w + ox * n) * p + c) = m.read (src + ((oy * n) * w + ox * n) * p + c) := by
    intro oy hoy ox hox c hc y hy
    have := sample_inside (w := w) (hh := hh) hn (hoh ▸ hoy) (how ▸ hox) hc
    exact hy _ fun hcon => hov ⟨by omega, by omega, by omega, by omega⟩
  have hblock : ∀ oy < oh, ∀ ox < ow, ((oy * ow) + ox) * p + p ≤ ow * oh * p := by
    intro oy hoy ox hox
    have h1 : oy * ow + ox + 1 ≤ ow * oh := by nlinarith
    have := Nat.mul_le_mul_right p h1
    nlinarith
  have hpix : ∀ oy < oh, ∀ ox < ow,
      WritesBlock dst (ow * oh * p) (dst + oy * ow * p) p m (fun ox b => copyPixel src dst w ow n p oy ox b)
        (fun ox c => m.read (src + ((oy * n) * w + ox * n) * p + c)) ox := by
    intro oy hoy ox hox y hy
    have hb := hblock oy hoy ox hox
    have := forUp_blocks (D := dst) (N := ow * oh * p) (d := dst + (oy * ow + ox) * p) (len := 1) (n := p) (m := m)
      (f := fun k b => b.write (dst + (oy * ow + ox) * p + k) (b.read (src + ((oy * n) * w + ox * n) * p + k)))
      (g := fun k _ => m.read (src + ((oy * n) * w + ox * n) * p + k)) (by omega) (by omega)
      (fun k hk z hz => ⟨fun j hj => by
          obtain rfl : j = 0 := by omega
          simp only [Nat.mul_one, Nat.add_zero, read_write_self]
          exact hsrc oy hoy ox hox k hk z hz,
        fun x hx => read_write_ne _ _ (by omega)⟩) (y0 := y) hy p (Nat.le_refl p)
    obtain ⟨h1, h2⟩ := this
    have he : dst + oy * ow * p + ox * p = dst + (oy * ow + ox) * p := by ring
    rw [he]
    refine ⟨fun c hc => ?_, fun x hx => ?_⟩
    · have := h1 c hc 0 Nat.one_pos
      simpa [copyPixel] using this
    · exact h2 x (by simpa using hx)
  have hrow : ∀ oy < oh,
      WritesBlock dst (ow * oh * p) dst (ow * p) m
        (fun oy b => forUp (fun ox b' => copyPixel src dst w ow n p oy ox b') b ow)
        (fun oy j => m.read (src + ((oy * n) * w + j / p * n) * p + j % p)) oy := by
    intro oy hoy y hy
    have hle : oy * ow * p + ow * p ≤ ow * oh * p := by
      have : (oy + 1) * ow ≤ oh * ow := Nat.mul_le_mul_right _ hoy
      nlinarith
    obtain ⟨h1, h2⟩ := forUp_blocks (by omega) (by omega) (fun i hi => hpix oy hoy i hi) (y0 := y) hy ow (Nat.le_refl ow)
    rw [← Nat.mul_assoc]
    refine ⟨fun j hj => ?_, fun x hx => h2 x (by omega)⟩
    have hp : 0 < p := Nat.pos_of_ne_zero fun h => by simp [h] at hj
    have := h1 (j / p) (Nat.div_lt_of_lt_mul (by rwa [Nat.mul_comm] at hj)) (j % p) (Nat.mod_lt j hp)
    have hj' : dst + oy * ow * p + j / p * p + j % p = dst + oy * ow * p + j := by
      have := Nat.div_add_mod' j p
      omega
    rwa [hj'] at this
  have := forUp_blocks (Nat.le_refl dst)
    (by rw [show oh * (ow * p) = ow * oh * p by ring])
    hrow (y0 := m) (fun _ _ => rfl) oh (Nat.le_refl oh)
  obtain ⟨h1, h2⟩ := this
  refine ⟨fun oy hoy ox hox c hc => ?_, fun x hx => h2 x (by rwa [show oh * (ow * p) = ow * oh * p by ring])⟩
  have hj : ox * p + c < ow * p := by nlinarith
  have := h1 oy hoy (ox * p + c) hj
  have hp : 0 < p := by omega
  rw [show (ox * p + c) / p = ox by
        rw [Nat.mul_comm, Nat.mul_add_div hp, Nat.div_eq_of_lt hc, Nat.add_zero],
      show (ox * p + c) % p = c by
        rw [Nat.mul_comm, Nat.mul_add_mod, Nat.mod_eq_of_lt hc],
      show dst + oy * (ow * p) + (ox * p + c) = dst + (oy * ow + ox) * p + c by ring] at this
  exact this

end Sys2Proof.Machine
end

