-- ==== Sys2Proof/Laws/State.lean ====
section
/-! SUPPORT. What each field of the state is after each named update, so that no proof unfolds a record update. -/

namespace Sys2Proof.Machine

@[simp] theorem setStatus_cfg (s : State) (st : Status) : (s.setStatus st).cfg = s.cfg := rfl
@[simp] theorem setStatus_regs (s : State) (st : Status) : (s.setStatus st).regs = { s.regs with status := st } := rfl
@[simp] theorem setStatus_mem (s : State) (st : Status) : (s.setStatus st).mem = s.mem := rfl
@[simp] theorem setStatus_host (s : State) (st : Status) : (s.setStatus st).host = s.host := rfl
@[simp] theorem setStatus_turns (s : State) (st : Status) : (s.setStatus st).turns = s.turns := rfl
@[simp] theorem setStatus_draws (s : State) (st : Status) : (s.setStatus st).draws = s.draws := rfl

@[simp] theorem startCommand_cfg (v : Word) (s : State) : (startCommand v s).cfg = s.cfg := rfl
@[simp] theorem startCommand_regs (v : Word) (s : State) : (startCommand v s).regs = { s.regs with cmd := v, status := { s.regs.status with busy := true, done := false, err := false, errcode := .none }, errInfo := 0 } := rfl
@[simp] theorem startCommand_mem (v : Word) (s : State) : (startCommand v s).mem = s.mem := rfl
@[simp] theorem startCommand_host (v : Word) (s : State) : (startCommand v s).host = s.host := rfl
@[simp] theorem startCommand_turns (v : Word) (s : State) : (startCommand v s).turns = s.turns := rfl
@[simp] theorem startCommand_draws (v : Word) (s : State) : (startCommand v s).draws = s.draws := rfl

@[simp] theorem finish_cfg (s : State) : (finish s).cfg = s.cfg := rfl
@[simp] theorem finish_regs (s : State) : (finish s).regs = { s.regs with status := { s.regs.status with busy := false, done := true } } := rfl
@[simp] theorem finish_mem (s : State) : (finish s).mem = s.mem := rfl
@[simp] theorem finish_host (s : State) : (finish s).host = s.host := rfl
@[simp] theorem finish_turns (s : State) : (finish s).turns = s.turns := rfl
@[simp] theorem finish_draws (s : State) : (finish s).draws = s.draws := rfl

@[simp] theorem raiseError_cfg (c : ErrCode) (n : Nat) (s : State) : (raiseError c n s).cfg = s.cfg := rfl
@[simp] theorem raiseError_regs (c : ErrCode) (n : Nat) (s : State) : (raiseError c n s).regs = { s.regs with status := { s.regs.status with busy := false, done := true, err := true, errcode := c }, errInfo := BitVec.ofNat 32 n } := rfl
@[simp] theorem raiseError_mem (c : ErrCode) (n : Nat) (s : State) : (raiseError c n s).mem = s.mem := rfl
@[simp] theorem raiseError_host (c : ErrCode) (n : Nat) (s : State) : (raiseError c n s).host = s.host := rfl
@[simp] theorem raiseError_turns (c : ErrCode) (n : Nat) (s : State) : (raiseError c n s).turns = s.turns := rfl
@[simp] theorem raiseError_draws (c : ErrCode) (n : Nat) (s : State) : (raiseError c n s).draws = s.draws := rfl

@[simp] theorem dropWrite_cfg (s : State) : (dropWrite s).cfg = s.cfg := rfl
@[simp] theorem dropWrite_regs (s : State) : (dropWrite s).regs = { s.regs with status := { s.regs.status with werr := true } } := rfl
@[simp] theorem dropWrite_mem (s : State) : (dropWrite s).mem = s.mem := rfl
@[simp] theorem dropWrite_host (s : State) : (dropWrite s).host = s.host := rfl
@[simp] theorem dropWrite_turns (s : State) : (dropWrite s).turns = s.turns := rfl
@[simp] theorem dropWrite_draws (s : State) : (dropWrite s).draws = s.draws := rfl

@[simp] theorem acknowledge_cfg (s : State) : (acknowledge s).cfg = s.cfg := rfl
@[simp] theorem acknowledge_regs (s : State) : (acknowledge s).regs = { s.regs with status := { s.regs.status with done := false } } := rfl
@[simp] theorem acknowledge_mem (s : State) : (acknowledge s).mem = s.mem := rfl
@[simp] theorem acknowledge_host (s : State) : (acknowledge s).host = s.host := rfl
@[simp] theorem acknowledge_turns (s : State) : (acknowledge s).turns = s.turns := rfl
@[simp] theorem acknowledge_draws (s : State) : (acknowledge s).draws = s.draws := rfl

@[simp] theorem setCrcOk_cfg (s : State) (b : Bool) : (s.setCrcOk b).cfg = s.cfg := rfl
@[simp] theorem setCrcOk_regs (s : State) (b : Bool) : (s.setCrcOk b).regs = { s.regs with status := { s.regs.status with crcOk := b } } := rfl
@[simp] theorem setCrcOk_mem (s : State) (b : Bool) : (s.setCrcOk b).mem = s.mem := rfl
@[simp] theorem setCrcOk_host (s : State) (b : Bool) : (s.setCrcOk b).host = s.host := rfl
@[simp] theorem setCrcOk_turns (s : State) (b : Bool) : (s.setCrcOk b).turns = s.turns := rfl
@[simp] theorem setCrcOk_draws (s : State) (b : Bool) : (s.setCrcOk b).draws = s.draws := rfl

@[simp] theorem setCrcState_cfg (s : State) (c : Word) : (s.setCrcState c).cfg = s.cfg := rfl
@[simp] theorem setCrcState_regs (s : State) (c : Word) : (s.setCrcState c).regs = { s.regs with crcState := c } := rfl
@[simp] theorem setCrcState_mem (s : State) (c : Word) : (s.setCrcState c).mem = s.mem := rfl
@[simp] theorem setCrcState_host (s : State) (c : Word) : (s.setCrcState c).host = s.host := rfl
@[simp] theorem setCrcState_turns (s : State) (c : Word) : (s.setCrcState c).turns = s.turns := rfl
@[simp] theorem setCrcState_draws (s : State) (c : Word) : (s.setCrcState c).draws = s.draws := rfl

@[simp] theorem powerOnReset_cfg (s : State) : (powerOnReset s).cfg = s.cfg := rfl
@[simp] theorem powerOnReset_regs (s : State) : (powerOnReset s).regs = .reset := rfl
@[simp] theorem powerOnReset_mem (s : State) : (powerOnReset s).mem = { cells := [], draw := s.draws } := rfl
@[simp] theorem powerOnReset_host (s : State) : (powerOnReset s).host = s.host := rfl
@[simp] theorem powerOnReset_turns (s : State) : (powerOnReset s).turns = s.turns := rfl
@[simp] theorem powerOnReset_draws (s : State) : (powerOnReset s).draws = s.draws + 1 := rfl

@[simp] theorem softReset_cfg (s : State) : (softReset s).cfg = s.cfg := rfl
@[simp] theorem softReset_regs (s : State) : (softReset s).regs = .reset := rfl
@[simp] theorem softReset_mem (s : State) : (softReset s).mem = s.mem.scramble s.draws s.regs.dst.toNat (min s.flightDestLen (s.cfg.memBytes - s.regs.dst.toNat)) := rfl
@[simp] theorem softReset_host (s : State) : (softReset s).host = s.host := rfl
@[simp] theorem softReset_turns (s : State) : (softReset s).turns = s.turns := rfl
@[simp] theorem softReset_draws (s : State) : (softReset s).draws = s.draws + 1 := rfl

@[simp] theorem received_cfg (v : Word) (s : State) : (received v s).cfg = s.cfg := rfl
@[simp] theorem received_regs (v : Word) (s : State) : (received v s).regs = s.regs := rfl
@[simp] theorem received_mem (v : Word) (s : State) : (received v s).mem = s.mem := rfl
@[simp] theorem received_host (v : Word) (s : State) : (received v s).host = { s.host with lastRead := v } := rfl
@[simp] theorem received_turns (v : Word) (s : State) : (received v s).turns = s.turns := rfl
@[simp] theorem received_draws (v : Word) (s : State) : (received v s).draws = if s.regs.status.busy then s.draws + 1 else s.draws := rfl

@[simp] theorem withFetchWord_cfg (s : State) (n w : Nat) : (s.withFetchWord n w).cfg = s.cfg := rfl
@[simp] theorem withFetchWord_mem (s : State) (n w : Nat) : (s.withFetchWord n w).mem = s.mem := rfl
@[simp] theorem withFetchWord_host (s : State) (n w : Nat) : (s.withFetchWord n w).host = s.host := rfl
@[simp] theorem withFetchWord_draws (s : State) (n w : Nat) : (s.withFetchWord n w).draws = s.draws := rfl
@[simp] theorem withFetchWord_cmd (s : State) (n w : Nat) :
    (s.withFetchWord n w).regs.cmd = BitVec.ofNat 32 (w % 2 ^ n) := rfl
@[simp] theorem withFetchWord_busy (s : State) (n w : Nat) : (s.withFetchWord n w).regs.status.busy = true := rfl
@[simp] theorem withFetchWord_turns (s : State) (n w : Nat) : (s.withFetchWord n w).turns = .engine :: s.turns := rfl

/-- The acknowledge is what a host write of `0x2` to `STATUS` does (30_encoding.md R100, 60_exceptions.md R229). -/
theorem acknowledge_eq_status_write (s : State) :
    acknowledge s = s.setStatus (s.regs.status.hostWrite 0x2) := by
  simp [acknowledge, State.setStatus, Status.hostWrite]

/-- The completion of a loop, case by case. -/
theorem finishLoop_none (c : ErrCode) (m : Memory) (s : State) :
    finishLoop c (m, none) s = finish { s with mem := m } := rfl

theorem finishLoop_some (c : ErrCode) (m : Memory) (k : Nat) (s : State) :
    finishLoop c (m, some k) s = raiseError c k { s with mem := m } := rfl

@[simp] theorem finishLoop_mem (c : ErrCode) (o : Memory × Option Nat) (s : State) : (finishLoop c o s).mem = o.1 := by
  rcases o with ⟨m, _ | k⟩ <;> rfl

@[simp] theorem finishLoop_cfg (c : ErrCode) (o : Memory × Option Nat) (s : State) :
    (finishLoop c o s).cfg = s.cfg := by
  rcases o with ⟨m, _ | k⟩ <;> rfl

@[simp] theorem finishLoop_host (c : ErrCode) (o : Memory × Option Nat) (s : State) :
    (finishLoop c o s).host = s.host := by
  rcases o with ⟨m, _ | k⟩ <;> rfl

@[simp] theorem finishLoop_turns (c : ErrCode) (o : Memory × Option Nat) (s : State) :
    (finishLoop c o s).turns = s.turns := by
  rcases o with ⟨m, _ | k⟩ <;> rfl

@[simp] theorem finishLoop_draws (c : ErrCode) (o : Memory × Option Nat) (s : State) :
    (finishLoop c o s).draws = s.draws := by
  rcases o with ⟨m, _ | k⟩ <;> rfl

end Sys2Proof.Machine
end

