-- ==== Sys2Proof/Laws/Exec.lean ====
section
/-! SUPPORT. What each meaning can answer, once: an error raised on the state as it was, or its effect under the
tests it has passed. And the frame of each shared operation. -/

namespace Sys2Proof.Machine

/-! ## Frames of the shared operations -/

/-- Raising an error changes no register but `STATUS` and `ERR_INFO` (60_exceptions.md R221). -/
theorem raiseError_keepsRegs (c : ErrCode) (n : Nat) (s : State) : KeepsRegsBut [] s (raiseError c n s) := by
  intro r _ h1 h2 _
  cases r <;> first | rfl | contradiction

/-- The completion of a loop changes no register but `STATUS` and `ERR_INFO`, and of `STATUS` neither `WERR` nor
`CRC_OK`. -/
theorem finishLoop_keepsRegs (c : ErrCode) (o : Memory × Option Nat) (s : State) :
    KeepsRegsBut [] s (finishLoop c o s) ∧ (finishLoop c o s).regs.status.werr = s.regs.status.werr ∧
      (finishLoop c o s).regs.status.crcOk = s.regs.status.crcOk := by
  rcases o with ⟨m, _ | k⟩ <;> refine ⟨?_, rfl, rfl⟩ <;> intro r _ h1 h2 _ <;>
    cases r <;> first | rfl | contradiction

/-- The row loop writes nothing outside the output region (43_scanline.md R174). -/
theorem stripLoop_agreeOut (src dst sl h : Nat) (m : Memory) : AgreeOut dst (h * sl) m (stripLoop src dst sl h m).1 :=
  forUpUntil_induction (P := fun y => AgreeOut dst (h * sl) m y) (fun _ _ => rfl) h fun i hi y hy x hx => by
    have : (i + 1) * sl ≤ h * sl := Nat.mul_le_mul_right _ hi
    rw [Nat.succ_mul] at this
    rw [copyRow, read_writeBytes_outside _ _ _ _ (by simp; omega)]
    exact hy x hx

/-- The pixel loop writes nothing outside the output region (44_expand.md R188). -/
theorem expandLoop_agreeOut (k : ColorKind) (src dst pb pl n : Nat) (m : Memory) :
    AgreeOut dst (4 * n) m (expandLoop k src dst pb pl n m).1 :=
  forUpUntil_induction (P := fun y => AgreeOut dst (4 * n) m y) (fun _ _ => rfl) n fun i hi y hy x hx => by
    rw [read_writeBytes_outside _ _ _ _ (by simp; omega)]
    exact hy x hx

@[simp] theorem stripLoop_draw (src dst sl h : Nat) (m : Memory) : (stripLoop src dst sl h m).1.draw = m.draw :=
  forUpUntil_induction (P := fun y : Memory => y.draw = m.draw) rfl h fun _ _ y hy => by rw [copyRow_draw, hy]

@[simp] theorem expandLoop_draw (k : ColorKind) (src dst pb pl n : Nat) (m : Memory) :
    (expandLoop k src dst pb pl n m).1.draw = m.draw :=
  forUpUntil_induction (P := fun y : Memory => y.draw = m.draw) rfl n fun _ _ y hy => by rw [writeBytes_draw, hy]

@[simp] theorem copyPixel_draw (src dst w ow n p oy ox : Nat) (m : Memory) :
    (copyPixel src dst w ow n p oy ox m).draw = m.draw :=
  forUp_draw (f := fun k b => b.write (dst + (oy * ow + ox) * p + k)
    (b.read (src + ((oy * n) * w + ox * n) * p + k))) (fun _ _ => rfl) m p

@[simp] theorem resampleLoop_draw (src dst w ow oh n p : Nat) (m : Memory) :
    (resampleLoop src dst w ow oh n p m).draw = m.draw :=
  forUp_draw (fun _ _ => forUp_draw (fun _ y => copyPixel_draw _ _ _ _ _ _ _ _ y) _ _) _ _

/-- The image loops keep memory canonical and inside, when the output region is inside. -/
theorem good_stripLoop {b : Nat} {m : Memory} (hm : m.Good b) (src dst sl h : Nat) (hd : dst + h * sl ≤ b) :
    (stripLoop src dst sl h m).1.Good b :=
  forUpUntil_induction (P := Memory.Good b) hm h fun i hi y hy => by
    have : (i + 1) * sl ≤ h * sl := Nat.mul_le_mul_right _ hi
    rw [Nat.succ_mul] at this
    exact good_writeBytes hy _ (by simp; omega)

theorem good_expandLoop {b : Nat} {m : Memory} (hm : m.Good b) (k : ColorKind) (src dst pb pl n : Nat)
    (hd : dst + 4 * n ≤ b) : (expandLoop k src dst pb pl n m).1.Good b :=
  forUpUntil_induction (P := Memory.Good b) hm n fun i hi y hy => good_writeBytes hy _ (by simp; omega)

theorem good_resampleLoop {b : Nat} {m : Memory} (hm : m.Good b) (src dst w ow oh n p : Nat)
    (hd : dst + ow * oh * p ≤ b) : (resampleLoop src dst w ow oh n p m).Good b :=
  forUp_induction (fun _ => Memory.Good b) hm oh fun oy hoy _ h1 =>
    forUp_induction (fun _ => Memory.Good b) h1 ow fun ox hox _ h2 =>
      forUp_induction (fun _ => Memory.Good b) h2 p fun c hc _ h3 => good_write h3 _ (by
        have h4 : oy * ow + ox + 1 ≤ ow * oh := by nlinarith
        have h5 := Nat.mul_le_mul_right p h4
        rw [Nat.succ_mul] at h5
        omega)

/-! ## What each meaning can answer -/

/-- An error raised on the state as it was. -/
abbrev Raises (o : Host.Outcome State Fault Refusal) (s : State) : Prop :=
  ∃ c n, c ≠ ErrCode.none ∧ o = .next (raiseError c n s)

theorem execCrcUpdate_cases (s : State) :
    Raises (execCrcUpdate s) s ∨
      InMem s.cfg s.regs.src.toNat s.regs.len.toNat ∧
        execCrcUpdate s = .next (finish (s.setCrcState
          (crcRaw s.regs.crcState (s.mem.readBytes s.regs.src.toNat s.regs.len.toNat)))) := by
  by_cases h : InMem s.cfg s.regs.src.toNat s.regs.len.toNat
  · exact .inr ⟨h, by simp only [execCrcUpdate]; rw [if_neg (not_not_intro h)]⟩
  · exact .inl ⟨.bounds, 0, by decide, by simp only [execCrcUpdate]; rw [if_pos h]⟩

theorem execChunkFrame_cases (s : State) :
    Raises (execChunkFrame s) s ∨
      ChunkFits s ∧ execChunkFrame s =
        .next (finish (frameResults s.regs.src.toNat (s.mem.be32 s.regs.src.toNat).toNat s)) := by
  by_cases h1 : s.cfg.memBytes < s.regs.limit.toNat
  · exact .inl ⟨.bounds, 0, by decide, by simp only [execChunkFrame]; rw [if_pos h1]⟩
  by_cases h2 : s.regs.limit.toNat < s.regs.src.toNat + 12
  · exact .inl ⟨.malformedChunk, 0, by decide, by simp only [execChunkFrame]; rw [if_neg h1, if_pos h2]⟩
  by_cases h3 : s.regs.limit.toNat < s.regs.src.toNat + 12 + (s.mem.be32 s.regs.src.toNat).toNat
  · exact .inl ⟨.malformedChunk, 1, by decide, by simp only [execChunkFrame]; rw [if_neg h1, if_neg h2, if_pos h3]⟩
  · exact .inr ⟨⟨by omega, by omega, by omega⟩, by
      simp only [execChunkFrame]; rw [if_neg h1, if_neg h2, if_neg h3]⟩

theorem execHdrLoad_cases (s : State) :
    Raises (execHdrLoad s) s ∨
      (13 ≤ s.regs.len.toNat ∧ InMem s.cfg s.regs.src.toNat s.regs.len.toNat) ∧
        execHdrLoad s = .next (finish (loadHeader s.regs.src.toNat s)) := by
  by_cases h1 : s.regs.len.toNat < 13
  · exact .inl ⟨.invalidData, 0, by decide, by simp only [execHdrLoad]; rw [if_pos h1]⟩
  by_cases h2 : InMem s.cfg s.regs.src.toNat s.regs.len.toNat
  · exact .inr ⟨⟨by omega, h2⟩, by simp only [execHdrLoad]; rw [if_neg h1, if_neg (not_not_intro h2)]⟩
  · exact .inl ⟨.bounds, 0, by decide, by simp only [execHdrLoad]; rw [if_neg h1, if_pos h2]⟩

/-- The decoder of colour types follows the table of 43_scanline.md R170: each row, and no other code. -/
theorem colorRow_iff (s : State) (k : ColorKind) (p : Nat) :
    s.ColorRow k p ↔ s.regs.colorKind = some k ∧ k.bpp = p := by
  have hc : s.regs.hdrFmt.toNat / 256 % 256 = s.regs.colorType := by
    simp [Regs.colorType, Nat.shiftRight_eq_div_pow]
  rw [State.ColorRow, hc, Regs.colorKind]
  generalize s.regs.colorType = ct
  unfold ColorKind.ofCode
  split <;> cases k <;> simp_all [ColorKind.bpp, eq_comm]

theorem noColorRow_iff (s : State) : s.NoColorRow ↔ s.regs.colorKind = none := by
  have hc : s.regs.hdrFmt.toNat / 256 % 256 = s.regs.colorType := by
    simp [Regs.colorType, Nat.shiftRight_eq_div_pow]
  rw [State.NoColorRow, hc, Regs.colorKind]
  generalize s.regs.colorType = ct
  unfold ColorKind.ofCode
  split <;> simp_all

/-- The answer of `STRIP_ROWS` when none of its argument tests fails. -/
abbrev stripAnswer (s : State) (k : ColorKind) : State :=
  finishLoop .unimplementedFilter
    (stripLoop s.regs.src.toNat s.regs.dst.toNat (s.regs.scanline k) s.regs.hdrHeight.toNat s.mem) s

theorem execStripRows_of_fits {s : State} {k : ColorKind} (hk : s.regs.colorKind = some k) (h : StripFits s k.bpp) :
    execStripRows s = .next (stripAnswer s k) := by
  obtain ⟨hl, hs, hd, ho⟩ :
      s.regs.hdrHeight.toNat * (1 + s.regs.scanline k) ≤ s.regs.len.toNat ∧
        InMem s.cfg s.regs.src.toNat (s.regs.hdrHeight.toNat * (1 + s.regs.scanline k)) ∧
        InMem s.cfg s.regs.dst.toNat (s.regs.hdrHeight.toNat * s.regs.scanline k) ∧
        ¬ Overlap s.regs.src.toNat (s.regs.hdrHeight.toNat * (1 + s.regs.scanline k)) s.regs.dst.toNat
          (s.regs.hdrHeight.toNat * s.regs.scanline k) := h
  simp only [execStripRows, hk]
  rw [if_neg (Nat.not_lt.2 hl), if_neg (by rintro (h | h) <;> contradiction), if_neg ho]

theorem execStripRows_cases (s : State) :
    Raises (execStripRows s) s ∨
      ∃ k, s.regs.colorKind = some k ∧ StripFits s k.bpp ∧ execStripRows s = .next (stripAnswer s k) := by
  cases hk : s.regs.colorKind with
  | none => exact .inl ⟨.invalidColorType, s.regs.colorType, by decide, by simp only [execStripRows, hk]⟩
  | some k =>
    by_cases h1 : s.regs.len.toNat < s.regs.hdrHeight.toNat * (1 + s.regs.scanline k)
    · exact .inl ⟨.truncated, s.regs.len.toNat / (1 + s.regs.scanline k), by decide, by simp only [execStripRows, hk]; rw [if_pos h1]⟩
    by_cases h2 : ¬ InMem s.cfg s.regs.src.toNat (s.regs.hdrHeight.toNat * (1 + s.regs.scanline k)) ∨
        ¬ InMem s.cfg s.regs.dst.toNat (s.regs.hdrHeight.toNat * s.regs.scanline k)
    · exact .inl ⟨.bounds, 0, by decide, by simp only [execStripRows, hk]; rw [if_neg h1, if_pos h2]⟩
    by_cases h3 : Overlap s.regs.src.toNat (s.regs.hdrHeight.toNat * (1 + s.regs.scanline k)) s.regs.dst.toNat
        (s.regs.hdrHeight.toNat * s.regs.scanline k)
    · exact .inl ⟨.overlap, 0, by decide, by simp only [execStripRows, hk]; rw [if_neg h1, if_neg h2, if_pos h3]⟩
    · rw [not_or, not_not, not_not] at h2
      have hf : StripFits s k.bpp := ⟨Nat.not_lt.1 h1, h2.1, h2.2, h3⟩
      exact .inr ⟨k, rfl, hf, execStripRows_of_fits hk hf⟩

/-- The answer of `EXPAND_RGBA` when none of its argument tests fails. -/
abbrev expandAnswer (s : State) (sp : Bool) (k : ColorKind) : State :=
  finishLoop .paletteRange
    (expandLoop k s.regs.src.toNat s.regs.dst.toNat (s.regs.palette sp (s.regs.pixels * k.bpp)).1
      (s.regs.palette sp (s.regs.pixels * k.bpp)).2 s.regs.pixels s.mem) s

theorem execExpandRgba_of_fits {s : State} {sp : Bool} {k : ColorKind} (hk : s.regs.colorKind = some k)
    (h : ExpandFits s sp k k.bpp) : execExpandRgba sp s = .next (expandAnswer s sp k) := by
  obtain ⟨hs, hd, ho, hp⟩ :
      InMem s.cfg s.regs.src.toNat (s.regs.pixels * k.bpp) ∧ InMem s.cfg s.regs.dst.toNat (4 * s.regs.pixels) ∧
        ¬ Overlap s.regs.src.toNat (s.regs.pixels * k.bpp) s.regs.dst.toNat (4 * s.regs.pixels) ∧
        (k = .indexed →
          InMem s.cfg (s.regs.palette sp (s.regs.pixels * k.bpp)).1 (s.regs.palette sp (s.regs.pixels * k.bpp)).2 ∧
          ¬ Overlap (s.regs.palette sp (s.regs.pixels * k.bpp)).1 (s.regs.palette sp (s.regs.pixels * k.bpp)).2
            s.regs.dst.toNat (4 * s.regs.pixels)) := h
  simp only [execExpandRgba, hk]
  rw [if_neg (by rintro (h | h) <;> contradiction), if_neg fun h => h.2 (hp h.1).1, if_neg ho,
    if_neg fun h => (hp h.1).2 h.2]

theorem execExpandRgba_cases (sp : Bool) (s : State) :
    Raises (execExpandRgba sp s) s ∨
      ∃ k, s.regs.colorKind = some k ∧ ExpandFits s sp k k.bpp ∧
        execExpandRgba sp s = .next (expandAnswer s sp k) := by
  cases hk : s.regs.colorKind with
  | none => exact .inl ⟨.invalidColorType, s.regs.colorType, by decide, by simp only [execExpandRgba, hk]⟩
  | some k =>
    by_cases h1 : ¬ InMem s.cfg s.regs.src.toNat (s.regs.pixels * k.bpp) ∨
        ¬ InMem s.cfg s.regs.dst.toNat (4 * s.regs.pixels)
    · exact .inl ⟨.bounds, 0, by decide, by simp only [execExpandRgba, hk]; rw [if_pos h1]⟩
    by_cases h2 : k = .indexed ∧ ¬ InMem s.cfg (s.regs.palette sp (s.regs.pixels * k.bpp)).1
        (s.regs.palette sp (s.regs.pixels * k.bpp)).2
    · exact .inl ⟨.bounds, 0, by decide, by simp only [execExpandRgba, hk]; rw [if_neg h1, if_pos h2]⟩
    by_cases h3 : Overlap s.regs.src.toNat (s.regs.pixels * k.bpp) s.regs.dst.toNat (4 * s.regs.pixels)
    · exact .inl ⟨.overlap, 0, by decide, by simp only [execExpandRgba, hk]; rw [if_neg h1, if_neg h2, if_pos h3]⟩
    by_cases h4 : k = .indexed ∧ Overlap (s.regs.palette sp (s.regs.pixels * k.bpp)).1
        (s.regs.palette sp (s.regs.pixels * k.bpp)).2 s.regs.dst.toNat (4 * s.regs.pixels)
    · exact .inl ⟨.overlap, 0, by decide, by
        simp only [execExpandRgba, hk]; rw [if_neg h1, if_neg h2, if_neg h3, if_pos h4]⟩
    · rw [not_or, not_not, not_not] at h1
      have hf : ExpandFits s sp k k.bpp :=
        ⟨h1.1, h1.2, h3, fun hi => ⟨by_contra fun h => h2 ⟨hi, h⟩, fun h => h4 ⟨hi, h⟩⟩⟩
      exact .inr ⟨k, rfl, hf, execExpandRgba_of_fits hk hf⟩

/-- The answer of `RESAMPLE` when none of its argument tests fails. -/
abbrev resampleAnswer (s : State) (pix : Nat) : State :=
  finish { s with
    mem := resampleLoop s.regs.src.toNat s.regs.dst.toNat s.regs.hdrWidth.toNat s.regs.thumbW s.regs.thumbH
      s.regs.stepSize.toNat pix s.mem
    regs := { s.regs with outW := BitVec.ofNat 32 s.regs.thumbW, outH := BitVec.ofNat 32 s.regs.thumbH } }

theorem execResample_of_fits {s : State} {pix : Nat} (h : ResampleFits s pix) :
    execResample pix s = .next (resampleAnswer s pix) := by
  obtain ⟨hn, h1, h4, hs, hd, ho⟩ :
      s.regs.stepSize.toNat ≠ 0 ∧ 1 ≤ pix ∧ pix ≤ 4 ∧ InMem s.cfg s.regs.src.toNat (s.regs.pixels * pix) ∧
        InMem s.cfg s.regs.dst.toNat (s.regs.thumbW * s.regs.thumbH * pix) ∧
        ¬ Overlap s.regs.src.toNat (s.regs.pixels * pix) s.regs.dst.toNat (s.regs.thumbW * s.regs.thumbH * pix) := h
  simp only [execResample]
  rw [if_neg hn, if_neg (by omega), if_neg (by rintro (h | h) <;> contradiction), if_neg ho]

theorem execResample_cases (pix : Nat) (s : State) :
    Raises (execResample pix s) s ∨ ResampleFits s pix ∧ execResample pix s = .next (resampleAnswer s pix) := by
  by_cases h1 : s.regs.stepSize.toNat = 0
  · exact .inl ⟨.badArg, 0, by decide, by simp only [execResample]; rw [if_pos h1]⟩
  by_cases h2 : pix = 0 ∨ 4 < pix
  · exact .inl ⟨.badArg, 1, by decide, by simp only [execResample]; rw [if_neg h1, if_pos h2]⟩
  by_cases h3 : ¬ InMem s.cfg s.regs.src.toNat (s.regs.pixels * pix) ∨
      ¬ InMem s.cfg s.regs.dst.toNat (s.regs.thumbW * s.regs.thumbH * pix)
  · exact .inl ⟨.bounds, 0, by decide, by simp only [execResample]; rw [if_neg h1, if_neg h2, if_pos h3]⟩
  by_cases h4 : Overlap s.regs.src.toNat (s.regs.pixels * pix) s.regs.dst.toNat (s.regs.thumbW * s.regs.thumbH * pix)
  · exact .inl ⟨.overlap, 0, by decide, by simp only [execResample]; rw [if_neg h1, if_neg h2, if_neg h3, if_pos h4]⟩
  · rw [not_or, not_not, not_not] at h3
    have hf : ResampleFits s pix := ⟨h1, by omega, by omega, h3.1, h3.2, h4⟩
    exact .inr ⟨hf, execResample_of_fits hf⟩

end Sys2Proof.Machine
end

