-- ==== Sys2Proof/Laws/HostPort.lean ====
section
/-! SUPPORT. What a host access can answer, once, and its equations for each kind of place. -/

namespace Sys2Proof.Machine

/-- A register access has a meaning exactly in this form (10_state.md R49). -/
theorem refusal_reg_none (c : Config) (off width : Nat) :
    (Port.reg off).refusal c width = none ↔ width = 32 ∧ off % 4 = 0 ∧ off < 0x1000 := by
  simp only [Port.refusal]
  split_ifs with h1 h2
  · exact ⟨fun h => by simp at h, fun h => by omega⟩
  · exact ⟨fun _ => ⟨h1.1, h1.2, by omega⟩, fun _ => rfl⟩
  · exact ⟨fun h => by simp at h, fun h => absurd ⟨h.1, h.2.1⟩ h1⟩

/-- A buffer access has a meaning exactly in this form (20_memory.md R61). -/
theorem refusal_buf_none (c : Config) (a width : Nat) : (Port.buf a).refusal c width = none ↔ BufForm c a width := by
  simp only [Port.refusal]
  split_ifs with h <;> simp [h]

theorem hostWrite_reg (s : State) (v : Word) {off : Nat} (h4 : off % 4 = 0) (h : off < 0x1000) :
    hostWrite (.port (.reg off)) 32 v s = .next (writeOffset off v s) := by
  have := (refusal_reg_none s.cfg off 32).mpr ⟨rfl, h4, h⟩
  simp [hostWrite, Target.resolve, this]

theorem hostRead_reg (s : State) {off : Nat} (h4 : off % 4 = 0) (h : off < 0x1000) :
    hostRead (.port (.reg off)) 32 s = .next (received (s.seenOffset off) s) := by
  have := (refusal_reg_none s.cfg off 32).mpr ⟨rfl, h4, h⟩
  simp [hostRead, Target.resolve, this]

theorem hostWrite_buf {s : State} {a width : Nat} (v : Word) (h : BufForm s.cfg a width) :
    hostWrite (.port (.buf a)) width v s = .next (writeBuf a width v s) := by
  have := (refusal_buf_none s.cfg a width).mpr h
  simp [hostWrite, Target.resolve, this]

theorem hostRead_buf {s : State} {a width : Nat} (h : BufForm s.cfg a width) :
    hostRead (.port (.buf a)) width s = .next (received (s.seenBuf a width) s) := by
  have := (refusal_buf_none s.cfg a width).mpr h
  simp [hostRead, Target.resolve, this]

/-- A host write that goes through went to a register, in the register form, or to memory, in the memory form. -/
theorem hostWrite_cases {t : Target} {width : Nat} {v : Word} {s u : State} (h : hostWrite t width v s = .next u) :
    (∃ off, t.resolve s.cfg = some (.reg off) ∧ width = 32 ∧ off % 4 = 0 ∧ off < 0x1000 ∧ u = writeOffset off v s) ∨
      ∃ a, t.resolve s.cfg = some (.buf a) ∧ BufForm s.cfg a width ∧ u = writeBuf a width v s := by
  unfold hostWrite at h
  cases hp : t.resolve s.cfg with
  | none => simp [hp] at h
  | some p =>
    cases hr : p.refusal s.cfg width with
    | some why => simp [hp, hr] at h
    | none =>
      cases p with
      | reg off =>
        obtain ⟨h1, h2, h3⟩ := (refusal_reg_none _ _ _).mp hr
        exact .inl ⟨off, rfl, h1, h2, h3, by simpa [hp, hr] using h.symm⟩
      | buf a => exact .inr ⟨a, rfl, (refusal_buf_none _ _ _).mp hr, by simpa [hp, hr] using h.symm⟩

/-- A host read that goes through only hands the host a value. -/
theorem hostRead_cases {t : Target} {width : Nat} {s u : State} (h : hostRead t width s = .next u) :
    ∃ v, u = received v s := by
  unfold hostRead at h
  cases hp : t.resolve s.cfg with
  | none => simp [hp] at h
  | some p =>
    cases hr : p.refusal s.cfg width with
    | some why => simp [hp, hr] at h
    | none => cases p <;> exact ⟨_, by simpa [hp, hr] using h.symm⟩

/-! ## What a write to an offset does, kind by kind -/

theorem writeOffset_ctrl (v : Word) (s : State) : writeOffset 0x004 v s = writeCtrl v s := rfl

theorem writeOffset_status (v : Word) (s : State) :
    writeOffset 0x008 v s = s.setStatus (s.regs.status.hostWrite v) := rfl

theorem writeOffset_busy {off : Nat} (v : Word) {s : State} (hc : off ≠ 0x004) (hs : off ≠ 0x008)
    (hb : s.regs.status.busy = true) : writeOffset off v s = dropWrite s := by
  unfold writeOffset
  rw [if_neg (show off ≠ Reg.ctrl.offset from hc), if_neg (show off ≠ Reg.status.offset from hs), if_pos hb]

theorem writeOffset_cmd (v : Word) {s : State} (hb : s.regs.status.busy = false) :
    writeOffset 0x00C v s = startCommand v s := by
  unfold writeOffset
  rw [if_neg (by decide), if_neg (by decide), if_neg (by simp [hb]), if_pos (by decide)]

theorem writeOffset_put (r : Reg) (v : Word) {s : State} (hb : s.regs.status.busy = false) (h1 : r ≠ .ctrl)
    (h2 : r ≠ .status) (h3 : r ≠ .cmd) :
    writeOffset r.offset v s = { s with regs := s.regs.put r v } := by
  unfold writeOffset
  have inj : ∀ q : Reg, r.offset = q.offset → r = q := fun q h => by
    have := congrArg Reg.ofOffset h
    simpa using this
  rw [if_neg fun h => h1 (inj _ h), if_neg fun h => h2 (inj _ h), if_neg (by simp [hb]), if_neg fun h => h3 (inj _ h)]
  simp

theorem writeOffset_unmapped {off : Nat} (v : Word) {s : State} (hb : s.regs.status.busy = false)
    (h : Reg.ofOffset off = none) : writeOffset off v s = s := by
  have ne : ∀ q : Reg, off ≠ q.offset := fun q hq => by simp [hq] at h
  unfold writeOffset
  rw [if_neg (ne _), if_neg (ne _), if_neg (by simp [hb]), if_neg (ne _), h]

/-! ## The two bits of the interrupt (60_exceptions.md R230) -/

/-- `STATUS` bit 1, as it reads, is `DONE`. -/
theorem get_status_done (g : Regs) : (g.get .status).getLsbD 1 = g.status.done := by
  rw [show g.get .status = g.status.word from rfl, status_word_getLsbD]
  simp

/-- `CTRL` bit 0, as it reads, is `IRQ_EN`. -/
theorem get_ctrl_irqEn (g : Regs) : (g.get .ctrl).getLsbD 0 = g.ctrl.irqEn := by
  rw [show g.get .ctrl = flag g.ctrl.irqEn 0 from rfl, flag_getLsbD _ (by decide)]
  simp

/-! ## Where a read has no exact value -/

/-- A command is in flight only while `BUSY = 1`. -/
theorem busy_of_inFlight {s : State} {i : Instr} (h : s.inFlight = some i) : s.regs.status.busy = true := by
  unfold State.inFlight at h
  split at h
  · assumption
  · cases h

/-- Where a byte read is a free draw, in the terms claims use (20_memory.md R67). -/
theorem inFlightDest_iff (s : State) (x : Nat) : s.InFlightDest x ↔ s.InFlightRegion x := by
  unfold State.InFlightDest State.InFlightRegion State.flightDestLen
  cases s.inFlight with
  | none => simp
  | some i => simp

/-- A byte as the host sees it: exact outside the destination region, a free draw inside it. -/
theorem seenByte_exact {s : State} {x : Nat} (h : ¬ s.InFlightRegion x) : s.seenByte x = s.mem.read x :=
  if_neg fun c => h ((inFlightDest_iff s x).1 c)

theorem seenByte_free {s : State} {x : Nat} (h : s.InFlightRegion x) : s.seenByte x = Config.freeByte s.draws x :=
  if_pos ((inFlightDest_iff s x).2 h)

/-- Where a register read is a free draw (10_state.md R51). -/
theorem unspecified_iff (s : State) (r : Reg) :
    s.unspecified r = true ↔
      ∃ i, s.inFlight = some i ∧ (r ∈ writeSet i ∨ (r = .crcResult ∧ Reg.crcState ∈ writeSet i)) := by
  unfold State.unspecified
  cases s.inFlight with
  | none => simp
  | some i => simp

end Sys2Proof.Machine
end

