-- ==== Sys2Proof/Laws/PerInstr.lean ====
section
/-! SUPPORT. Statements about every command as syntax, one lemma for each constructor. -/

/-- The command's word selects its own row of opcode_table.json: `encode i & mask = match` (30_encoding.md R101). -/
def Sys2Proof.Laws.EncodeMatchesRow.Statement (i : Sys2Proof.Instr) : Prop :=
  i.wellFormed = true → Sys2Proof.encode i &&& i.rowMask = i.rowMatch

namespace Sys2Proof.Laws.EncodeMatchesRow

theorem nop : Statement .nop := fun _ => rfl
theorem crcInit : Statement .crcInit := fun _ => rfl
theorem crcUpdate : Statement .crcUpdate := fun _ => rfl
theorem crcCheck : Statement .crcCheck := fun _ => rfl
theorem chunkFrame : Statement .chunkFrame := fun _ => rfl
theorem typeDecode : Statement .typeDecode := fun _ => rfl
theorem hdrLoad : Statement .hdrLoad := fun _ => rfl
theorem stripRows : Statement .stripRows := fun _ => rfl

theorem expandRgba (sp : Bool) : Statement (.expandRgba sp) := by
  intro _
  cases sp <;> rfl

theorem resample (pix : Nat) : Statement (.resample pix) := by
  intro h
  have : pix < 8 := by simpa [Instr.wellFormed] using h
  interval_cases pix <;> rfl

end Sys2Proof.Laws.EncodeMatchesRow
end

