-- ==== Sys2Proof/Tests/Slice0.lean ====
section
/-! SUPPORT. Tests and witnesses. The expected results of the tests are the vectors of 95_test_vectors.md and words
written out from the table of 30_encoding.md R94; each test names its vector. After them, one witness for each
obligation that has hypotheses: a concrete state and operands that meet them all. -/

namespace Sys2Proof.Tests

open Sys2Proof Sys2Proof.Machine

/-! ## Helpers -/

/-- A reset block with these registers, and these bytes written to memory. -/
def block (r : Regs) (ps : List (Nat × List Byte)) : State :=
  { State.reset with regs := r, mem := ps.foldl (fun m p => m.writeBytes p.1 p.2) State.reset.mem }

/-- The state an outcome goes to; the reset state, whose `DONE` is 0, if it stops. -/
def nextOf (o : Host.Outcome State Fault Refusal) : State :=
  match o with
  | .next t => t
  | .fault _ => State.reset
  | .refused _ => State.reset

/-- `STATUS` and `ERR_INFO` after an outcome. -/
def report (o : Host.Outcome State Fault Refusal) : Word × Word :=
  ((nextOf o).regs.get .status, (nextOf o).regs.get .errInfo)

/-- Bytes of memory after an outcome. -/
def bytesOf (o : Host.Outcome State Fault Refusal) (a n : Nat) : List Byte := (nextOf o).mem.readBytes a n

/-- An outcome that is computed to be a next state with a property is one. -/
theorem next_of {o : Host.Outcome State Fault Refusal} {P : State → Prop} [DecidablePred P]
    (h : (match o with | .next t => decide (P t) | .fault _ => false | .refused _ => false) = true) :
    ∃ t, o = .next t ∧ P t := by
  cases o with
  | next t => exact ⟨t, rfl, of_decide_eq_true h⟩
  | fault r => cases h
  | refused r => cases h

/-- An outcome that is computed to be a refusal is one. -/
theorem refused_of {o : Host.Outcome State Fault Refusal}
    (h : (match o with | .next _ => false | .fault _ => false | .refused _ => true) = true) :
    ∃ why, o = .refused why := by
  cases o with
  | next t => cases h
  | fault r => cases h
  | refused r => exact ⟨r, rfl⟩

/-! ## Well-formedness and decoding -/

/-- The one check of `Instr.wellFormed`: `PIX` has three bits (30_encoding.md R92). -/
theorem test_wellFormed_refuses_pix_8 : (Instr.resample 8).wellFormed = false := by decide
theorem test_wellFormed_accepts_pix_7 : (Instr.resample 7).wellFormed = true := by decide

/-- The rows of 30_encoding.md R94, each word written out from its OP and OPT. -/
theorem test_decode_nop : decode 0x00000000 = .ok .nop := by decide
theorem test_decode_crcInit : decode 0x00000001 = .ok .crcInit := by decide
theorem test_decode_crcUpdate : decode 0x00000002 = .ok .crcUpdate := by decide
theorem test_decode_crcCheck : decode 0x00000003 = .ok .crcCheck := by decide
theorem test_decode_chunkFrame : decode 0x00000010 = .ok .chunkFrame := by decide
/-- V-DE-13. -/
theorem test_decode_typeDecode : decode 0x00000011 = .ok .typeDecode := by decide
theorem test_decode_hdrLoad : decode 0x00000012 = .ok .hdrLoad := by decide
theorem test_decode_stripRows : decode 0x00000020 = .ok .stripRows := by decide
/-- `OP` 0x30 in bits 7:0, `SP` in bit 8. -/
theorem test_decode_expandRgba : decode 0b00000000000000000000000000110000#32 = .ok (.expandRgba false) := by decide
/-- V-DE-9. -/
theorem test_decode_expandRgba_sp : decode 0b00000000000000000000000100110000#32 = .ok (.expandRgba true) := by decide
/-- `OP` 0x40 in bits 7:0, `PIX` in bits 10:8. -/
theorem test_decode_resample_p3 : decode 0b00000000000000000000001101000000#32 = .ok (.resample 3) := by decide
/-- V-DE-11. -/
theorem test_decode_resample_p7 : decode 0x00000740 = .ok (.resample 7) := by decide
/-- V-DE-12. -/
theorem test_decode_resample_p0 : decode 0x00000040 = .ok (.resample 0) := by decide
/-- V-DE-2, V-DE-3, V-DE-4. -/
theorem test_decode_unknown_ops : decode 0x00000004 = .error (.unknownOp 0x04) ∧
    decode 0x00000050 = .error (.unknownOp 0x50) ∧ decode 0x000000FF = .error (.unknownOp 0xFF) := by decide
/-- V-DE-5, V-DE-8, V-DE-10. -/
theorem test_decode_undefined_options : decode 0x00000101 = .error (.undefinedOption 0x01) ∧
    decode 0x00000230 = .error (.undefinedOption 0x02) ∧ decode 0x00000840 = .error (.undefinedOption 0x08) := by decide
/-- V-DE-6, V-DE-7. -/
theorem test_decode_reserved_bits : decode 0x00010000 = .error .reservedBits ∧
    decode 0x80000010 = .error .reservedBits := by decide

/-! ## Commands -/

/-- V-DE-1, through the fetch of the first command. -/
theorem test_nop : report (step (State.reset.withFetchWord 32 0x00000000)) = (0x00000002, 0) := by decide

/-- V-DE-5: an illegal word changes nothing but `STATUS` and `ERR_INFO`. -/
theorem test_illegal : report (step (State.reset.withFetchWord 32 0x00000101)) = (0x00000106, 0) := by decide

/-- V-CRC-3: the bit trace of the first byte of the document's example. -/
theorem test_crc_bit_trace :
    (List.range 8).map (fun n => crcShifts 0xFFFFFFCE (n + 1)) =
      [0x7FFFFFE7, 0xD2477CD3, 0x849B3D49, 0xAFF51D84, 0x57FA8EC2, 0x2BFD4761, 0xF8462090, 0x7C231048] := by decide
/-- V-CRC-4. -/
theorem test_crc32_of_iend : crc32 [0x49, 0x45, 0x4E, 0x44] = 0xAE426082 := by decide +kernel

/-- V-CC-1. -/
theorem test_crcInit :
    let s := block { Regs.reset with crcState := 0x12345678 } []
    report (exec .crcInit s) = (0x00000002, 0) ∧ (nextOf (exec .crcInit s)).regs.crcState = 0xFFFFFFFF := by decide

/-- V-CC-10, first command. -/
theorem test_crcUpdate :
    let s := block { Regs.reset with len := 4 } [(0, [0x31, 0x32, 0x33, 0x34])]
    report (exec .crcUpdate s) = (0x00000002, 0) ∧
      (nextOf (exec .crcUpdate s)).regs.crcState = 0x641C1F5C := by decide +kernel
/-- V-CC-7. -/
theorem test_crcUpdate_bounds :
    let s := block { Regs.reset with crcState := 0x5A5A5A5A, src := 0xFF, len := 2 } []
    report (exec .crcUpdate s) = (0x00000206, 0) ∧
      (nextOf (exec .crcUpdate s)).regs.crcState = 0x5A5A5A5A := by decide

/-- V-CC-3. -/
theorem test_crcCheck_match :
    report (exec .crcCheck (block { Regs.reset with crcState := 0x340BC6D9, crcExpect := 0xCBF43926 } [])) =
      (0x00000012, 0) := by decide
/-- V-CC-4: a flag left over from before is cleared. -/
theorem test_crcCheck_mismatch :
    report (exec .crcCheck (block { Regs.reset with
      crcState := 0x340BC6D9, crcExpect := 0xCBF43927
      status := { Regs.reset.status with crcOk := true } } [])) = (0x00000002, 0) := by decide

/-- The bytes of the IEND chunk of section 2.3. -/
def iend : List Byte := [0x00, 0x00, 0x00, 0x00, 0x49, 0x45, 0x4E, 0x44, 0xAE, 0x42, 0x60, 0x82]

/-- The chunk of V-CF-13: "tEXt" with payload "ab". -/
def text : List Byte := [0x00, 0x00, 0x00, 0x02, 0x74, 0x45, 0x58, 0x74, 0x61, 0x62, 0x33, 0x79, 0x84, 0x1E]

/-- V-CF-13. -/
theorem test_chunkFrame :
    let o := exec .chunkFrame (block { Regs.reset with limit := 0x100 } [(0, text)])
    report o = (0x00000012, 0) ∧ (nextOf o).regs.chLen = 2 ∧ (nextOf o).regs.chType = 0x74455874 ∧
      (nextOf o).regs.chPayload = 8 ∧ (nextOf o).regs.chCrc = 0x3379841E ∧ (nextOf o).regs.chNext = 0x0E ∧
      (nextOf o).regs.crcState = 0xCC867BE1 ∧ (nextOf o).regs.chClass = 0x0E := by decide +kernel
/-- V-CF-14. -/
theorem test_chunkFrame_malformed :
    let s := block { Regs.reset with src := 0x20, limit := 0x2C, chLen := 0x55, chClass := 0x99, crcState := 0x1234 }
      [(0x20, [0x00, 0x00, 0x00, 0x01, 0x49, 0x45, 0x4E, 0x44, 0xAE, 0x42, 0x60, 0x82])]
    let o := exec .chunkFrame s
    report o = (0x00000406, 1) ∧ (nextOf o).regs.chLen = 0x55 ∧ (nextOf o).regs.chClass = 0x99 ∧
      (nextOf o).regs.crcState = 0x1234 := by decide

/-- V-TD-2. -/
theorem test_typeDecode_idat :
    (nextOf (exec .typeDecode (block { Regs.reset with chType := 0x49444154, chClass := 0x08 } []))).regs.chClass =
      0x2F := by decide
/-- V-TD-8. -/
theorem test_typeDecode_lower_case_byte_2 :
    (nextOf (exec .typeDecode (block { Regs.reset with chType := 0x49486452 } []))).regs.chClass = 0x03 := by decide

/-- V-HL-8. -/
theorem test_hdrLoad :
    let o := exec .hdrLoad (block { Regs.reset with src := 0x10, len := 13 }
      [(0x10, [0xFF, 0xFF, 0xFF, 0xFF, 0x00, 0x00, 0x00, 0x00, 0x10, 0x05, 0x01, 0x02, 0x03])])
    report o = (0x00000002, 0) ∧ (nextOf o).regs.hdrWidth = 0xFFFFFFFF ∧ (nextOf o).regs.hdrHeight = 0 ∧
      (nextOf o).regs.hdrFmt = 0x02010510 ∧ (nextOf o).regs.hdrInterlace = 3 := by decide
/-- V-HL-7. -/
theorem test_hdrLoad_short_before_bounds :
    report (exec .hdrLoad (block { Regs.reset with src := 0xF4 } [])) = (0x00000506, 0) := by decide

/-- `STRIP_ROWS` of a stream at 0x40 to `dst`, for colour type `ct` and an image of `w` by `h` pixels. -/
def strip (ct : Nat) (w h dst : Word) (stream : List Byte) : Host.Outcome State Fault Refusal :=
  exec .stripRows (block { Regs.reset with
      src := 0x40, dst := dst, len := BitVec.ofNat 32 stream.length, hdrWidth := w, hdrHeight := h
      hdrFmt := BitVec.ofNat 32 (ct * 256 + 8) }
    [(0x80, [0xEE, 0xEE, 0xEE, 0xEE, 0xEE, 0xEE, 0xEE, 0xEE, 0xEE]), (0x40, stream)])

/-- V-SR-6, V-SR-2, V-SR-5, V-SR-4 and V-SR-3: colour types 0, 2, 3, 4 and 6. -/
theorem test_stripRows :
    (let o := strip 0 2 2 0x80 [0x00, 0x0A, 0x0B, 0x00, 0x0C, 0x0D, 0x99];
      report o = (0x00000002, 0) ∧ bytesOf o 0x80 5 = [0x0A, 0x0B, 0x0C, 0x0D, 0xEE]) ∧
    bytesOf (strip 2 1 1 0x80 [0x00, 0xFF, 0x00, 0x00]) 0x80 4 = [0xFF, 0x00, 0x00, 0xEE] ∧
    bytesOf (strip 3 3 1 0x80 [0x00, 0x02, 0x01, 0x00]) 0x80 4 = [0x02, 0x01, 0x00, 0xEE] ∧
    bytesOf (strip 4 2 1 0x80 [0x00, 0x10, 0x20, 0x30, 0x40]) 0x80 5 = [0x10, 0x20, 0x30, 0x40, 0xEE] ∧
    bytesOf (strip 6 1 2 0x80 [0x00, 0x01, 0x02, 0x03, 0x04, 0x00, 0x05, 0x06, 0x07, 0x08]) 0x80 9 =
      [0x01, 0x02, 0x03, 0x04, 0x05, 0x06, 0x07, 0x08, 0xEE] := by decide
/-- V-SR-13, V-SR-7, V-SR-17 and V-SR-9: one error of each code but `E_BOUNDS`. -/
theorem test_stripRows_errors :
    report (strip 7 2 2 0x80 [0x00, 0x0A, 0x0B, 0x00, 0x0C, 0x0D]) = (0x00000606, 7) ∧
    report (strip 0 2 2 0x80 [0x00, 0x0A, 0x0B, 0x00, 0x0C]) = (0x00000806, 1) ∧
    report (strip 0 2 2 0x43 [0x00, 0x0A, 0x0B, 0x00, 0x0C, 0x0D]) = (0x00000306, 0) ∧
    (let o := strip 0 2 2 0x80 [0x00, 0x0A, 0x0B, 0x01, 0x0C, 0x0D];
      report o = (0x00000706, 1) ∧ bytesOf o 0x80 5 = [0x0A, 0x0B, 0xEE, 0xEE, 0xEE]) := by decide

/-- V-EX-7. -/
theorem test_expandRgba_indexed :
    let o := exec (.expandRgba false) (block { Regs.reset with
        src := 0x40, dst := 0x80, palBase := 0x10, palLen := 9, hdrWidth := 3, hdrHeight := 1, hdrFmt := 0x308 }
      [(0x40, [0x00, 0x01, 0x02]), (0x10, [0xAA, 0xBB, 0xCC, 0x11, 0x22, 0x33, 0x44, 0x55, 0x66])])
    report o = (0x00000002, 0) ∧
      bytesOf o 0x80 12 = [0xAA, 0xBB, 0xCC, 0xFF, 0x11, 0x22, 0x33, 0xFF, 0x44, 0x55, 0x66, 0xFF] := by decide
/-- V-EX-9: the palette is the input itself. -/
theorem test_expandRgba_self_lookup :
    let o := exec (.expandRgba true) (block { Regs.reset with
        src := 0x40, dst := 0x80, hdrWidth := 6, hdrHeight := 1, hdrFmt := 0x308 }
      [(0x40, [0x01, 0x00, 0x09, 0x08, 0x07, 0x06]), (0x88, [0xEE, 0xEE, 0xEE, 0xEE])])
    report o = (0x00000A06, 2) ∧
      bytesOf o 0x80 12 = [0x08, 0x07, 0x06, 0xFF, 0x01, 0x00, 0x09, 0xFF, 0xEE, 0xEE, 0xEE, 0xEE] := by decide

/-- V-RS-12: two bytes a pixel, an odd size. -/
theorem test_resample :
    let o := exec (.resample 2) (block { Regs.reset with
        src := 0x40, dst := 0xC0, stepSize := 2, hdrWidth := 3, hdrHeight := 3, outW := 0x55, outH := 0x55 }
      [(0x40, [0x00, 0x01, 0x10, 0x11, 0x20, 0x21, 0x30, 0x31, 0x40, 0x41, 0x50, 0x51, 0x60, 0x61, 0x70, 0x71, 0x80,
        0x81])])
    report o = (0x00000002, 0) ∧ (nextOf o).regs.outW = 1 ∧ (nextOf o).regs.outH = 1 ∧
      bytesOf o 0xC0 2 = [0x00, 0x01] := by decide
/-- V-RS-7: the step is tested before the pixel size. -/
theorem test_resample_step_first :
    report (exec (.resample 0) (block { Regs.reset with src := 0x40, dst := 0xC0, hdrWidth := 4, hdrHeight := 4 } [])) =
      (0x00000906, 0) := by decide

/-! ## The host port -/

/-- V-ST-3. -/
theorem test_ack :
    report (hostExec stmtACK (nextOf (step (State.reset.withFetchWord 32 0x00000004)))) = (0x00000104, 0) := by decide
/-- V-ST-9, the run in which the write comes first, at the state after `WR CMD`. -/
theorem test_write_while_busy :
    let t := nextOf (hostExec (stmtWR .src 5) (State.reset.withFetchWord 32 0x00000000))
    t.regs.src = 0 ∧ t.regs.status.werr = true := by decide
/-- V-ST-12. -/
theorem test_soft_reset_discards_the_enable :
    let s := block { Regs.reset with ctrl := { irqEn := true } } []
    (nextOf (hostExec (stmtWR .ctrl 3) s)).regs.ctrl.irqEn = false := by decide
/-- V-ST-13 and V-ST-14. -/
theorem test_byte_order :
    (nextOf (hostExec (stmtWW 0x10 0x44332211) State.reset)).mem.readBytes 0x10 4 = [0x11, 0x22, 0x33, 0x44] ∧
    (nextOf (hostExec (stmtRW 0) (block .reset [(0, [0x00, 0x00, 0x00, 0x0D])]))).host.lastRead = 0x0D000000 := by
  decide

/-! ## Witnesses -/

theorem witness_DecodeEncodeGivesBackTheCommand : (Instr.resample 7).wellFormed = true := by decide

theorem witness_EncodeDecodeGivesBackTheWord : decode 0x00000740 = .ok (.resample 7) := by decide

theorem witness_LegalWordsSelectExactlyOneRow :
    (∃ w i, decode w = .ok i) ∧ (∃ (w : Word) (i : Instr), w &&& i.rowMask = i.rowMatch) ∧
      ∃ w e, decode w = .error e :=
  ⟨⟨0x740, .resample 7, by decide⟩, ⟨0x130, .expandRgba false, by decide⟩, ⟨0x840, .undefinedOption 8, by decide⟩⟩

theorem witness_IllegalWordsAreThoseOfTheRule :
    ∃ (w : Word) (s : State) (e : Illegal), s.regs.cmd = w ∧ decode w = .error e :=
  ⟨0x41, block { Regs.reset with cmd := 0x41 } [], .unknownOp 0x41, by decide⟩

theorem witness_EngineTurnRunsTheDecodedCommand :
    (∃ (s : State) (ts : List Turn) (i : Instr), s.turns = .engine :: ts ∧ s.regs.status.busy = true ∧
      decode s.regs.cmd = .ok i) ∧
    ∃ (s : State) (i : Instr), s.turns = [] ∧ s.regs.status.busy = true ∧ decode s.regs.cmd = .ok i :=
  ⟨⟨State.reset.withFetchWord 32 0x740, [], .resample 7, by decide⟩, ⟨startCommand 0x130 .reset, .expandRgba true, by decide⟩⟩

/-- The host with a command to start, and the turns to start and complete it. -/
def starting : State :=
  { State.reset with
    turns := [.host, .engine], host := { State.reset.host with program := [stmtCommand (.resample 7)] } }

theorem witness_WrittenCommandRunsAtTheNextEngineTurn :
    ∃ (s : State) (i : Instr) (rest : List HostStmt) (ts : List Turn), i.wellFormed = true ∧
      s.regs.status.busy = false ∧ s.turns = .host :: .engine :: ts ∧
      s.host.program = .write (.port (.reg 0x00C)) 32 (encode i) :: rest :=
  ⟨starting, .resample 7, [], [], by decide⟩

theorem witness_EveryCommandCompletes :
    ∃ s : State, s.regs.status.err = false ∧ s.regs.status.errcode = .none ∧ s.regs.errInfo = 0 :=
  ⟨startCommand 0 .reset, by decide⟩

theorem witness_CommandsChangeOnlyTheirWriteSet :
    ∃ s t : State, exec (.resample 1) s = .next t ∧ writesCrcOk (.resample 1) = false :=
  ⟨.reset, next_of (by decide)⟩

theorem witness_ErrorCompletionsArePrecise :
    ∃ s t : State, exec .hdrLoad s = .next t ∧ s.regs.status.err = false ∧ t.regs.status.err = true ∧
      t.regs.status.errcode ≠ .unimplementedFilter ∧ t.regs.status.errcode ≠ .paletteRange :=
  ⟨.reset, next_of (by decide)⟩

theorem witness_CommandsNeverReadOutsideMemory :
    ∃ (s t : State) (m : Memory), MemAgree s.cfg s.mem m ∧ s.mem.read 256 ≠ m.read 256 ∧ exec .crcUpdate s = .next t := by
  obtain ⟨t, ht, -⟩ : ∃ t, exec .crcUpdate State.reset = .next t ∧ True := next_of (by decide)
  refine ⟨.reset, t, State.reset.mem.write 256 (State.reset.mem.read 256 + 1), fun a ha => ?_, ?_, ht⟩
  · rw [read_write_ne]
    have : State.reset.cfg.memBytes = 256 := rfl
    omega
  · rw [read_write_self]
    generalize State.reset.mem.read 256 = b
    revert b
    decide

theorem witness_CrcUpdateFoldsTheSourceBytes :
    (∃ s : State, s.regs.src.toNat + s.regs.len.toNat ≤ s.cfg.memBytes ∧ s.regs.src.toNat + s.regs.len.toNat = 256) ∧
    ∃ s : State, s.cfg.memBytes < s.regs.src.toNat + s.regs.len.toNat :=
  ⟨⟨block { Regs.reset with src := 0xFE, len := 2 } [], by decide⟩,
    ⟨block { Regs.reset with src := 0xFF, len := 2 } [], by decide⟩⟩

theorem witness_CrcOfAJoinedRegionIsTheCrcInTwoParts :
    ∃ (s t u v : State) (n k : Nat), s.regs.src.toNat + (n + k) ≤ s.cfg.memBytes ∧ n + k < 2 ^ 32 ∧
      s.regs.src.toNat + n < 2 ^ 32 ∧
      exec .crcUpdate { s with regs := { s.regs with len := BitVec.ofNat 32 n } } = .next t ∧
      exec .crcUpdate { t with regs := { t.regs with
        src := BitVec.ofNat 32 (s.regs.src.toNat + n), len := BitVec.ofNat 32 k } } = .next u ∧
      exec .crcUpdate { s with regs := { s.regs with len := BitVec.ofNat 32 (n + k) } } = .next v :=
  ⟨block { Regs.reset with src := 0xFE } [(0xFE, [1, 2])], _, _, _, 1, 1, by decide, by decide, by decide,
    rfl, rfl, rfl⟩

/-- V-CF-9: the IEND chunk at the end of memory. -/
def lastChunk : State := block { Regs.reset with src := 0xF4, limit := 0x100 } [(0xF4, iend)]

theorem witness_ChunkFrameReportsTheChunk : ∃ s : State, s.cfg.Legal ∧ ChunkFits s := ⟨lastChunk, by decide⟩

/-- V-CF-7, V-CF-3 and V-CF-5, each one past the boundary. -/
theorem witness_ChunkFrameRejectsChunksThatDoNotFit :
    (∃ s : State, s.cfg.memBytes < s.regs.limit.toNat) ∧
    (∃ s : State, s.regs.limit.toNat ≤ s.cfg.memBytes ∧ s.regs.limit.toNat < s.regs.src.toNat + 12) ∧
    ∃ s : State, s.regs.limit.toNat ≤ s.cfg.memBytes ∧ s.regs.src.toNat + 12 ≤ s.regs.limit.toNat ∧
      s.regs.limit.toNat < s.regs.src.toNat + 12 + (s.mem.be32 s.regs.src.toNat).toNat :=
  ⟨⟨block { Regs.reset with limit := 0x101 } [], by decide⟩,
    ⟨block { Regs.reset with src := 0x20, limit := 0x2B } [], by decide⟩,
    ⟨block { Regs.reset with src := 0x20, limit := 0x2C } [(0x20, [0, 0, 0, 1])], by decide⟩⟩

/-- V-CF-13, with the first byte of the tag and the last of the payload to change. -/
theorem witness_OneChangedByteMakesAChunkInvalid :
    ∃ s t : State, exec .chunkFrame s = .next t ∧ t.regs.status.crcOk = true ∧ ChunkFits s ∧
      (s.regs.src.toNat + 4 ≤ 4 ∧ 4 < s.regs.src.toNat + 8 + (s.mem.be32 s.regs.src.toNat).toNat ∧
        (0x75 : Byte) ≠ s.mem.read 4) ∧
      (s.regs.src.toNat + 4 ≤ 9 ∧ 9 < s.regs.src.toNat + 8 + (s.mem.be32 s.regs.src.toNat).toNat ∧
        (0x63 : Byte) ≠ s.mem.read 9) :=
  ⟨block { Regs.reset with limit := 0x100 } [(0, text)], next_of (by decide +kernel)⟩

theorem witness_HdrLoadReadsTheThirteenBytes :
    ∃ s : State, s.regs.len.toNat = 13 ∧ s.regs.src.toNat + s.regs.len.toNat = s.cfg.memBytes :=
  ⟨block { Regs.reset with src := 0xF3, len := 13 } [], by decide⟩

/-- V-HL-3 and V-HL-5. -/
theorem witness_HdrLoadRejectsShortOrOutsidePayloads :
    (∃ s : State, s.regs.len.toNat < 13 ∧ s.regs.len.toNat = 12) ∧
    ∃ s : State, 13 ≤ s.regs.len.toNat ∧ s.cfg.memBytes < s.regs.src.toNat + s.regs.len.toNat :=
  ⟨⟨block { Regs.reset with src := 0x10, len := 12 } [], by decide⟩,
    ⟨block { Regs.reset with src := 0xF4, len := 13 } [], by decide⟩⟩

/-- V-SR-1 at `dst`, with the two tags. -/
def rows (t0 t1 : Byte) (dst : Word) : State :=
  block { Regs.reset with src := 0x40, dst := dst, len := 6, hdrWidth := 2, hdrHeight := 2, hdrFmt := 0x008 }
    [(0x40, [t0, 0x0A, 0x0B, t1, 0x0C, 0x0D])]

/-- V-SR-21: the output ends at `MEM_BYTES`. -/
theorem witness_StripRowsCopiesEveryRow :
    ∃ (s : State) (k : ColorKind) (p : Nat), s.ColorRow k p ∧ StripFits s p ∧
      ∀ r < s.regs.hdrHeight.toNat, rowTag s p r = 0 :=
  ⟨rows 0 0 0xFC, .grayscale, 1, by decide, by decide, by decide⟩

/-- V-SR-9, and V-SR-11 where it is the first row. -/
theorem witness_StripRowsStopsAtTheFirstBadTag :
    (∃ s : State, s.ColorRow .grayscale 1 ∧ StripFits s 1 ∧ 1 < s.regs.hdrHeight.toNat ∧
      (∀ q < 1, rowTag s 1 q = 0) ∧ rowTag s 1 1 ≠ 0) ∧
    ∃ s : State, s.ColorRow .grayscale 1 ∧ StripFits s 1 ∧ 0 < s.regs.hdrHeight.toNat ∧ rowTag s 1 0 ≠ 0 :=
  ⟨⟨rows 0 1 0x80, by decide⟩, ⟨rows 2 0 0x80, by decide⟩⟩

/-- V-SR-12, V-SR-7, V-SR-20, V-SR-22 and V-SR-17, and a state for each row of the table. -/
theorem witness_StripRowsTestsItsArgumentsInOrder :
    (∃ s : State, s.NoColorRow) ∧
    (∀ row ∈ [(0, ColorKind.grayscale, 1), (2, .truecolor, 3), (3, .indexed, 1), (4, .grayscaleAlpha, 2),
      (6, .truecolorAlpha, 4)],
      (block { Regs.reset with hdrFmt := BitVec.ofNat 32 (row.1 * 256) } []).ColorRow row.2.1 row.2.2) ∧
    (∃ s : State, s.ColorRow .grayscale 1 ∧
      s.regs.len.toNat + 1 = s.regs.hdrHeight.toNat * (1 + s.regs.hdrWidth.toNat * 1)) ∧
    (∃ s : State, s.ColorRow .grayscale 1 ∧
      s.regs.hdrHeight.toNat * (1 + s.regs.hdrWidth.toNat * 1) = s.regs.len.toNat ∧
      ¬ InMem s.cfg s.regs.dst.toNat (s.regs.hdrHeight.toNat * (s.regs.hdrWidth.toNat * 1))) ∧
    (∃ s : State, s.ColorRow .grayscale 1 ∧
      s.regs.hdrHeight.toNat * (1 + s.regs.hdrWidth.toNat * 1) = s.regs.len.toNat ∧
      ¬ InMem s.cfg s.regs.src.toNat (s.regs.hdrHeight.toNat * (1 + s.regs.hdrWidth.toNat * 1))) ∧
    ∃ s : State, s.ColorRow .grayscale 1 ∧
      s.regs.hdrHeight.toNat * (1 + s.regs.hdrWidth.toNat * 1) = s.regs.len.toNat ∧
      InMem s.cfg s.regs.src.toNat (s.regs.hdrHeight.toNat * (1 + s.regs.hdrWidth.toNat * 1)) ∧
      InMem s.cfg s.regs.dst.toNat (s.regs.hdrHeight.toNat * (s.regs.hdrWidth.toNat * 1)) ∧
      Overlap s.regs.src.toNat (s.regs.hdrHeight.toNat * (1 + s.regs.hdrWidth.toNat * 1))
        s.regs.dst.toNat (s.regs.hdrHeight.toNat * (s.regs.hdrWidth.toNat * 1)) :=
  ⟨⟨block { Regs.reset with hdrFmt := 0x108 } [], by decide⟩, by decide,
    ⟨block { Regs.reset with len := 5, hdrWidth := 2, hdrHeight := 2 } [], by decide⟩,
    ⟨rows 0 0 0xFD, by decide⟩,
    ⟨block { Regs.reset with src := 0xFB, len := 6, hdrWidth := 2, hdrHeight := 2 } [], by decide⟩,
    ⟨rows 0 0 0x45, by decide⟩⟩

/-- An indexed image, `w` pixels wide, at 0x40 and its palette of `n` bytes at `pb`. -/
def indexed (w pb n : Word) (pixels : List Byte) : State :=
  block { Regs.reset with
      src := 0x40, dst := 0x80, palBase := pb, palLen := n, hdrWidth := w, hdrHeight := 1, hdrFmt := 0x308 }
    [(0x40, pixels)]

/-- V-EX-7, the last index just in range, and V-EX-12. -/
theorem witness_ExpandRgbaMapsEveryPixel :
    (∃ s : State, s.ColorRow .indexed 1 ∧ ExpandFits s false .indexed 1 ∧
      ∀ i < s.pixelCount, IndexInRange s false .indexed 1 i) ∧
    ∃ s : State, s.ColorRow .indexed 1 ∧ ExpandFits s true .indexed 1 ∧
      ∀ i < s.pixelCount, IndexInRange s true .indexed 1 i :=
  ⟨⟨indexed 3 0x10 9 [0, 1, 2], by decide, by decide, by decide⟩,
    ⟨indexed 3 0 0 [0, 0, 0], by decide, by decide, by decide⟩⟩

/-- V-EX-8, and V-EX-13 where it is the first pixel. -/
theorem witness_ExpandRgbaStopsAtTheFirstBadIndex :
    (∃ s : State, s.cfg.Legal ∧ s.ColorRow .indexed 1 ∧ ExpandFits s false .indexed 1 ∧ 2 < s.pixelCount ∧
      (∀ i < 2, IndexInRange s false .indexed 1 i) ∧ ¬ IndexInRange s false .indexed 1 2) ∧
    ∃ s : State, s.cfg.Legal ∧ s.ColorRow .indexed 1 ∧ ExpandFits s false .indexed 1 ∧ 0 < s.pixelCount ∧
      ¬ IndexInRange s false .indexed 1 0 :=
  ⟨⟨indexed 3 0x10 8 [0, 1, 2], by decide, by decide, by decide, by decide, by decide, by decide⟩,
    ⟨indexed 1 0x10 0 [0], by decide⟩⟩

/-- V-EX-19, V-EX-15, V-EX-23 (bounds), V-EX-16 and V-EX-21 (overlap). -/
theorem witness_ExpandRgbaTestsItsArgumentsInOrder :
    (∃ s : State, s.NoColorRow) ∧
    (∃ s : State, s.ColorRow .indexed 1 ∧ ¬ InMem s.cfg s.regs.palBase.toNat s.regs.palLen.toNat) ∧
    (∃ s : State, s.ColorRow .truecolorAlpha 4 ∧ ¬ InMem s.cfg s.regs.dst.toNat (4 * s.pixelCount)) ∧
    (∃ s : State, s.ColorRow .indexed 1 ∧ InMem s.cfg s.regs.src.toNat (s.pixelCount * 1) ∧
      InMem s.cfg s.regs.dst.toNat (4 * s.pixelCount) ∧ InMem s.cfg s.regs.palBase.toNat s.regs.palLen.toNat ∧
      Overlap s.regs.palBase.toNat s.regs.palLen.toNat s.regs.dst.toNat (4 * s.pixelCount)) ∧
    ∃ s : State, s.ColorRow .truecolor 3 ∧ InMem s.cfg s.regs.src.toNat (s.pixelCount * 3) ∧
      InMem s.cfg s.regs.dst.toNat (4 * s.pixelCount) ∧
      Overlap s.regs.src.toNat (s.pixelCount * 3) s.regs.dst.toNat (4 * s.pixelCount) :=
  ⟨⟨block { Regs.reset with hdrFmt := 0x508 } [], by decide⟩,
    ⟨indexed 1 0xFE 3 [0], by decide⟩,
    ⟨block { Regs.reset with src := 0x40, dst := 0xF9, hdrWidth := 2, hdrHeight := 1, hdrFmt := 0x608 } [], by decide⟩,
    ⟨indexed 1 0x82 3 [0], by decide⟩,
    ⟨block { Regs.reset with src := 0x40, dst := 0x45, hdrWidth := 2, hdrHeight := 1, hdrFmt := 0x208 } [], by decide⟩⟩

theorem witness_PaletteIsReadOnlyForIndexedImages :
    ∃ s t : State, exec (.expandRgba true) s = .next t ∧ s.regs.hdrFmt.toNat / 256 % 256 ≠ 3 :=
  ⟨block { Regs.reset with src := 0x40, dst := 0x80, hdrWidth := 2, hdrHeight := 1 } [(0x40, [5, 6])],
    next_of (by decide)⟩

theorem witness_PixelCommandsIgnoreTheOtherHeaderFields :
    ∃ (s t : State) (f : Word), exec .stripRows s = .next t ∧
      f.extractLsb' 8 8 = s.regs.hdrFmt.extractLsb' 8 8 ∧ f ≠ s.regs.hdrFmt := by
  obtain ⟨t, h, e, n⟩ : ∃ t, exec .stripRows (rows 0 0 0x80) = .next t ∧
      (0xFFFF00FF : Word).extractLsb' 8 8 = (rows 0 0 0x80).regs.hdrFmt.extractLsb' 8 8 ∧
      0xFFFF00FF ≠ (rows 0 0 0x80).regs.hdrFmt := next_of (by decide)
  exact ⟨_, t, _, h, e, n⟩

/-- A 4 by 4 image at 0x40, and the output at `dst`. -/
def square (n dst : Word) : State :=
  block { Regs.reset with src := 0x40, dst := dst, stepSize := n, hdrWidth := 4, hdrHeight := 4 } []

/-- V-RS-14: the output next to the input; and 4 bytes a pixel, the largest. -/
theorem witness_ResampleCopiesEveryNthPixel :
    (∃ s : State, ResampleFits s 1 ∧ 0 < s.regs.hdrWidth.toNat / s.regs.stepSize.toNat) ∧
    ∃ s : State, ResampleFits s 4 ∧ 0 < s.regs.hdrWidth.toNat / s.regs.stepSize.toNat :=
  ⟨⟨square 2 0x50, by decide⟩, ⟨square 2 0xC0, by decide⟩⟩

theorem witness_ResampleByOneCopiesTheImage : ∃ s : State, ResampleFits s 1 ∧ s.regs.stepSize = 1 :=
  ⟨square 1 0xC0, by decide⟩

/-- V-RS-6, V-RS-8, V-RS-9, V-RS-15, V-RS-18 (16 by 16 from 0x10) and V-RS-13. -/
theorem witness_ResampleTestsItsArgumentsInOrder :
    (∃ s : State, s.regs.stepSize = 0) ∧
    (∃ s : State, s.regs.stepSize ≠ 0 ∧ ¬ (1 ≤ 0 ∧ 0 ≤ 4) ∧ ¬ (1 ≤ 5 ∧ 5 ≤ 4)) ∧
    (∃ s : State, s.regs.stepSize ≠ 0 ∧ ¬ InMem s.cfg s.regs.dst.toNat (s.regs.thumbW * s.regs.thumbH * 1)) ∧
    (∃ s : State, s.regs.stepSize ≠ 0 ∧ ¬ InMem s.cfg s.regs.src.toNat (s.regs.pixels * 1)) ∧
    ∃ s : State, s.regs.stepSize ≠ 0 ∧ InMem s.cfg s.regs.src.toNat (s.regs.pixels * 1) ∧
      InMem s.cfg s.regs.dst.toNat (s.regs.thumbW * s.regs.thumbH * 1) ∧
      Overlap s.regs.src.toNat (s.regs.pixels * 1) s.regs.dst.toNat (s.regs.thumbW * s.regs.thumbH * 1) :=
  ⟨⟨square 0 0xC0, by decide⟩, ⟨square 2 0xC0, by decide⟩, ⟨square 2 0xFD, by decide⟩,
    ⟨block { Regs.reset with src := 0x10, stepSize := 1, hdrWidth := 16, hdrHeight := 16 } [], by decide⟩,
    ⟨square 2 0x4F, by decide⟩⟩

theorem witness_WritingCmdStartsTheCommand :
    (∃ s : State, s.regs.status.busy = false) ∧ ∃ s : State, s.regs.status.busy = true :=
  ⟨⟨.reset, by decide⟩, ⟨startCommand 0 .reset, by decide⟩⟩

/-- Both ends of the span, and the last byte and the last word of memory, with a command in flight. -/
theorem witness_WritesWhileBusyOnlySetWerr :
    ∃ s : State, s.regs.status.busy = true ∧
      ((0x000 < 0x1000 ∧ 0x000 % 4 = 0 ∧ 0x000 ≠ 0x004 ∧ 0x000 ≠ 0x008) ∧
        0xFFC < 0x1000 ∧ 0xFFC % 4 = 0 ∧ 0xFFC ≠ 0x004 ∧ 0xFFC ≠ 0x008) ∧
      BufForm s.cfg 255 8 ∧ BufForm s.cfg 252 32 ∧ (1#32).getLsbD 1 = false ∧ (3#32).getLsbD 1 = true :=
  ⟨startCommand 0 .reset, by decide⟩

/-- A `CRC_UPDATE` in flight and a read of `CH_LEN`, `CRC_STATE` and `CRC_RESULT`; a `CRC_CHECK` in flight and a read
of `CRC_RESULT`; a `CHUNK_FRAME` in flight and `CRC_OK` and the other bits of `STATUS`. -/
theorem witness_RegisterReadsAreExactOutsideTheWriteSet :
    (∃ (s : State) (r : Reg), s.inFlight = some .crcUpdate ∧ r ≠ .status ∧ r ∉ writeSet .crcUpdate ∧
      (r = .crcResult → Reg.crcState ∉ writeSet .crcUpdate)) ∧
    (∃ (s : State) (r : Reg), s.inFlight = some .crcCheck ∧ r = .crcResult ∧ r ∉ writeSet .crcCheck ∧
      Reg.crcState ∉ writeSet .crcCheck) ∧
    (∃ (s : State) (r q : Reg), s.inFlight = some .crcUpdate ∧ r ∈ writeSet .crcUpdate ∧ q = .crcResult ∧
      Reg.crcState ∈ writeSet .crcUpdate) ∧
    (∃ s : State, s.inFlight = some .stripRows ∧ writesCrcOk .stripRows = false) ∧
    ∃ s : State, s.inFlight = some .chunkFrame ∧ (5 = 4 → writesCrcOk .chunkFrame = false) ∧
      writesCrcOk .chunkFrame = true :=
  ⟨⟨startCommand 2 .reset, .chLen, by decide⟩, ⟨startCommand 3 .reset, .crcResult, by decide⟩,
    ⟨startCommand 2 .reset, .crcState, .crcResult, by decide⟩,
    ⟨startCommand 0x20 .reset, by decide⟩, ⟨startCommand 0x10 .reset, by decide⟩⟩

/-- A `STRIP_ROWS` in flight whose destination region is 0x82 to 0x85: the bytes around it, its first and its last, and
two words that are half in it. -/
theorem witness_ByteReadsAreExactOutsideTheDestination :
    ∃ s : State, (∀ a ∈ [0x81, 0x82, 0x85, 0x86], a < s.cfg.memBytes) ∧
      (∀ a ∈ [0x80, 0x84], a % 4 = 0 ∧ a + 4 ≤ s.cfg.memBytes) ∧
      (∀ x ∈ [0x81, 0x80 + 1, 0x84 + 2, 0x86], ¬ s.InFlightRegion x) ∧
      ∀ x ∈ [0x82, 0x80 + 2, 0x84 + 1, 0x85], s.InFlightRegion x := by
  have region (x : Nat) : (startCommand 0x20 (rows 0 0 0x82)).InFlightRegion x ↔ 0x82 ≤ x ∧ x < 0x82 + 4 := by
    have h : (startCommand 0x20 (rows 0 0 0x82)).inFlight = some .stripRows := by decide
    have hd : (startCommand 0x20 (rows 0 0 0x82)).regs.dst.toNat = 0x82 := by decide
    have hl : destLen .stripRows (startCommand 0x20 (rows 0 0 0x82)).regs = 4 := by decide
    simp only [State.InFlightRegion, h, Option.some.injEq, exists_eq_left', hd, hl]
  refine ⟨startCommand 0x20 (rows 0 0 0x82), by decide, by decide, ?_, ?_⟩
  · simp only [region]; decide
  · simp only [region]; decide

theorem witness_RegisterWritesReadBack :
    ∃ s : State, s.regs.status.busy = false ∧
      (Reg.hdrInterlace ≠ .ctrl ∧ Reg.hdrInterlace ≠ .status ∧ Reg.hdrInterlace ≠ .cmd ∧ .hdrInterlace ∈ plainRW) ∧
      Reg.chLen ≠ .ctrl ∧ Reg.chLen ≠ .status ∧ Reg.chLen ≠ .cmd ∧ .chLen ∈ readOnly :=
  ⟨.reset, by decide⟩

/-- A gap of the table, the first offset past it and the last of the span. -/
theorem witness_UnmappedOffsetsReadZeroAndIgnoreWrites :
    ∃ s : State, s.regs.status.busy = false ∧ ∀ off ∈ [0x03C, 0x058, 0x078, 0xFFC],
      off < 0x1000 ∧ off % 4 = 0 ∧ ∀ r : Reg, r.offset ≠ off :=
  ⟨.reset, rfl, fun off h => by fin_cases h <;> exact ⟨by decide, by decide, fun r => by cases r <;> decide⟩⟩

/-- The reserved bits at the ends of their ranges. -/
theorem witness_StatusWritesClearOnlyDoneAndWerr :
    (5 ≤ 5 ∧ 5 ≤ 7) ∧ (5 ≤ 7 ∧ 7 ≤ 7) ∧ (5 ≤ 16 ∧ 16 ≤ 16) ∧ (5 ≤ 31 ∧ 16 ≤ 31) ∧ Reg.ctrl ≠ .status := by decide

/-- The three inputs of the two clauses, and the ends of an abandoned region (V-ST-11). -/
theorem witness_CtrlWritesSetTheEnableOrReset :
    (1#32).getLsbD 1 = false ∧ (3#32).getLsbD 1 = true ∧
    ∃ s : State, s.inFlight = some .stripRows ∧
      ¬ (s.regs.dst.toNat ≤ 0x84 ∧ 0x84 < s.regs.dst.toNat + destLen .stripRows s.regs) ∧
      (0x80 < s.cfg.memBytes ∧ s.regs.dst.toNat ≤ 0x80 ∧ 0x80 < s.regs.dst.toNat + destLen .stripRows s.regs) ∧
      0x83 < s.cfg.memBytes ∧ s.regs.dst.toNat ≤ 0x83 ∧ 0x83 < s.regs.dst.toNat + destLen .stripRows s.regs :=
  ⟨by decide, by decide, startCommand 0x20 (rows 0 0 0x80), by decide⟩

theorem witness_HostWordsAreLittleEndian :
    ∃ s : State, s.regs.status.busy = false ∧ 252 % 4 = 0 ∧ 252 + 4 ≤ s.cfg.memBytes := ⟨.reset, by decide⟩

theorem witness_HostBytesReadBack : ∃ s : State, s.regs.status.busy = false ∧ 255 < s.cfg.memBytes :=
  ⟨.reset, by decide⟩

/-- Both sides of the refusals, idle and busy: the last offset, byte and word that go through, and the narrow, the
misaligned, the wide and the outside access that do not. -/
theorem witness_OnlyMalformedHostAccessesAreRefused :
    ∀ s ∈ [State.reset, startCommand 0 .reset],
      (∃ t, hostWrite (.port (.reg 0xFFC)) 32 0 s = .next t ∧ True) ∧
      (∀ off ∈ [0xFFE, 0x1000], ∃ why, hostWrite (.port (.reg off)) 32 0 s = .refused why) ∧
      (∃ why, hostRead (.port (.reg 0xFFC)) 8 s = .refused why) ∧
      (∃ t, hostRead (.port (.buf 255)) 8 s = .next t ∧ True) ∧
      (∃ t, hostWrite (.port (.buf 252)) 32 0 s = .next t ∧ True) ∧
      (∀ a ∈ [250, 256], ∃ why, hostWrite (.port (.buf a)) 32 0 s = .refused why) ∧
      ∃ why, hostRead (.port (.buf 0)) 16 s = .refused why := by
  intro s hs
  simp only [List.mem_cons, List.not_mem_nil, or_false] at hs
  rcases hs with rfl | rfl <;>
    exact ⟨next_of (by decide), by
        intro off h; fin_cases h <;> exact refused_of (by decide),
      refused_of (by decide), next_of (by decide), next_of (by decide), by
        intro a h; fin_cases h <;> exact refused_of (by decide), refused_of (by decide)⟩

/-- The first and last addresses of both windows, and the ones just outside. -/
theorem witness_BusAddressesReachTheBlock :
    ∃ c : Config, c = State.reset.cfg ∧
      (c.regBase ≤ 0xFFC ∧ 0xFFC < c.regBase + 0x1000 ∧ ¬ (c.memBase ≤ 0xFFC ∧ 0xFFC < c.memBase + c.memBytes)) ∧
      (c.memBase ≤ 0x1000 ∧ 0x1000 < c.memBase + c.memBytes ∧
        ¬ (c.regBase ≤ 0x1000 ∧ 0x1000 < c.regBase + 0x1000)) ∧
      ((c.regBase ≤ 0x1100 ∧ 0x1100 < c.regBase + 0x1000) ↔ (c.memBase ≤ 0x1100 ∧ 0x1100 < c.memBase + c.memBytes)) :=
  ⟨_, rfl, by decide⟩

/-- A completion, an acknowledge, a disabling write, a start and the two resets that go through, and an acknowledge while
the enable is 0. -/
theorem witness_IrqFollowsDoneAndTheEnable :
    (∃ s t : State, complete s = .next t ∧ t.irq = true) ∧
    (∃ s t : State, hostWrite (.port (.reg 0x008)) 32 2 s = .next t ∧ s.irq = true ∧ t.irq = false) ∧
    (∃ s t : State, hostWrite (.port (.reg 0x004)) 32 0 s = .next t ∧ s.irq = true ∧ t.irq = false) ∧
    (∃ s t : State, hostWrite (.port (.reg 0x00C)) 32 0 s = .next t ∧ s.irq = true ∧ s.regs.status.busy = false) ∧
    (∃ s t : State, hostWrite (.port (.reg 0x004)) 32 2 s = .next t ∧ s.irq = true) ∧
    (∃ s t : State, step s = .next t ∧ s.irq = true ∧ s.turns = [.powerOn]) ∧
    ∃ s t : State, hostWrite (.port (.reg 0x008)) 32 2 s = .next t ∧ s.regs.ctrl.irqEn = false ∧
      s.regs.status.done = true :=
  let enabled : State := block { Regs.reset with
    ctrl := { irqEn := true }, status := { Regs.reset.status with done := true } } []
  ⟨⟨enabled, next_of (by decide)⟩, ⟨enabled, next_of (by decide)⟩, ⟨enabled, next_of (by decide)⟩,
    ⟨enabled, next_of (by decide)⟩, ⟨enabled, next_of (by decide)⟩,
    ⟨{ enabled with turns := [.powerOn] }, next_of (by decide)⟩,
    ⟨block { Regs.reset with status := { Regs.reset.status with done := true } } [], next_of (by decide)⟩⟩

theorem witness_RegistersTakeTheirResetValues :
    (∃ s : State, s.regs = State.reset.regs ∧ ∀ off ∈ [0x000, 0x030, 0x074, 0xFFC], off < 0x1000 ∧ off % 4 = 0) ∧
    (∃ (s : State) (ts : List Turn), s.turns = .powerOn :: ts) ∧ (2#32).getLsbD 1 = true :=
  ⟨⟨.reset, rfl, by decide⟩, ⟨{ starting with turns := [.powerOn] }, [], rfl⟩, by decide⟩

theorem witness_PowerOnResetRedrawsMemory : ∃ (s : State) (ts : List Turn), s.turns = .powerOn :: ts :=
  ⟨{ lastChunk with turns := [.powerOn, .host] }, [.host], rfl⟩

theorem witness_EveryStepKeepsTheInvariant : ∃ s t : State, step s = .next t ∧ s.Inv ∧ s.regs.status.busy = true := by
  obtain ⟨t, h, -⟩ : ∃ t, step (startCommand 0x20 lastChunk) = .next t ∧ True := next_of (by decide)
  exact ⟨_, t, h, ⟨by decide, by decide, by decide, by decide, by decide, by decide, by decide, by decide, by decide⟩, rfl⟩

theorem witness_OnlyAHostWriteToCmdStartsACommand :
    ∃ s t : State, step s = .next t ∧ s.regs.status.busy = false ∧ t.regs.status.busy = true :=
  ⟨starting, next_of (by decide)⟩

/-- A command that stays in flight over a host's turn, and one ended by each of the events. -/
theorem witness_OnlyCompletionOrResetEndsACommand :
    (∃ s t : State, step s = .next t ∧ s.regs.status.busy = true ∧ t.regs.status.busy = true) ∧
    (∃ s t : State, step s = .next t ∧ s.regs.status.busy = true ∧ t.regs.status.busy = false ∧ s.turns = [.engine]) ∧
    (∃ s t : State, step s = .next t ∧ s.regs.status.busy = true ∧ t.regs.status.busy = false ∧ s.turns = []) ∧
    (∃ s t : State, step s = .next t ∧ s.regs.status.busy = true ∧ t.regs.status.busy = false ∧
      s.turns = [.powerOn]) ∧
    ∃ s t : State, step s = .next t ∧ s.regs.status.busy = true ∧ t.regs.status.busy = false ∧ s.turns = [.host] :=
  ⟨⟨{ startCommand 0x20 .reset with turns := [.host] }, next_of (by decide)⟩,
    ⟨State.reset.withFetchWord 32 0x20, next_of (by decide)⟩,
    ⟨startCommand 0x20 .reset, next_of (by decide)⟩,
    ⟨{ startCommand 0x20 .reset with turns := [.powerOn] }, next_of (by decide)⟩,
    ⟨{ startCommand 0x20 .reset with
      turns := [.host], host := { State.reset.host with program := [stmtWR .ctrl 2] } }, next_of (by decide)⟩⟩

theorem witness_TheEngineNeverChangesOperandRegisters :
    ∃ s t : State, engineStep s = .next t ∧ s.regs.status.busy = true ∧ t.regs.status.err = true :=
  ⟨startCommand 0x40 .reset, next_of (by decide)⟩

theorem witness_WaitingHostSeesTheCommandComplete :
    (∃ s : State, s.regs.status.busy = true ∧ .powerOn ∉ s.turns ∧ s.turns = [.host] ∧ s.host.program = []) ∧
    ∃ s : State, s.regs.status.busy = true ∧ .powerOn ∉ s.turns ∧ s.turns = [.host, .engine] ∧
      s.host.program = [.wait] :=
  ⟨⟨{ startCommand 0x20 .reset with turns := [.host] }, by decide⟩,
    ⟨{ startCommand 0x20 .reset with
      turns := [.host, .engine], host := { State.reset.host with program := [.wait] } }, by decide⟩⟩

theorem witness_RegisterMapIsTheTable : ∃ s : State, s.regs.status.busy = false := ⟨starting, by decide⟩

/-- A step, a pixel size and a colour type on both sides, and a block that is idle, busy and busy with an illegal word. -/
theorem witness_WriteSetsAreThoseOfTheTable :
    (∃ s : State, s.NoColorRow) ∧ (∃ s : State, s.ColorRow .truecolorAlpha 4) ∧
    (∃ s : State, s.regs.stepSize.toNat = 0 ∧ s.regs.status.busy = false) ∧
    (∃ s : State, s.regs.status.busy = true ∧ decode s.regs.cmd = .ok (.resample 4)) ∧
    ∃ s : State, s.regs.status.busy = true ∧ decode s.regs.cmd = .error (.unknownOp 4) :=
  ⟨⟨block { Regs.reset with hdrFmt := 0x508 } [], by decide⟩, ⟨block { Regs.reset with hdrFmt := 0x608 } [], by decide⟩,
    ⟨.reset, by decide⟩, ⟨startCommand 0x440 .reset, by decide⟩, ⟨startCommand 0x4 .reset, by decide⟩⟩

end Sys2Proof.Tests
end

section
/-! PROOFS. No command reads outside buffer memory (00_scope.md R15): a command run on two memories that agree at the
addresses that exist takes the same branch, computes the same values and leaves memories that agree there again. -/

namespace Sys2Proof.Machine

/-! ## Two runs of one loop -/

section
variable {α : Type} {R : α → α → Prop} {f : Nat → α → α} {a a' : α}

/-- Two runs of one loop stay related when every pass keeps the relation. -/
theorem forUp_related (h0 : R a a') (n : Nat) (hs : ∀ i < n, ∀ x x', R x x' → R (f i x) (f i x')) :
    R (forUp f a n) (forUp f a' n) := by
  induction n with
  | zero => exact h0
  | succ n ih => exact hs n (Nat.lt_succ_self n) _ _ (ih fun i hi => hs i (Nat.lt_succ_of_lt hi))

/-- Two runs of one loop that may stop stay related and stop at the same pass, when related values give the same
verdict and every good pass keeps the relation. -/
theorem forUpUntil_related {bad : Nat → α → Bool} (h0 : R a a') (n : Nat)
    (hs : ∀ i < n, ∀ x x', R x x' → bad i x = bad i x' ∧ (bad i x = false → R (f i x) (f i x'))) :
    R (forUpUntil bad f a n).1 (forUpUntil bad f a' n).1 ∧
      (forUpUntil bad f a n).2 = (forUpUntil bad f a' n).2 := by
  induction n with
  | zero => exact ⟨h0, rfl⟩
  | succ n ih =>
    have hprev := ih fun i hi => hs i (Nat.lt_succ_of_lt hi)
    simp only [forUpUntil]
    generalize forUpUntil bad f a n = o at hprev ⊢
    generalize forUpUntil bad f a' n = o' at hprev ⊢
    obtain ⟨b, e⟩ := o
    obtain ⟨b', e'⟩ := o'
    obtain ⟨hR, rfl⟩ : R b b' ∧ e = e' := hprev
    cases e with
    | some k => exact ⟨hR, rfl⟩
    | none =>
      obtain ⟨hbad, hpass⟩ := hs n (Nat.lt_succ_self n) b b' hR
      cases hb : bad n b with
      | true => simpa [hb, ← hbad] using hR
      | false => simpa [hb, ← hbad] using hpass hb

end

/-! ## Memories that agree inside -/

section
variable {c : Config} {m m' : Memory}

theorem memAgree_write (h : MemAgree c m m') (a : Nat) (b : Byte) : MemAgree c (m.write a b) (m'.write a b) :=
  fun x hx => by rw [read_write, read_write, h x hx]

theorem memAgree_writeBytes (h : MemAgree c m m') (a : Nat) (bs : List Byte) :
    MemAgree c (m.writeBytes a bs) (m'.writeBytes a bs) := by
  induction bs generalizing m m' a with
  | nil => exact h
  | cons b bs ih => exact ih (memAgree_write h a b) (a + 1)

theorem readBytes_eq_of_memAgree (h : MemAgree c m m') {a n : Nat} (hin : InMem c a n) :
    m.readBytes a n = m'.readBytes a n :=
  readBytes_congr fun i hi => h _ (by omega)

theorem be32_eq_of_memAgree (h : MemAgree c m m') {a : Nat} (hin : InMem c a 4) : m.be32 a = m'.be32 a :=
  be32_congr fun i hi => h _ (by omega)

/-- `STRIP_ROWS` reads only inside its input region (43_scanline.md R171). -/
theorem memAgree_stripLoop (h : MemAgree c m m') {src sl n : Nat} (dst : Nat) (hin : InMem c src (n * (1 + sl))) :
    MemAgree c (stripLoop src dst sl n m).1 (stripLoop src dst sl n m').1 ∧
      (stripLoop src dst sl n m).2 = (stripLoop src dst sl n m').2 :=
  forUpUntil_related (R := MemAgree c) h n fun r hr y y' hy => by
    have hrow : r * (1 + sl) + (1 + sl) ≤ n * (1 + sl) := by
      simpa only [Nat.succ_mul] using Nat.mul_le_mul_right (1 + sl) hr
    refine ⟨by rw [badTag, badTag, hy _ (by omega)], fun _ => ?_⟩
    rw [copyRow, copyRow, readBytes_eq_of_memAgree hy (by omega)]
    exact memAgree_writeBytes hy _ _

/-- `EXPAND_RGBA` reads only inside its input region and, for an index it has found in range, inside its palette
(44_expand.md R186, R187). -/
theorem memAgree_expandLoop (h : MemAgree c m m') {k : ColorKind} {src pb pl n : Nat} (dst : Nat)
    (hin : InMem c src (n * k.bpp)) (hpal : k = .indexed → InMem c pb pl) :
    MemAgree c (expandLoop k src dst pb pl n m).1 (expandLoop k src dst pb pl n m').1 ∧
      (expandLoop k src dst pb pl n m).2 = (expandLoop k src dst pb pl n m').2 :=
  forUpUntil_related (R := MemAgree c) h n fun i hi y y' hy => by
    have hbpp : 0 < k.bpp := by cases k <;> decide
    have hpix : i * k.bpp + k.bpp ≤ n * k.bpp := by
      simpa only [Nat.succ_mul] using Nat.mul_le_mul_right k.bpp hi
    have hidx : y.read (src + i * k.bpp) = y'.read (src + i * k.bpp) := hy _ (by omega)
    refine ⟨by rw [badIndex, badIndex, hidx], fun hgood => ?_⟩
    have hsame : pixelRgba y k pb (src + i * k.bpp) = pixelRgba y' k pb (src + i * k.bpp) := by
      refine pixelRgba_congr (fun j hj => hy _ (by omega)) fun hk j hj => hy _ ?_
      have hrange : 3 * (y'.read (src + i * k.bpp)).toNat + 3 ≤ pl := by
        rw [← hidx]
        simpa [badIndex, hk] using hgood
      have hp := hpal hk
      omega
    simp only [hsame]
    exact memAgree_writeBytes hy _ _

/-- `RESAMPLE` reads only inside its input region (45_resample.md R207). -/
theorem memAgree_resampleLoop (h : MemAgree c m m') {src w hh n p : Nat} (dst : Nat) (hn : n ≠ 0)
    (hin : InMem c src (w * hh * p)) :
    MemAgree c (resampleLoop src dst w (w / n) (hh / n) n p m) (resampleLoop src dst w (w / n) (hh / n) n p m') :=
  forUp_related (R := MemAgree c) h _ fun oy hoy _ _ hrow =>
    forUp_related (R := MemAgree c) hrow _ fun ox hox _ _ hpix =>
      forUp_related (R := MemAgree c) hpix _ fun j hj y y' hy => by
        have hsample := sample_inside hn hoy hox hj
        rw [hy (src + ((oy * n) * w + ox * n) * p + j) (by omega)]
        exact memAgree_write hy _ _

end

/-! ## Answers that agree -/

/-- Both commands complete, with the same registers and with memories that agree inside. -/
def AnswersAgree (c : Config) (o o' : Host.Outcome State Fault Refusal) : Prop :=
  ∃ t t', o = .next t ∧ o' = .next t' ∧ t'.regs = t.regs ∧ MemAgree c t.mem t'.mem

section
variable {c : Config} {s s' : State} {m : Memory}

theorem answersAgree_raiseError {e : ErrCode} {n : Nat} (hm : MemAgree c s.mem m) :
    AnswersAgree c (.next (raiseError e n s)) (.next (raiseError e n { s with mem := m })) :=
  ⟨_, _, rfl, rfl, rfl, hm⟩

theorem answersAgree_finish (hr : s'.regs = s.regs) (hm : MemAgree c s.mem s'.mem) :
    AnswersAgree c (.next (finish s)) (.next (finish s')) :=
  ⟨_, _, rfl, rfl, by simp [hr], hm⟩

theorem answersAgree_finishLoop {e : ErrCode} {o o' : Memory × Option Nat} (ho : MemAgree c o.1 o'.1 ∧ o.2 = o'.2) :
    AnswersAgree c (.next (finishLoop e o s)) (.next (finishLoop e o' { s with mem := m })) := by
  obtain ⟨b, k⟩ := o
  obtain ⟨b', k'⟩ := o'
  obtain ⟨hm, rfl⟩ : MemAgree c b b' ∧ k = k' := ho
  cases k with
  | none => exact answersAgree_finish rfl hm
  | some k => exact ⟨_, _, rfl, rfl, rfl, hm⟩

end

/-! ## Command by command -/

section
variable {s : State} {m : Memory}

theorem execCrcUpdate_answersAgree (h : MemAgree s.cfg s.mem m) :
    AnswersAgree s.cfg (execCrcUpdate s) (execCrcUpdate { s with mem := m }) := by
  simp only [execCrcUpdate]
  split_ifs with hb
  · exact answersAgree_finish (by simp [readBytes_eq_of_memAgree h hb]) h
  · exact answersAgree_raiseError h

/-- The length field is read before the tests, but only a chunk whose first 12 bytes are inside depends on it
(42_chunk.md R143). -/
theorem execChunkFrame_answersAgree (h : MemAgree s.cfg s.mem m) :
    AnswersAgree s.cfg (execChunkFrame s) (execChunkFrame { s with mem := m }) := by
  simp only [execChunkFrame]
  by_cases hlim : s.cfg.memBytes < s.regs.limit.toNat
  · simp only [if_pos hlim]
    exact answersAgree_raiseError h
  by_cases hfirst : s.regs.limit.toNat < s.regs.src.toNat + 12
  · simp only [if_neg hlim, if_pos hfirst]
    exact answersAgree_raiseError h
  have hlen : s.mem.be32 s.regs.src.toNat = m.be32 s.regs.src.toNat := be32_eq_of_memAgree h (by omega)
  simp only [if_neg hlim, if_neg hfirst, hlen]
  split_ifs with hchunk
  · exact answersAgree_raiseError h
  · refine answersAgree_finish ?_ h
    simp only [frameResults]
    rw [be32_eq_of_memAgree h (by omega), be32_eq_of_memAgree h (by omega), readBytes_eq_of_memAgree h (by omega)]

theorem execHdrLoad_answersAgree (h : MemAgree s.cfg s.mem m) :
    AnswersAgree s.cfg (execHdrLoad s) (execHdrLoad { s with mem := m }) := by
  simp only [execHdrLoad]
  split_ifs with hlen hb
  · exact answersAgree_raiseError h
  · refine answersAgree_finish ?_ h
    have hbyte : ∀ i < 13, s.mem.read (s.regs.src.toNat + i) = m.read (s.regs.src.toNat + i) :=
      fun i hi => h _ (by omega)
    simp only [loadHeader]
    rw [be32_eq_of_memAgree h (by omega), be32_eq_of_memAgree h (by omega), hbyte 8 (by omega), hbyte 9 (by omega),
      hbyte 10 (by omega), hbyte 11 (by omega), hbyte 12 (by omega)]
  · exact answersAgree_raiseError h

theorem execStripRows_answersAgree (h : MemAgree s.cfg s.mem m) :
    AnswersAgree s.cfg (execStripRows s) (execStripRows { s with mem := m }) := by
  cases hk : s.regs.colorKind with
  | none =>
    simp only [execStripRows, hk]
    exact answersAgree_raiseError h
  | some k =>
    simp only [execStripRows, hk]
    split_ifs with hlen hb ho
    · exact answersAgree_raiseError h
    · exact answersAgree_raiseError h
    · exact answersAgree_raiseError h
    · obtain ⟨hin, -⟩ := not_or.mp hb
      exact answersAgree_finishLoop (memAgree_stripLoop h _ (not_not.mp hin))

theorem execExpandRgba_answersAgree (sp : Bool) (h : MemAgree s.cfg s.mem m) :
    AnswersAgree s.cfg (execExpandRgba sp s) (execExpandRgba sp { s with mem := m }) := by
  cases hk : s.regs.colorKind with
  | none =>
    simp only [execExpandRgba, hk]
    exact answersAgree_raiseError h
  | some k =>
    simp only [execExpandRgba, hk]
    split_ifs with hb hpal ho hpo
    · exact answersAgree_raiseError h
    · exact answersAgree_raiseError h
    · exact answersAgree_raiseError h
    · exact answersAgree_raiseError h
    · obtain ⟨hin, -⟩ := not_or.mp hb
      exact answersAgree_finishLoop
        (memAgree_expandLoop h _ (not_not.mp hin) fun hi => not_not.mp fun hp => hpal ⟨hi, hp⟩)

theorem execResample_answersAgree (pix : Nat) (h : MemAgree s.cfg s.mem m) :
    AnswersAgree s.cfg (execResample pix s) (execResample pix { s with mem := m }) := by
  simp only [execResample]
  split_ifs with hn hp hb ho
  · exact answersAgree_raiseError h
  · exact answersAgree_raiseError h
  · exact answersAgree_raiseError h
  · exact answersAgree_raiseError h
  · obtain ⟨hin, -⟩ := not_or.mp hb
    exact answersAgree_finish rfl (memAgree_resampleLoop h _ hn (not_not.mp hin))

/-- Every command answers alike on memories that agree inside (00_scope.md R15). -/
theorem exec_answersAgree (i : Instr) (h : MemAgree s.cfg s.mem m) :
    AnswersAgree s.cfg (exec i s) (exec i { s with mem := m }) := by
  cases i with
  | nop => exact answersAgree_finish rfl h
  | crcInit => exact answersAgree_finish rfl h
  | crcUpdate => exact execCrcUpdate_answersAgree h
  | crcCheck => exact answersAgree_finish rfl h
  | chunkFrame => exact execChunkFrame_answersAgree h
  | typeDecode => exact answersAgree_finish rfl h
  | hdrLoad => exact execHdrLoad_answersAgree h
  | stripRows => exact execStripRows_answersAgree h
  | expandRgba sp => exact execExpandRgba_answersAgree sp h
  | resample pix => exact execResample_answersAgree pix h

end

/-- Settles O12: the answers of a command on memories that agree inside agree. -/
theorem commandsNeverReadOutsideMemory : Obligations.CommandsNeverReadOutsideMemory := by
  intro i s t m hagree hexec
  obtain ⟨u, u', hu, hu', hregs, hmem⟩ := exec_answersAgree i hagree
  obtain rfl : t = u := Host.Outcome.next.inj (hexec.symm.trans hu)
  exact ⟨u', hu', hregs, hmem⟩

end Sys2Proof.Machine
end

section
/-! PROOFS. What one step can do: which agent moves, what the host's statement does, and what a register write does,
each said once (20_memory.md R73, 30_encoding.md R98, 10_state.md R50). -/

namespace Sys2Proof.Machine

/-- The agent whose turn it is moves: the engine, the host or the power-on reset (20_memory.md R73; log 5). -/
theorem step_cases {s t : State} (h : step s = .next t) :
    ∃ ts,
      ((s.turns = .engine :: ts ∨ s.turns = [] ∧ ts = [] ∧ s.regs.status.busy = true) ∧
        engineStep { s with turns := ts } = .next t) ∨
      ((s.turns = .host :: ts ∨ s.turns = [] ∧ ts = [] ∧ s.regs.status.busy = false) ∧
        hostStep { s with turns := ts } = .next t) ∨
      (s.turns = .powerOn :: ts ∧ t = powerOnReset { s with turns := ts }) := by
  obtain ⟨cfg, regs, mem, host, turns, draws⟩ := s
  match turns with
  | [] =>
    simp only [step] at h
    cases hb : regs.status.busy with
    | true => exact ⟨[], .inl ⟨.inr ⟨rfl, rfl, rfl⟩, by simpa [hb] using h⟩⟩
    | false => exact ⟨[], .inr (.inl ⟨.inr ⟨rfl, rfl, rfl⟩, by simpa [hb] using h⟩)⟩
  | .engine :: ts => exact ⟨ts, .inl ⟨.inl rfl, h⟩⟩
  | .host :: ts => exact ⟨ts, .inr (.inl ⟨.inl rfl, h⟩)⟩
  | .powerOn :: ts => exact ⟨ts, .inr (.inr ⟨rfl, (Host.Outcome.next.inj h).symm⟩)⟩

/-- The engine runs the completion step while `BUSY = 1` and otherwise does nothing (40_control.md R112). -/
theorem engineStep_cases {s t : State} (h : engineStep s = .next t) :
    (s.regs.status.busy = true ∧ complete s = .next t) ∨ (s.regs.status.busy = false ∧ t = s) := by
  unfold engineStep at h
  cases hb : s.regs.status.busy with
  | true => exact .inl ⟨rfl, by simpa [hb] using h⟩
  | false => exact .inr ⟨rfl, by simpa [hb] using h.symm⟩

/-- The host's turn is a write, or it touches nothing but the host agent and the draw counter
(30_encoding.md R98, R100). -/
theorem hostStep_cases {s t : State} (h : hostStep s = .next t) :
    (∃ tgt width v rest, s.host.program = .write tgt width v :: rest ∧
      hostWrite tgt width v { s with host := { s.host with program := rest } } = .next t) ∨
    ∃ agent n, t = { s with host := agent, draws := n } := by
  unfold hostStep at h
  match hp : s.host.program with
  | [] =>
    rw [hp] at h
    exact .inr ⟨s.host, s.draws, (Host.Outcome.next.inj h).symm⟩
  | .write tgt width v :: rest =>
    rw [hp] at h
    exact .inl ⟨tgt, width, v, rest, rfl, h⟩
  | .read tgt width :: rest =>
    rw [hp] at h
    obtain ⟨v, rfl⟩ := hostRead_cases h
    exact .inr ⟨_, _, rfl⟩
  | .wait :: rest =>
    rw [hp] at h
    simp only [hostExec] at h
    split at h <;> obtain rfl := Host.Outcome.next.inj h <;> exact .inr ⟨_, _, rfl⟩
  | .waitIrq :: rest =>
    rw [hp] at h
    simp only [hostExec] at h
    split at h <;> obtain rfl := Host.Outcome.next.inj h <;> exact .inr ⟨_, _, rfl⟩

/-- A write to an offset acts on `CTRL` or `STATUS`, is dropped while busy, starts a command, or stores
(10_state.md R22 to R24, R48, R50, 40_control.md R110). -/
theorem writeOffset_cases (off : Nat) (v : Word) (s : State) :
    (off = 0x004 ∧ writeOffset off v s = writeCtrl v s) ∨
    (off = 0x008 ∧ writeOffset off v s = s.setStatus (s.regs.status.hostWrite v)) ∨
    (s.regs.status.busy = true ∧ writeOffset off v s = dropWrite s) ∨
    (s.regs.status.busy = false ∧ off = 0x00C ∧ writeOffset off v s = startCommand v s) ∨
    (s.regs.status.busy = false ∧
      (writeOffset off v s = s ∨ ∃ r, writeOffset off v s = { s with regs := s.regs.put r v })) := by
  by_cases hctrl : off = 0x004
  · subst hctrl
    exact .inl ⟨rfl, writeOffset_ctrl v s⟩
  by_cases hstatus : off = 0x008
  · subst hstatus
    exact .inr (.inl ⟨rfl, writeOffset_status v s⟩)
  cases hb : s.regs.status.busy with
  | true => exact .inr (.inr (.inl ⟨rfl, writeOffset_busy v hctrl hstatus hb⟩))
  | false =>
    by_cases hcmd : off = 0x00C
    · subst hcmd
      exact .inr (.inr (.inr (.inl ⟨rfl, rfl, writeOffset_cmd v hb⟩)))
    refine .inr (.inr (.inr (.inr ⟨rfl, ?_⟩)))
    cases hr : Reg.ofOffset off with
    | none => exact .inl (writeOffset_unmapped v hb hr)
    | some r =>
      obtain rfl := offset_ofOffset hr
      exact .inr ⟨r, writeOffset_put r v hb (by rintro rfl; exact hctrl rfl) (by rintro rfl; exact hstatus rfl)
        (by rintro rfl; exact hcmd rfl)⟩

/-- A write to `CTRL` resets the block or stores the enable (10_state.md R22). -/
theorem writeCtrl_cases (v : Word) (s : State) :
    (v.getLsbD 1 = true ∧ writeCtrl v s = softReset s) ∨
    (v.getLsbD 1 = false ∧ writeCtrl v s = { s with regs := { s.regs with ctrl := { irqEn := v.getLsbD 0 } } }) := by
  unfold writeCtrl
  cases hv : v.getLsbD 1 with
  | true => exact .inl ⟨rfl, rfl⟩
  | false => exact .inr ⟨rfl, rfl⟩

/-- A stored register write leaves `STATUS` alone (10_state.md section 1). -/
@[simp] theorem put_status (g : Regs) (r : Reg) (v : Word) : (g.put r v).status = g.status := by
  cases r <;> rfl

@[simp] theorem status_hostWrite_busy (t : Status) (v : Word) : (t.hostWrite v).busy = t.busy := rfl

@[simp] theorem status_hostWrite_done (t : Status) (v : Word) : (t.hostWrite v).done = (t.done && !v.getLsbD 1) := rfl

end Sys2Proof.Machine
end

section
/-! PROOFS. The invariant of the machine: each shared operation keeps it, so each command does, so each step does
(00_scope.md R7, R15). -/

namespace Sys2Proof.Machine

/-! ## The invariant on its parts -/

section
variable {s : State}

theorem good_of_inv (h : s.Inv) : s.mem.Good s.cfg.memBytes := ⟨h.sorted, h.inside⟩

/-- The invariant does not speak of the host agent, the turns and the draw counter. -/
theorem inv_surroundings (h : s.Inv) (agent : HostAgent) (ts : List Turn) (n : Nat) :
    { s with host := agent, turns := ts, draws := n }.Inv :=
  { h with }

theorem inv_setMem (h : s.Inv) {m : Memory} (hm : m.Good s.cfg.memBytes) : { s with mem := m }.Inv :=
  { h with sorted := hm.sorted, inside := hm.inside }

/-- The reset registers meet the invariant, whatever legal size memory has (70_reset_and_hazards.md R251). -/
theorem inv_of_reset (hl : s.cfg.Legal) (hm : s.mem.Good s.cfg.memBytes) (hr : s.regs = .reset) : s.Inv where
  legal := hl
  sorted := hm.sorted
  inside := hm.inside
  busyClean := by simp [hr, Regs.reset]
  errHasCode := by simp [hr, Regs.reset]
  infoZero := by simp [hr, Regs.reset]
  classReserved := by simp [hr, Regs.reset]
  interlaceReserved := by simp [hr, Regs.reset]
  nextInside := by simp [hr, Regs.reset]

/-! ## Start and completion -/

/-- A started command has `DONE`, `ERR`, `ERRCODE` and `ERR_INFO` 0 (40_control.md R110). -/
theorem inv_startCommand (h : s.Inv) (v : Word) : (startCommand v s).Inv :=
  { h with
    busyClean := fun _ => ⟨rfl, rfl, rfl⟩
    errHasCode := by simp
    infoZero := fun _ => rfl }

theorem inv_finish (h : s.Inv) : (finish s).Inv := { h with busyClean := by simp }

/-- An error is raised with a code (60_exceptions.md R220, R221). -/
theorem inv_raiseError (h : s.Inv) {e : ErrCode} (he : e ≠ .none) (n : Nat) : (raiseError e n s).Inv :=
  { h with
    busyClean := by simp
    errHasCode := by simp [he]
    infoZero := by simp }

theorem inv_finishLoop (h : s.Inv) {e : ErrCode} (he : e ≠ .none) {o : Memory × Option Nat}
    (ho : o.1.Good s.cfg.memBytes) : (finishLoop e o s).Inv := by
  obtain ⟨m, k⟩ := o
  cases k with
  | none => exact inv_finish (inv_setMem h ho)
  | some k => exact inv_raiseError (inv_setMem h ho) he k

theorem inv_dropWrite (h : s.Inv) : (dropWrite s).Inv := { h with }

/-! ## What the commands write to registers -/

theorem inv_setCrcState (h : s.Inv) (c : Word) : (s.setCrcState c).Inv := { h with }

theorem inv_setCrcOk (h : s.Inv) (ok : Bool) : (s.setCrcOk ok).Inv := { h with }

/-- A framed chunk's end is at most `LIMIT`, and `LIMIT` at most `MEM_BYTES` (10_state.md R40, R41). -/
theorem inv_frameResults (h : s.Inv) (hfits : ChunkFits s) :
    (frameResults s.regs.src.toNat (s.mem.be32 s.regs.src.toNat).toNat s).Inv :=
  { h with
    classReserved := class_lt _ _
    nextInside := by
      obtain ⟨hlim, -, hend⟩ := hfits
      calc (BitVec.ofNat 32 (s.regs.src.toNat + 12 + (s.mem.be32 s.regs.src.toNat).toNat)).toNat
          ≤ s.regs.src.toNat + 12 + (s.mem.be32 s.regs.src.toNat).toNat := by
            rw [BitVec.toNat_ofNat]
            exact Nat.mod_le _ _
        _ ≤ s.cfg.memBytes := hend.trans hlim }

theorem inv_retype (h : s.Inv) :
    { s with regs := { s.regs with chClass := retypedClass s.regs.chClass s.regs.chType } }.Inv :=
  { h with
    classReserved := by
      rw [retypedClass_eq]
      exact class_lt _ _ }

/-- `HDR_INTERLACE` is loaded from one byte (10_state.md R45). -/
theorem inv_loadHeader (h : s.Inv) (a : Nat) : (loadHeader a s).Inv :=
  { h with
    interlaceReserved := by
      simp only [loadHeader, BitVec.toNat_setWidth]
      exact (Nat.mod_le _ _).trans_lt (s.mem.read (a + 12)).isLt }

theorem inv_resampleAnswer (h : s.Inv) {pix : Nat} (hfits : ResampleFits s pix) : (resampleAnswer s pix).Inv := by
  obtain ⟨-, -, -, -, hout, -⟩ := hfits
  have hm := inv_setMem h (good_resampleLoop (good_of_inv h) s.regs.src.toNat s.regs.dst.toNat s.regs.hdrWidth.toNat
    s.regs.thumbW s.regs.thumbH s.regs.stepSize.toNat pix hout)
  exact inv_finish { hm with }

/-! ## Every command -/

theorem inv_of_raises {t : State} {o : Host.Outcome State Fault Refusal} (h : s.Inv) (hr : Raises o s)
    (ho : o = .next t) : t.Inv := by
  obtain ⟨e, n, he, hn⟩ := hr
  obtain rfl := Host.Outcome.next.inj (hn.symm.trans ho)
  exact inv_raiseError h he n

theorem inv_of_next {t u : State} {o : Host.Outcome State Fault Refusal} (hn : o = .next u) (hu : u.Inv)
    (ho : o = .next t) : t.Inv := by
  obtain rfl := Host.Outcome.next.inj (hn.symm.trans ho)
  exact hu

/-- Every command keeps the invariant, in success and in error. -/
theorem inv_exec {t : State} (h : s.Inv) (i : Instr) (he : exec i s = .next t) : t.Inv := by
  cases i with
  | nop => exact inv_of_next rfl (inv_finish h) he
  | crcInit => exact inv_of_next rfl (inv_finish (inv_setCrcState h _)) he
  | crcUpdate =>
    rcases execCrcUpdate_cases s with hr | ⟨-, hu⟩
    · exact inv_of_raises h hr he
    · exact inv_of_next hu (inv_finish (inv_setCrcState h _)) he
  | crcCheck => exact inv_of_next rfl (inv_finish (inv_setCrcOk h _)) he
  | chunkFrame =>
    rcases execChunkFrame_cases s with hr | ⟨hfits, hu⟩
    · exact inv_of_raises h hr he
    · exact inv_of_next hu (inv_finish (inv_frameResults h hfits)) he
  | typeDecode => exact inv_of_next rfl (inv_finish (inv_retype h)) he
  | hdrLoad =>
    rcases execHdrLoad_cases s with hr | ⟨-, hu⟩
    · exact inv_of_raises h hr he
    · exact inv_of_next hu (inv_finish (inv_loadHeader h _)) he
  | stripRows =>
    rcases execStripRows_cases s with hr | ⟨k, -, ⟨-, -, hout, -⟩, hu⟩
    · exact inv_of_raises h hr he
    · exact inv_of_next hu (inv_finishLoop h (by decide) (good_stripLoop (good_of_inv h) _ _ _ _ hout)) he
  | expandRgba sp =>
    rcases execExpandRgba_cases sp s with hr | ⟨k, -, ⟨-, hout, -⟩, hu⟩
    · exact inv_of_raises h hr he
    · exact inv_of_next hu (inv_finishLoop h (by decide) (good_expandLoop (good_of_inv h) _ _ _ _ _ _ hout)) he
  | resample pix =>
    rcases execResample_cases pix s with hr | ⟨hfits, hu⟩
    · exact inv_of_raises h hr he
    · exact inv_of_next hu (inv_resampleAnswer h hfits) he

theorem inv_complete {t : State} (h : s.Inv) (hc : complete s = .next t) : t.Inv := by
  unfold complete at hc
  split at hc
  · obtain rfl := Host.Outcome.next.inj hc
    exact inv_raiseError h (by decide) 0
  · exact inv_exec h _ hc

/-! ## The host's writes and the resets -/

/-- A write to `STATUS` clears `DONE` and `WERR` only (10_state.md R23). -/
theorem inv_statusWrite (h : s.Inv) (v : Word) : (s.setStatus (s.regs.status.hostWrite v)).Inv :=
  { h with
    busyClean := fun hb => by
      obtain ⟨hd, he, hi⟩ := h.busyClean hb
      exact ⟨by simp [hd], he, hi⟩ }

/-- No stored register write reaches `STATUS`, `ERR_INFO`, `CH_CLASS` or `CH_NEXT`, and a write to `HDR_INTERLACE`
stores its low byte only (10_state.md R20, R45). -/
theorem inv_put (h : s.Inv) (r : Reg) (v : Word) : { s with regs := s.regs.put r v }.Inv := by
  cases r
  case hdrInterlace =>
    exact { h with
      interlaceReserved := by
        simp only [Regs.put, BitVec.toNat_and]
        exact Nat.and_le_right.trans_lt (by decide) }
  all_goals exact { h with }

theorem inv_softReset (h : s.Inv) : (softReset s).Inv :=
  inv_of_reset h.legal (good_scramble (good_of_inv h) _ _ _ (Nat.min_le_right _ _)) rfl

theorem inv_powerOnReset (h : s.Inv) : (powerOnReset s).Inv :=
  inv_of_reset h.legal ⟨List.Pairwise.nil, by simp⟩ rfl

theorem inv_writeCtrl (h : s.Inv) (v : Word) : (writeCtrl v s).Inv := by
  rcases writeCtrl_cases v s with ⟨-, hw⟩ | ⟨-, hw⟩ <;> rw [hw]
  · exact inv_softReset h
  · exact { h with }

theorem inv_writeOffset (h : s.Inv) (off : Nat) (v : Word) : (writeOffset off v s).Inv := by
  rcases writeOffset_cases off v s with ⟨-, hw⟩ | ⟨-, hw⟩ | ⟨-, hw⟩ | ⟨-, -, hw⟩ | ⟨-, hw | ⟨r, hw⟩⟩ <;> rw [hw]
  · exact inv_writeCtrl h v
  · exact inv_statusWrite h v
  · exact inv_dropWrite h
  · exact inv_startCommand h v
  · exact h
  · exact inv_put h r v

/-- A buffer write in the form of R61 stays inside memory (20_memory.md R61). -/
theorem inv_writeBuf (h : s.Inv) {a width : Nat} (hf : BufForm s.cfg a width) (v : Word) :
    (writeBuf a width v s).Inv := by
  unfold writeBuf
  split_ifs with hb hw
  · exact inv_dropWrite h
  · exact inv_setMem h (good_write (good_of_inv h) _ (by omega))
  · exact inv_setMem h (good_writeBytes (good_of_inv h) _ (by simp [le32Bytes]; omega))

theorem inv_hostWrite {t : State} (h : s.Inv) {tgt : Target} {width : Nat} {v : Word}
    (hw : hostWrite tgt width v s = .next t) : t.Inv := by
  rcases hostWrite_cases hw with ⟨off, -, -, -, -, rfl⟩ | ⟨a, -, hf, rfl⟩
  · exact inv_writeOffset h off v
  · exact inv_writeBuf h hf v

theorem inv_hostStep {t : State} (h : s.Inv) (hs : hostStep s = .next t) : t.Inv := by
  rcases hostStep_cases hs with ⟨tgt, width, v, rest, -, hw⟩ | ⟨agent, n, rfl⟩
  · exact inv_hostWrite (inv_surroundings h _ _ _) hw
  · exact inv_surroundings h agent _ n

theorem inv_engineStep {t : State} (h : s.Inv) (hs : engineStep s = .next t) : t.Inv := by
  rcases engineStep_cases hs with ⟨-, hc⟩ | ⟨-, rfl⟩
  · exact inv_complete h hc
  · exact h

end

/-- Settles O53: the engine, the host and the power-on reset each keep the invariant. -/
theorem everyStepKeepsTheInvariant : Obligations.EveryStepKeepsTheInvariant := by
  intro s t hinv hstep
  obtain ⟨ts, ⟨-, h⟩ | ⟨-, h⟩ | ⟨-, rfl⟩⟩ := step_cases hstep
  · exact inv_engineStep (inv_surroundings hinv _ ts _) h
  · exact inv_hostStep (inv_surroundings hinv _ ts _) h
  · exact inv_powerOnReset (inv_surroundings hinv _ ts _)

end Sys2Proof.Machine
end

section
/-! PROOFS. A command starts only by a host write to `CMD` (00_scope.md R6, 40_control.md R110). -/

namespace Sys2Proof.Machine

/-- From idle, the one register write that leaves the block busy is the one to `CMD` (40_control.md R110). -/
theorem writeOffset_starts {off : Nat} {v : Word} {s : State} (hbusy : (writeOffset off v s).regs.status.busy = true)
    (hidle : s.regs.status.busy = false) : off = 0x00C ∧ writeOffset off v s = startCommand v s := by
  rcases writeOffset_cases off v s with ⟨-, hw⟩ | ⟨-, hw⟩ | ⟨hb, -⟩ | ⟨-, hoff, hw⟩ | ⟨-, hw | ⟨r, hw⟩⟩
  · rcases writeCtrl_cases v s with ⟨-, hc⟩ | ⟨-, hc⟩
    · simp [hw, hc, Regs.reset] at hbusy
    · simp [hw, hc, hidle] at hbusy
  · simp [hw, hidle] at hbusy
  · simp [hidle] at hb
  · exact ⟨hoff, hw⟩
  · simp [hw, hidle] at hbusy
  · simp [hw, hidle] at hbusy

/-- A buffer write, done or dropped, leaves `BUSY` alone (20_memory.md R61, R68). -/
@[simp] theorem writeBuf_busy (a width : Nat) (v : Word) (s : State) :
    (writeBuf a width v s).regs.status.busy = s.regs.status.busy := by
  unfold writeBuf
  split_ifs <;> rfl

/-- Settles O54: of the three agents only the host makes an idle block busy, and of its statements only the write that
reaches `CMD`. -/
theorem onlyAHostWriteToCmdStartsACommand : Obligations.OnlyAHostWriteToCmdStartsACommand := by
  intro s t hstep hidle hbusy
  obtain ⟨ts, ⟨-, h⟩ | ⟨-, h⟩ | ⟨-, rfl⟩⟩ := step_cases hstep
  · rcases engineStep_cases h with ⟨hb, -⟩ | ⟨-, rfl⟩
    · simp [hidle] at hb
    · simp [hidle] at hbusy
  · rcases hostStep_cases h with ⟨tgt, width, v, rest, hprog, hw⟩ | ⟨agent, n, rfl⟩
    · rcases hostWrite_cases hw with ⟨off, hres, rfl, -, -, rfl⟩ | ⟨a, -, -, rfl⟩
      · obtain ⟨rfl, hstart⟩ := writeOffset_starts hbusy hidle
        exact ⟨tgt, v, rest, hprog, hres, by rw [hstart]; rfl, by rw [hstart]; rfl⟩
      · simp [hidle] at hbusy
    · simp [hidle] at hbusy
  · simp [Regs.reset] at hbusy

end Sys2Proof.Machine
end

section
/-! PROOFS. Host-bus addresses reach the register block and the aperture through their bases (00_scope.md R8,
20_memory.md R61). -/

namespace Sys2Proof.Machine

section
variable {s : State} {t t' : Target} {c : Config} {x : Nat}

/-- Targets that name one place are written alike and read alike. -/
theorem hostWrite_of_same_port (h : t.resolve s.cfg = t'.resolve s.cfg) (width : Nat) (v : Word) :
    hostWrite t width v s = hostWrite t' width v s := by
  simp only [hostWrite, h]

theorem hostRead_of_same_port (h : t.resolve s.cfg = t'.resolve s.cfg) (width : Nat) :
    hostRead t width s = hostRead t' width s := by
  simp only [hostRead, h]

theorem hostWrite_unrouted (h : t.resolve s.cfg = none) (width : Nat) (v : Word) :
    hostWrite t width v s = .refused .busUnrouted := by
  simp only [hostWrite, h]

theorem hostRead_unrouted (h : t.resolve s.cfg = none) (width : Nat) :
    hostRead t width s = .refused .busUnrouted := by
  simp only [hostRead, h]

/-- The address is in the register window. -/
abbrev InRegWindow (c : Config) (x : Nat) : Prop := c.regBase ≤ x ∧ x < c.regBase + 0x1000

/-- The address is in the buffer aperture. -/
abbrev InAperture (c : Config) (x : Nat) : Prop := c.memBase ≤ x ∧ x < c.memBase + c.memBytes

theorem resolve_bus_reg (hr : InRegWindow c x) (hb : ¬ InAperture c x) :
    (Target.bus x).resolve c = some (.reg (x - c.regBase)) :=
  if_pos ⟨hr, hb⟩

theorem resolve_bus_buf (hb : InAperture c x) (hr : ¬ InRegWindow c x) :
    (Target.bus x).resolve c = some (.buf (x - c.memBase)) :=
  (if_neg fun h => hr h.1).trans (if_pos ⟨hb, hr⟩)

theorem resolve_bus_none (h : InRegWindow c x ↔ InAperture c x) : (Target.bus x).resolve c = none :=
  (if_neg fun hr => hr.2 (h.1 hr.1)).trans (if_neg fun hb => hb.2 (h.2 hb.1))

end

/-- Settles O47: an address in one window names the port at its offset, any other names none. -/
theorem busAddressesReachTheBlock : Obligations.BusAddressesReachTheBlock := by
  intro s x width v inRegs inBuf
  refine ⟨fun hr hb => ?_, fun hb hr => ?_, fun h => ?_⟩
  · have hport := resolve_bus_reg hr hb
    exact ⟨hostWrite_of_same_port hport width v, hostRead_of_same_port hport width⟩
  · have hport := resolve_bus_buf hb hr
    exact ⟨hostWrite_of_same_port hport width v, hostRead_of_same_port hport width⟩
  · have hnone := resolve_bus_none h
    exact ⟨hostWrite_unrouted hnone width v, hostRead_unrouted hnone width⟩

end Sys2Proof.Machine
end

section
/-! PROOFS. Register accesses by register: what a host read sees (10_state.md R48, R51), and what a stored write leaves
(10_state.md R20). -/

namespace Sys2Proof.Machine

section
variable {s : State} {i : Instr} {r : Reg}

/-! ## Reads -/

theorem hostRead_offset (r : Reg) (s : State) :
    hostRead (.port (.reg r.offset)) 32 s = .next (received (s.seenReg r) s) := by
  obtain ⟨h4, hspan⟩ := offset_form r
  rw [hostRead_reg s h4 hspan]
  simp [State.seenOffset]

/-- No command lists `STATUS` in its write set: of its bits only `CRC_OK` has a lot of its own (10_state.md R51). -/
theorem status_not_mem_writeSet (i : Instr) : Reg.status ∉ writeSet i := by
  cases i <;> simp [writeSet]

theorem unspecified_status (s : State) : s.unspecified .status = false := by
  rw [Bool.eq_false_iff, ne_eq, unspecified_iff]
  rintro ⟨i, -, hmem | ⟨hne, -⟩⟩
  · exact status_not_mem_writeSet i hmem
  · cases hne

theorem crcOkUnspecified_iff (s : State) :
    s.crcOkUnspecified = true ↔ ∃ i, s.inFlight = some i ∧ writesCrcOk i = true := by
  unfold State.crcOkUnspecified
  cases s.inFlight <;> simp

/-- A register outside the write set of the command in flight is seen as it is (10_state.md R51). -/
theorem seenReg_exact (hr : r ≠ .status)
    (hout : ∀ i, s.inFlight = some i → r ∉ writeSet i ∧ (r = .crcResult → Reg.crcState ∉ writeSet i)) :
    s.seenReg r = s.regs.get r := by
  have hspec : ¬ s.unspecified r = true := by
    rw [unspecified_iff]
    rintro ⟨i, hi, hmem | ⟨hview, hmem⟩⟩
    · exact (hout i hi).1 hmem
    · exact (hout i hi).2 hview hmem
  rw [State.seenReg, if_neg hspec, if_neg fun h => hr h.1]

/-- A register in the write set of the command in flight is seen as a free draw (10_state.md R51). -/
theorem seenReg_free (hi : s.inFlight = some i)
    (hmem : r ∈ writeSet i ∨ (r = .crcResult ∧ Reg.crcState ∈ writeSet i)) :
    s.seenReg r = Config.freeWord s.draws :=
  if_pos ((unspecified_iff s r).2 ⟨i, hi, hmem⟩)

/-- Bit `n` of `STATUS` as the host sees it (10_state.md R51). -/
theorem seenReg_status_getLsbD (s : State) (n : Nat) :
    (s.seenReg .status).getLsbD n =
      if n = 4 ∧ s.crcOkUnspecified then (Config.freeWord s.draws).getLsbD 4
      else (s.regs.get .status).getLsbD n := by
  cases hc : s.crcOkUnspecified with
  | false => simp [State.seenReg, unspecified_status, hc]
  | true =>
    simp only [State.seenReg, unspecified_status, hc, Regs.get, status_word_getLsbD, Bool.false_eq_true, and_self,
      if_true, if_false]
    by_cases hn : n = 4
    · simp [hn]
    · simp [hn]

/-- Nothing is in flight while `BUSY = 0`. -/
theorem inFlight_idle (hb : s.regs.status.busy = false) : s.inFlight = none := by
  simp [State.inFlight, hb]

/-- With no command in flight every register is seen as it is (10_state.md R51). -/
theorem seenReg_idle (hb : s.regs.status.busy = false) (r : Reg) : s.seenReg r = s.regs.get r := by
  simp [State.seenReg, State.unspecified, State.crcOkUnspecified, inFlight_idle hb]

theorem status_word_errcode (t : Status) : t.word.extractLsb' 8 8 = t.errcode.code := by
  apply BitVec.eq_of_getLsbD_eq
  intro n hn
  simp [status_word_getLsbD, Nat.add_comm 8 n, show n + 8 < 16 by omega, hn]

/-! ## Writes -/

theorem hostWrite_put (r : Reg) (v : Word) (hb : s.regs.status.busy = false) (hctrl : r ≠ .ctrl)
    (hstatus : r ≠ .status) (hcmd : r ≠ .cmd) :
    hostWrite (.port (.reg r.offset)) 32 v s = .next { s with regs := s.regs.put r v } := by
  obtain ⟨h4, hspan⟩ := offset_form r
  rw [hostWrite_reg s v h4 hspan, writeOffset_put r v hb hctrl hstatus hcmd]

/-- The two lists of 10_state.md section 1 hold every register but the three whose write acts, and only those. -/
theorem mem_plainRW_or_readOnly_iff (r : Reg) :
    (r ∈ plainRW ∨ r ∈ readOnly) ↔ r ≠ .ctrl ∧ r ≠ .status ∧ r ≠ .cmd := by
  cases r <;> simp [plainRW, readOnly]

theorem put_readOnly (hr : r ∈ readOnly) (g : Regs) (v : Word) : g.put r v = g := by
  fin_cases hr <;> rfl

/-- A writable register holds the written word, `HDR_INTERLACE` its low byte (10_state.md R20, R45). -/
theorem get_put_self (hr : r ∈ plainRW) (g : Regs) (v : Word) :
    (g.put r v).get r = if r = .hdrInterlace then v &&& 0xFF else v := by
  fin_cases hr <;> rfl

/-- A stored write reaches no other register, the view of `CRC_STATE` aside (10_state.md R20, R34). -/
theorem get_put_ne {q : Reg} (hne : q ≠ r) (hview : q = .crcResult → r ≠ .crcState) (g : Regs) (v : Word) :
    (g.put r v).get q = g.get q := by
  cases r <;> cases q <;> first | rfl | contradiction

end

/-- Settles O38: a read hands over what is seen, which is exact or a free draw by the write set. -/
theorem registerReadsAreExactOutsideTheWriteSet : Obligations.RegisterReadsAreExactOutsideTheWriteSet := by
  intro s
  refine ⟨fun r hr hout => ?_, fun r i hi hmem => ?_, ?_⟩
  · exact ⟨_, hostRead_offset r s, seenReg_exact hr hout, rfl, rfl, rfl⟩
  · exact ⟨_, hostRead_offset r s, seenReg_free hi hmem, by simp [busy_of_inFlight hi], rfl, rfl, rfl⟩
  · refine ⟨_, hostRead_offset .status s, rfl, rfl, rfl, fun n hexact => ?_, fun i hi hcrc => ?_⟩
    · refine (seenReg_status_getLsbD s n).trans (if_neg ?_)
      rintro ⟨hn, hfree⟩
      obtain ⟨i, hi, hcrc⟩ := (crcOkUnspecified_iff s).1 hfree
      simp [hexact hn i hi] at hcrc
    · have hfree := (crcOkUnspecified_iff s).2 ⟨i, hi, hcrc⟩
      exact ⟨(seenReg_status_getLsbD s 4).trans (if_pos ⟨rfl, hfree⟩), by simp [busy_of_inFlight hi]⟩

/-- Settles O40: an idle write stores in the one register it names. -/
theorem registerWritesReadBack : Obligations.RegisterWritesReadBack := by
  intro s r v hb hctrl hstatus hcmd
  refine ⟨_, hostWrite_put r v hb hctrl hstatus hcmd, fun hr => get_put_self hr _ v, fun hr => ?_,
    (mem_plainRW_or_readOnly_iff r).2 ⟨hctrl, hstatus, hcmd⟩, fun q hne hview => get_put_ne hne hview _ v, rfl,
    rfl, rfl, rfl, rfl, rfl⟩
  rw [put_readOnly hr]

/-- Settles O48: `ID` is in no write set, and its value is a constant. -/
theorem idAlwaysReadsTheIdentity : Obligations.IdAlwaysReadsTheIdentity := by
  intro s
  refine ⟨_, hostRead_offset .id s, seenReg_exact (by decide) fun i _ => ⟨?_, by simp⟩⟩
  cases i <;> simp [writeSet]

end Sys2Proof.Machine
end

section
/-! PROOFS. The register map by number (10_state.md section 1). -/

namespace Sys2Proof.Machine

/-- The registers whose value is one word: all but `CTRL` and `STATUS` (10_state.md section 1). -/
def wordRegs : List Reg :=
  [.id, .cmd, .errInfo, .src, .dst, .len, .limit, .palBase, .palLen, .stepSize, .crcState, .crcResult, .crcExpect,
   .chLen, .chType, .chPayload, .chCrc, .chNext, .chClass, .hdrWidth, .hdrHeight, .hdrFmt, .hdrInterlace, .outW, .outH]

section
variable {s : State}

theorem hostRead_idle (hb : s.regs.status.busy = false) (r : Reg) :
    hostRead (.port (.reg r.offset)) 32 s = .next (received (s.regs.get r) s) := by
  rw [hostRead_offset, seenReg_idle hb]

theorem hostWrite_plainRW {r : Reg} (hr : r ∈ plainRW) (hb : s.regs.status.busy = false) (v : Word) :
    hostWrite (.port (.reg r.offset)) 32 v s = .next { s with regs := s.regs.put r v } := by
  obtain ⟨hctrl, hstatus, hcmd⟩ := (mem_plainRW_or_readOnly_iff r).1 (.inl hr)
  exact hostWrite_put r v hb hctrl hstatus hcmd

theorem hostWrite_readOnly {r : Reg} (hr : r ∈ readOnly) (hb : s.regs.status.busy = false) (v : Word) :
    hostWrite (.port (.reg r.offset)) 32 v s = .next s := by
  obtain ⟨hctrl, hstatus, hcmd⟩ := (mem_plainRW_or_readOnly_iff r).1 (.inr hr)
  rw [hostWrite_put r v hb hctrl hstatus hcmd, put_readOnly hr]

end

/-- Settles O58: each table of numbers is the model's own map, read off along a list of registers. -/
theorem registerMapIsTheTable : Obligations.RegisterMapIsTheTable := by
  intro s v hb
  refine ⟨fun row hrow => ?_, ?_, ?_, fun row hrow => ?_, fun off hoff => ?_⟩
  · change row ∈ wordRegs.map fun r => (r.offset, s.regs.get r) at hrow
    obtain ⟨r, -, rfl⟩ := List.mem_map.1 hrow
    exact ⟨_, hostRead_idle hb r, rfl, rfl, rfl⟩
  · exact ⟨_, hostRead_idle hb .ctrl, flag_getLsbD _ (by decide)⟩
  · have hbit := status_word_getLsbD s.regs.status
    exact ⟨_, hostRead_idle hb .status, (hbit 0).trans (by simp), (hbit 1).trans (by simp), (hbit 2).trans (by simp),
      (hbit 3).trans (by simp), (hbit 4).trans (by simp), status_word_errcode _⟩
  · change row ∈ plainRW.map fun r => (r.offset, s.regs.put r v) at hrow
    obtain ⟨r, hr, rfl⟩ := List.mem_map.1 hrow
    exact hostWrite_plainRW hr hb v
  · change off ∈ readOnly.map Reg.offset at hoff
    obtain ⟨r, hr, rfl⟩ := List.mem_map.1 hoff
    exact hostWrite_readOnly hr hb v

end Sys2Proof.Machine
end

section
/-! PROOFS. The writes that act at any time, `CTRL` and `STATUS`, the dropped ones, and the offsets outside the map
(10_state.md R22, R23, R48, R50, 20_memory.md R68). -/

namespace Sys2Proof.Machine

section
variable {s : State}

theorem hostWrite_ctrl (v : Word) (s : State) : hostWrite (.port (.reg 0x004)) 32 v s = .next (writeCtrl v s) :=
  hostWrite_reg s v (by decide) (by decide)

theorem hostWrite_ctrl_enable {v : Word} (hv : v.getLsbD 1 = false) (s : State) :
    hostWrite (.port (.reg 0x004)) 32 v s =
      .next { s with regs := { s.regs with ctrl := { irqEn := v.getLsbD 0 } } } := by
  rw [hostWrite_ctrl, writeCtrl, if_neg (by rw [hv]; decide)]

theorem hostWrite_ctrl_reset {v : Word} (hv : v.getLsbD 1 = true) (s : State) :
    hostWrite (.port (.reg 0x004)) 32 v s = .next (softReset s) := by
  rw [hostWrite_ctrl, writeCtrl, if_pos hv]

theorem hostWrite_status (v : Word) (s : State) :
    hostWrite (.port (.reg 0x008)) 32 v s = .next (s.setStatus (s.regs.status.hostWrite v)) :=
  hostWrite_reg s v (by decide) (by decide)

theorem writeBuf_of_busy (hb : s.regs.status.busy = true) (a width : Nat) (v : Word) :
    writeBuf a width v s = dropWrite s :=
  if_pos hb

/-- A soft reset keeps every byte outside the destination region it abandons (70_reset_and_hazards.md R253). -/
theorem read_softReset_outside {x : Nat} (h : ¬ s.InFlightRegion x) : (softReset s).mem.read x = s.mem.read x := by
  rw [← inFlightDest_iff] at h
  exact read_scramble_outside _ _ _ _ _ (by omega)

/-- A soft reset leaves one free draw in the abandoned region, up to `MEM_BYTES` (70_reset_and_hazards.md R253). -/
theorem read_softReset_inside {x : Nat} (hx : x < s.cfg.memBytes) (h : s.InFlightRegion x) :
    (softReset s).mem.read x = Config.freeByte s.draws x := by
  rw [← inFlightDest_iff] at h
  exact read_scramble_inside _ _ _ _ _ (by omega)

/-- Bit `n` of `STATUS` after a host write: `DONE` and `WERR` cleared where it carries 1 (10_state.md R20, R23). -/
theorem status_hostWrite_word_getLsbD (t : Status) (v : Word) (n : Nat) :
    (t.hostWrite v).word.getLsbD n =
      if n = 1 ∨ n = 3 then t.word.getLsbD n && !v.getLsbD n else t.word.getLsbD n := by
  simp only [status_word_getLsbD, Status.hostWrite]
  by_cases h1 : n = 1
  · simp [h1]
  by_cases h3 : n = 3
  · simp [h3]
  · simp [h1, h3]

/-- The reserved bits of `STATUS` read 0 (10_state.md R20). -/
theorem status_word_reserved (t : Status) {n : Nat} (h5 : 5 ≤ n) (hn : n ≤ 7 ∨ 16 ≤ n) : t.word.getLsbD n = false := by
  have hcode : 8 ≤ n → ¬ n < 16 := by omega
  simp +contextual [status_word_getLsbD, show n ≠ 0 by omega, show n ≠ 1 by omega, show n ≠ 2 by omega,
    show n ≠ 3 by omega, show n ≠ 4 by omega, hcode]

/-- Writing `STATUS` changes no other register. -/
theorem get_setStatus_ne (st : Status) {r : Reg} (hr : r ≠ .status) : (s.setStatus st).regs.get r = s.regs.get r := by
  cases r <;> first | rfl | contradiction

end

/-- Settles O37: every write but those to `CTRL` and `STATUS` is dropped while busy. -/
theorem writesWhileBusyOnlySetWerr : Obligations.WritesWhileBusyOnlySetWerr := by
  intro s v hb
  refine ⟨fun off hspan h4 hctrl hstatus => ?_, fun a width hform => ?_, hostWrite_status v s,
    fun hv => hostWrite_ctrl_enable hv s, fun hv => ⟨_, hostWrite_ctrl_reset hv s, rfl⟩⟩
  · rw [hostWrite_reg s v h4 hspan, writeOffset_busy v hctrl hstatus hb]
    rfl
  · rw [hostWrite_buf v hform, writeBuf_of_busy hb]
    rfl

/-- Settles O41: an offset without a register is read as 0, and a write to it is dropped or ignored. -/
theorem unmappedOffsetsReadZeroAndIgnoreWrites : Obligations.UnmappedOffsetsReadZeroAndIgnoreWrites := by
  intro s off hspan h4 hmap
  have hnone : Reg.ofOffset off = none :=
    Option.eq_none_iff_forall_ne_some.2 fun r hr => hmap r (offset_ofOffset hr)
  refine ⟨⟨_, hostRead_reg s h4 hspan, by simp [State.seenOffset, hnone], rfl, rfl⟩, fun v => ?_⟩
  rw [hostWrite_reg s v h4 hspan]
  cases hb : s.regs.status.busy with
  | true =>
    rw [writeOffset_busy v (hmap .ctrl).symm (hmap .status).symm hb]
    rfl
  | false =>
    rw [writeOffset_unmapped v hb hnone]
    rfl

/-- Settles O42: the write replaces `STATUS` alone, and in it clears two bits. -/
theorem statusWritesClearOnlyDoneAndWerr : Obligations.StatusWritesClearOnlyDoneAndWerr := by
  intro s v
  exact ⟨_, hostWrite_status v s, status_hostWrite_word_getLsbD s.regs.status v,
    fun n h5 hn => status_word_reserved _ h5 hn, fun r hr => get_setStatus_ne _ hr, rfl, rfl, rfl, rfl, rfl, rfl⟩

/-- Settles O43: the word's bit 1 chooses between the enable and the soft reset. -/
theorem ctrlWritesSetTheEnableOrReset : Obligations.CtrlWritesSetTheEnableOrReset := by
  intro s v
  refine ⟨fun hv => hostWrite_ctrl_enable hv s, fun hv => ⟨_, hostWrite_ctrl_reset hv s, rfl, fun x hout => ?_,
    fun x i hx hi hlo hhi => ?_, rfl, rfl, rfl⟩⟩
  · exact read_softReset_outside fun ⟨i, hi, hin⟩ => hout i hi hin
  · exact read_softReset_inside hx ⟨i, hi, hlo, hhi⟩

end Sys2Proof.Machine
end

section
/-! PROOFS. Which accesses are refused (10_state.md R49, 20_memory.md R64). -/

namespace Sys2Proof.Machine

/-- A read of a port is refused for the form of the access only (log 11). -/
theorem hostRead_port_refused_iff (p : Port) (width : Nat) (s : State) :
    (∃ why, hostRead (.port p) width s = .refused why) ↔ ¬ p.refusal s.cfg width = none := by
  cases h : p.refusal s.cfg width with
  | some why => simp [hostRead, Target.resolve, h]
  | none => cases p <;> simp [hostRead, Target.resolve, h]

/-- A write to a port is refused for the form of the access only, busy or idle (log 11). -/
theorem hostWrite_port_refused_iff (p : Port) (width : Nat) (v : Word) (s : State) :
    (∃ why, hostWrite (.port p) width v s = .refused why) ↔ ¬ p.refusal s.cfg width = none := by
  cases h : p.refusal s.cfg width with
  | some why => simp [hostWrite, Target.resolve, h]
  | none => cases p <;> simp [hostWrite, Target.resolve, h]

/-- Settles O46: the form of the access alone decides. -/
theorem onlyMalformedHostAccessesAreRefused : Obligations.OnlyMalformedHostAccessesAreRefused := by
  intro s width v
  refine ⟨fun off => ?_, fun a => ?_⟩
  · rw [hostRead_port_refused_iff, hostWrite_port_refused_iff, refusal_reg_none]
    exact ⟨Iff.rfl, Iff.rfl⟩
  · rw [hostRead_port_refused_iff, hostWrite_port_refused_iff, refusal_buf_none]
    exact ⟨Iff.rfl, Iff.rfl⟩

end Sys2Proof.Machine
end

section
/-! PROOFS. A command changes no register outside its write set (40_control.md R115), so the engine changes no operand
register (10_state.md R53). -/

namespace Sys2Proof.Machine

section
variable {s t u : State} {ws : List Reg} {o : Host.Outcome State Fault Refusal}

theorem keepsRegsBut_of_nil (h : KeepsRegsBut [] s t) (ws : List Reg) : KeepsRegsBut ws s t :=
  fun r _ hstatus hinfo _ => h r (by simp) hstatus hinfo (by simp)

/-- The end of a completion step changes `STATUS` only (40_control.md R112). -/
theorem keepsRegsBut_finish (h : KeepsRegsBut ws s t) : KeepsRegsBut ws s (finish t) :=
  fun r hw hstatus hinfo hview => (get_setStatus_ne _ hstatus).trans (h r hw hstatus hinfo hview)

theorem setCrcOk_keepsRegs (s : State) (ok : Bool) : KeepsRegsBut [] s (s.setCrcOk ok) :=
  fun _ _ hstatus _ _ => get_setStatus_ne _ hstatus

/-! In each of the next five a register is outside the list and not written, or in it. -/

theorem setCrcState_keepsRegs (s : State) (c : Word) : KeepsRegsBut [.crcState] s (s.setCrcState c) := by
  intro r hw _ _ hview
  cases r <;> first | rfl | contradiction

theorem frameResults_keepsRegs (a len : Nat) (s : State) :
    KeepsRegsBut (writeSet .chunkFrame) s (frameResults a len s) := by
  intro r hw hstatus _ hview
  cases r <;> first | rfl | contradiction

theorem setChClass_keepsRegs (s : State) (c : Word) :
    KeepsRegsBut [.chClass] s { s with regs := { s.regs with chClass := c } } := by
  intro r hw _ _ _
  cases r <;> first | rfl | contradiction

theorem loadHeader_keepsRegs (a : Nat) (s : State) : KeepsRegsBut (writeSet .hdrLoad) s (loadHeader a s) := by
  intro r hw _ _ _
  cases r <;> first | rfl | contradiction

theorem setOutput_keepsRegs (s : State) (m : Memory) (w h : Word) :
    KeepsRegsBut [.outW, .outH] s { s with mem := m, regs := { s.regs with outW := w, outH := h } } := by
  intro r hw _ _ _
  cases r <;> first | rfl | contradiction

theorem keepsRegsBut_of_next (h : KeepsRegsBut ws s u) (hn : o = .next u) (ho : o = .next t) :
    KeepsRegsBut ws s t := by
  obtain rfl := Host.Outcome.next.inj (hn.symm.trans ho)
  exact h

theorem keepsRegsBut_of_raises (hr : Raises o s) (ho : o = .next t) (ws : List Reg) : KeepsRegsBut ws s t := by
  obtain ⟨e, n, -, hn⟩ := hr
  exact keepsRegsBut_of_next (keepsRegsBut_of_nil (raiseError_keepsRegs e n s) ws) hn ho

/-- A command changes no register outside its write set, `STATUS` and `ERR_INFO` aside, in success and in error
(40_control.md R115). -/
theorem exec_keepsRegs (i : Instr) (he : exec i s = .next t) : KeepsRegsBut (writeSet i) s t := by
  cases i with
  | nop => exact keepsRegsBut_of_next (keepsRegsBut_finish fun _ _ _ _ _ => rfl) rfl he
  | crcInit => exact keepsRegsBut_of_next (keepsRegsBut_finish (setCrcState_keepsRegs s _)) rfl he
  | crcUpdate =>
    rcases execCrcUpdate_cases s with hr | ⟨-, hu⟩
    · exact keepsRegsBut_of_raises hr he _
    · exact keepsRegsBut_of_next (keepsRegsBut_finish (setCrcState_keepsRegs s _)) hu he
  | crcCheck => exact keepsRegsBut_of_next (keepsRegsBut_finish (setCrcOk_keepsRegs s _)) rfl he
  | chunkFrame =>
    rcases execChunkFrame_cases s with hr | ⟨-, hu⟩
    · exact keepsRegsBut_of_raises hr he _
    · exact keepsRegsBut_of_next (keepsRegsBut_finish (frameResults_keepsRegs _ _ s)) hu he
  | typeDecode => exact keepsRegsBut_of_next (keepsRegsBut_finish (setChClass_keepsRegs s _)) rfl he
  | hdrLoad =>
    rcases execHdrLoad_cases s with hr | ⟨-, hu⟩
    · exact keepsRegsBut_of_raises hr he _
    · exact keepsRegsBut_of_next (keepsRegsBut_finish (loadHeader_keepsRegs _ s)) hu he
  | stripRows =>
    rcases execStripRows_cases s with hr | ⟨k, -, -, hu⟩
    · exact keepsRegsBut_of_raises hr he _
    · exact keepsRegsBut_of_next (finishLoop_keepsRegs _ _ s).1 hu he
  | expandRgba sp =>
    rcases execExpandRgba_cases sp s with hr | ⟨k, -, -, hu⟩
    · exact keepsRegsBut_of_raises hr he _
    · exact keepsRegsBut_of_next (finishLoop_keepsRegs _ _ s).1 hu he
  | resample pix =>
    rcases execResample_cases pix s with hr | ⟨-, hu⟩
    · exact keepsRegsBut_of_raises hr he _
    · exact keepsRegsBut_of_next (keepsRegsBut_finish (setOutput_keepsRegs s _ _ _)) hu he

/-- The completion step rejects an illegal word or runs the decoded command (40_control.md R111, R112). -/
theorem complete_cases (s : State) :
    Raises (complete s) s ∨ ∃ i, decode s.regs.cmd = .ok i ∧ complete s = exec i s := by
  cases hd : decode s.regs.cmd with
  | error e => exact .inl ⟨.illegalCmd, 0, by decide, by simp only [complete, hd]⟩
  | ok i => exact .inr ⟨i, rfl, by simp only [complete, hd]⟩

/-- The engine's completion step keeps every register that no command's write set lists, `STATUS` and `ERR_INFO`
aside. -/
theorem complete_keepsReg (hc : complete s = .next t) {r : Reg} (hw : ∀ i, r ∉ writeSet i) (hstatus : r ≠ .status)
    (hinfo : r ≠ .errInfo) (hview : r ≠ .crcResult) : t.regs.get r = s.regs.get r := by
  rcases complete_cases s with hill | ⟨i, -, hi⟩
  · exact keepsRegsBut_of_raises hill hc [] r (by simp) hstatus hinfo (by simp)
  · exact exec_keepsRegs i (hi.symm.trans hc) r (hw i) hstatus hinfo fun h => absurd h hview

/-- The registers that only the host writes, as operands (10_state.md section 3). -/
abbrev operandRegs : List Reg := [.src, .dst, .len, .limit, .palBase, .palLen, .stepSize]

theorem operand_not_mem_writeSet {r : Reg} (hr : r ∈ operandRegs) (i : Instr) : r ∉ writeSet i := by
  fin_cases hr <;> cases i <;> simp [writeSet]

end

/-- Settles O56: no write set lists an operand register. -/
theorem theEngineNeverChangesOperandRegisters : Obligations.TheEngineNeverChangesOperandRegisters := by
  intro s t r hr hs
  rcases engineStep_cases hs with ⟨-, hc⟩ | ⟨-, rfl⟩
  · exact complete_keepsReg hc (operand_not_mem_writeSet hr) (ne_of_mem_of_not_mem hr (by decide))
      (ne_of_mem_of_not_mem hr (by decide)) (ne_of_mem_of_not_mem hr (by decide))
  · rfl

end Sys2Proof.Machine
end

section
/-! PROOFS. Host accesses to buffer memory: what a read sees, byte by byte, and what a write stores (20_memory.md R60
to R62, R67). -/

namespace Sys2Proof.Machine

section
variable {s : State} {a : Nat}

/-! ## Words of four bytes -/

/-- Byte `i` of a little-endian word is the one at the `i`-th lowest address (20_memory.md R62). -/
theorem le32_extractLsb' (f : Nat → Byte) {i : Nat} (hi : i < 4) :
    (le32 (f 0) (f 1) (f 2) (f 3)).extractLsb' (8 * i) 8 = f i := by
  apply BitVec.eq_of_getLsbD_eq
  intro n hn
  simp only [le32, BitVec.getLsbD_extractLsb', BitVec.getLsbD_or, BitVec.getLsbD_shiftLeft, BitVec.getLsbD_setWidth]
  have hlow : ∀ l, 8 ≤ l → n < l := by omega
  have hlane : ∀ k l, k + 8 ≤ l → n + k < l := by omega
  interval_cases i <;> simp [hlow, hlane, Nat.add_comm _ n]

theorem le32Bytes_getElem (v : Word) {i : Nat} (hi : i < (le32Bytes v).length) :
    (le32Bytes v)[i] = v.extractLsb' (8 * i) 8 := by
  have h4 : i < 4 := hi
  interval_cases i <;> rfl

/-! ## Reads -/

theorem hostRead_byte (ha : a < s.cfg.memBytes) :
    hostRead (.port (.buf a)) 8 s = .next (received ((s.seenByte a).setWidth 32) s) :=
  hostRead_buf (.inl ⟨rfl, ha⟩)

theorem hostRead_word (h4 : a % 4 = 0) (ha : a + 4 ≤ s.cfg.memBytes) :
    hostRead (.port (.buf a)) 32 s = .next (received (s.seenBuf a 32) s) :=
  hostRead_buf (.inr ⟨rfl, h4, ha⟩)

/-- A 32-bit read sees each of its bytes as an 8-bit read does (20_memory.md R62, R67). -/
theorem seenBuf_word_extractLsb' (s : State) (a : Nat) {i : Nat} (hi : i < 4) :
    (s.seenBuf a 32).extractLsb' (8 * i) 8 = s.seenByte (a + i) :=
  le32_extractLsb' (fun j => s.seenByte (a + j)) hi

/-- With no command in flight every byte is seen as it is (20_memory.md R67). -/
theorem seenByte_idle (hb : s.regs.status.busy = false) (x : Nat) : s.seenByte x = s.mem.read x :=
  seenByte_exact fun ⟨_, hi, _⟩ => by simp [inFlight_idle hb] at hi

theorem hostRead_byte_idle (hb : s.regs.status.busy = false) (ha : a < s.cfg.memBytes) :
    hostRead (.port (.buf a)) 8 s = .next (received ((s.mem.read a).setWidth 32) s) := by
  rw [hostRead_byte ha, seenByte_idle hb]

/-- A read that meets the destination region uses up a draw number (20_memory.md R67; log 4). -/
theorem received_draws_of_inFlightRegion {x : Nat} (h : s.InFlightRegion x) (v : Word) :
    (received v s).draws = s.draws + 1 := by
  obtain ⟨i, hi, -⟩ := h
  simp [busy_of_inFlight hi]

/-! ## Writes to the idle block -/

theorem hostWrite_byte (hb : s.regs.status.busy = false) (ha : a < s.cfg.memBytes) (v : Word) :
    hostWrite (.port (.buf a)) 8 v s = .next { s with mem := s.mem.write a (v.extractLsb' 0 8) } := by
  rw [hostWrite_buf v (.inl ⟨rfl, ha⟩)]
  simp [writeBuf, hb]

theorem hostWrite_word (hb : s.regs.status.busy = false) (h4 : a % 4 = 0) (ha : a + 4 ≤ s.cfg.memBytes) (v : Word) :
    hostWrite (.port (.buf a)) 32 v s = .next { s with mem := s.mem.writeBytes a (le32Bytes v) } := by
  rw [hostWrite_buf v (.inr ⟨rfl, h4, ha⟩)]
  simp [writeBuf, hb]

/-- Byte `i` of a stored word stands at the `i`-th address (20_memory.md R62). -/
theorem read_writeBytes_le32Bytes (m : Memory) (a : Nat) (v : Word) {i : Nat} (hi : i < 4) :
    (m.writeBytes a (le32Bytes v)).read (a + i) = v.extractLsb' (8 * i) 8 := by
  exact (read_writeBytes_inside m a i (le32Bytes v) hi).trans (le32Bytes_getElem v hi)

/-- The low byte of a word, zero-extended, is the word masked (log 15). -/
theorem setWidth_lowByte (v : Word) : (v.extractLsb' 0 8).setWidth 32 = v &&& 0xFF := by
  apply BitVec.eq_of_toNat_eq
  have hmask : v.toNat &&& 0xFF = v.toNat % 256 := Nat.and_two_pow_sub_one_eq_mod v.toNat 8
  have hlt : v.toNat % 256 < 2 ^ 32 := by omega
  simpa [hmask] using hlt

end

/-- Settles O39: a read hands over the bytes as they are seen, each exact or a free draw by the region. -/
theorem byteReadsAreExactOutsideTheDestination : Obligations.ByteReadsAreExactOutsideTheDestination := by
  intro s a
  refine ⟨fun ha => ?_, fun h4 ha => ?_⟩
  · exact ⟨_, hostRead_byte ha, rfl, rfl, rfl, fun hout => congrArg (·.setWidth 32) (seenByte_exact hout),
      fun hin => ⟨congrArg (·.setWidth 32) (seenByte_free hin), received_draws_of_inFlightRegion hin _⟩⟩
  · refine ⟨_, hostRead_word h4 ha, rfl, rfl, rfl, fun i hi => ?_⟩
    have hbyte := seenBuf_word_extractLsb' s a hi
    exact ⟨fun hout => hbyte.trans (seenByte_exact hout),
      fun hin => ⟨hbyte.trans (seenByte_free hin), received_draws_of_inFlightRegion hin _⟩⟩

/-- Settles O44: byte `i` of the word read or written belongs to address `a + i`. -/
theorem hostWordsAreLittleEndian : Obligations.HostWordsAreLittleEndian := by
  intro s a v hb h4 ha
  have hseen {i : Nat} (hi : i < 4) : (s.seenBuf a 32).extractLsb' (8 * i) 8 = s.mem.read (a + i) :=
    (seenBuf_word_extractLsb' s a hi).trans (seenByte_idle hb _)
  have hstored {i : Nat} (hi : i < 4) := read_writeBytes_le32Bytes s.mem a v hi
  exact ⟨⟨_, hostRead_word h4 ha, hseen (i := 0) (by decide), hseen (i := 1) (by decide), hseen (i := 2) (by decide),
      hseen (i := 3) (by decide)⟩,
    _, hostWrite_word hb h4 ha v, hstored (i := 0) (by decide), hstored (i := 1) (by decide),
    hstored (i := 2) (by decide), hstored (i := 3) (by decide), fun x hx => read_writeBytes_outside _ _ _ _ hx, rfl,
    rfl, rfl, rfl, rfl, writeBytes_draw _ _ _⟩

/-- Settles O45: the byte written is the one the idle read sees. -/
theorem hostBytesReadBack : Obligations.HostBytesReadBack := by
  intro s a v hb ha
  refine ⟨_, hostWrite_byte hb ha v, read_write_self _ _ _, fun x hx => read_write_ne _ _ (by omega), rfl,
    ⟨rfl, rfl, rfl, rfl, rfl⟩, _, hostRead_byte_idle hb ha, ?_⟩
  have hread : (s.mem.write a (v.extractLsb' 0 8)).read a = v.extractLsb' 0 8 := read_write_self _ _ _
  exact (congrArg (·.setWidth 32) hread).trans (setWidth_lowByte v)

end Sys2Proof.Machine
end

section
/-! PROOFS. The command word and its fields: a command's word decodes to it, and a word that decodes is its command's
word (30_encoding.md R90 to R94, R99, R101). -/

namespace Sys2Proof

section
variable {w v : Word} {i : Instr}

/-! ## The fields of a word -/

theorem opField_word (op opt : Byte) : opField (op.setWidth 32 ||| opt.setWidth 32 <<< 8) = op := by
  apply BitVec.eq_of_getLsbD_eq
  intro k hk
  simp [opField, hk, show k < 32 by omega]

theorem optField_word (op opt : Byte) : optField (op.setWidth 32 ||| opt.setWidth 32 <<< 8) = opt := by
  apply BitVec.eq_of_getLsbD_eq
  intro k hk
  simp [optField, hk, show 8 + k < 32 by omega]

theorem rsvField_word (op opt : Byte) : rsvField (op.setWidth 32 ||| opt.setWidth 32 <<< 8) = 0 := by
  apply BitVec.eq_of_getLsbD_eq
  intro k hk
  have hop : op.getLsbD (16 + k) = false := BitVec.getLsbD_of_ge _ _ (by omega)
  have hopt : opt.getLsbD (16 + k - 8) = false := BitVec.getLsbD_of_ge _ _ (by omega)
  simp [rsvField, hop, hopt]

@[simp] theorem opField_encode (i : Instr) : opField (encode i) = i.op := opField_word i.op i.opt

@[simp] theorem optField_encode (i : Instr) : optField (encode i) = i.opt := optField_word i.op i.opt

@[simp] theorem rsvField_encode (i : Instr) : rsvField (encode i) = 0 := rsvField_word i.op i.opt

@[simp] theorem opField_and (w v : Word) : opField (w &&& v) = opField w &&& opField v := BitVec.extractLsb'_and

@[simp] theorem optField_and (w v : Word) : optField (w &&& v) = optField w &&& optField v := BitVec.extractLsb'_and

@[simp] theorem rsvField_and (w v : Word) : rsvField (w &&& v) = rsvField w &&& rsvField v := BitVec.extractLsb'_and

theorem word_eq_iff_fields :
    w = v ↔ opField w = opField v ∧ optField w = optField v ∧ rsvField w = rsvField v := by
  refine ⟨fun h => by simp [h], fun ⟨hop, hopt, hrsv⟩ => ?_⟩
  rw [word_eq_fields w, word_eq_fields v, hop, hopt, hrsv]

/-! ## The options that an operation defines (30_encoding.md R95, R101) -/

/-- A byte has no bit outside its low `k` exactly when it is a number of `k` bits. -/
theorem and_not_lowBits_eq_zero_iff (b : Byte) (k : Nat) :
    b &&& ~~~ BitVec.ofNat 8 (2 ^ k - 1) = 0 ↔ b.toNat < 2 ^ k := by
  constructor
  · intro h
    refine Nat.lt_pow_two_of_testBit _ fun n hn => ?_
    have hbit := congrArg (·.getLsbD n) h
    simp only [BitVec.getLsbD_and, BitVec.getLsbD_not, BitVec.getLsbD_ofNat, Nat.testBit_two_pow_sub_one] at hbit
    rcases Nat.lt_or_ge n 8 with hn8 | hn8
    · simpa [hn8, hn.not_gt, BitVec.testBit_toNat] using hbit
    · exact BitVec.getLsbD_of_ge b n hn8
  · intro h
    apply BitVec.eq_of_getLsbD_eq
    intro n hn
    have hbit : k ≤ n → b.getLsbD n = false := fun hkn =>
      Nat.testBit_lt_two_pow (h.trans_le (Nat.pow_le_pow_right (by decide) hkn))
    simp only [BitVec.getLsbD_and, BitVec.getLsbD_not, BitVec.getLsbD_ofNat, Nat.testBit_two_pow_sub_one]
    by_cases hkn : k ≤ n
    · simp [hbit hkn]
    · simp [hn, Nat.lt_of_not_ge hkn]

/-- An option field without undefined bits is a number that the operation's own bits can write. -/
theorem and_not_definedMask_eq_zero_iff (b : Byte) (i : Instr) :
    b &&& ~~~ i.definedMask = 0 ↔ b.toNat ≤ i.definedMask.toNat := by
  rw [Nat.le_iff_lt_add_one]
  cases i with
  | expandRgba sp => exact and_not_lowBits_eq_zero_iff b 1
  | resample pix => exact and_not_lowBits_eq_zero_iff b 3
  | nop | crcInit | crcUpdate | crcCheck | chunkFrame | typeDecode | hdrLoad | stripRows =>
    exact and_not_lowBits_eq_zero_iff b 0

theorem opt_le_definedMask (h : i.wellFormed = true) : i.opt.toNat ≤ i.definedMask.toNat := by
  cases i with
  | expandRgba sp => cases sp <;> decide
  | resample pix =>
    have hpix : pix < 8 := by simpa [Instr.wellFormed] using h
    change pix % 2 ^ 8 ≤ 7
    omega
  | nop | crcInit | crcUpdate | crcCheck | chunkFrame | typeDecode | hdrLoad | stripRows => decide

/-! ## The three steps of the decoder (30_encoding.md R101) -/

/-- A word decodes exactly when it has no reserved bit, its operation is in the table and its options are defined. -/
theorem decode_eq_ok_iff :
    decode w = .ok i ↔ rsvField w = 0 ∧ instrOfOp w = some i ∧ (optField w).toNat ≤ i.definedMask.toNat := by
  rw [← and_not_definedMask_eq_zero_iff]
  refine ⟨decode_ok, fun ⟨hrsv, hop, hopt⟩ => ?_⟩
  simp [decode, hrsv, hop, hopt]

/-- The operation number finds the command's row, whatever the options. -/
theorem exists_instrOfOp (h : opField w = i.op) :
    ∃ j, instrOfOp w = some j ∧ j.rowMatch = i.rowMatch ∧ j.definedMask = i.definedMask := by
  cases i with
  | expandRgba sp => exact ⟨.expandRgba (spField w), by simp [instrOfOp, h, Instr.op], rfl, rfl⟩
  | resample pix => exact ⟨.resample (pixField w), by simp [instrOfOp, h, Instr.op], rfl, rfl⟩
  | nop | crcInit | crcUpdate | crcCheck | chunkFrame | typeDecode | hdrLoad | stripRows =>
    exact ⟨_, by simp only [instrOfOp, h]; rfl, rfl, rfl⟩

/-- The fields of a well-formed command's word name the command. -/
theorem instrOfOp_encode (h : i.wellFormed = true) : instrOfOp (encode i) = some i := by
  cases i with
  | expandRgba sp => cases sp <;> rfl
  | resample pix =>
    have hpix : pix < 8 := by simpa [Instr.wellFormed] using h
    have hread : pixField (encode (.resample pix)) = pix := by
      rw [pixField_eq, optField_encode]
      change pix % 2 ^ 8 % 8 = pix
      omega
    simp [instrOfOp, Instr.op, hread]
  | nop | crcInit | crcUpdate | crcCheck | chunkFrame | typeDecode | hdrLoad | stripRows => rfl

theorem decode_encode (h : i.wellFormed = true) : decode (encode i) = .ok i :=
  decode_eq_ok_iff.mpr ⟨rsvField_encode i, instrOfOp_encode h, by simpa using opt_le_definedMask h⟩

/-- A command named by a word, with no undefined option in it, has the word's options. -/
theorem opt_eq_optField (h : instrOfOp w = some i) (hopt : (optField w).toNat ≤ i.definedMask.toNat) :
    i.opt = optField w := by
  obtain ⟨-, hsp, hpix⟩ := instrOfOp_some h
  apply BitVec.eq_of_toNat_eq
  cases i with
  | expandRgba sp =>
    have hle : (optField w).toNat ≤ 1 := hopt
    rw [hsp sp rfl, spField_eq]
    obtain h0 | h1 : optField w = 0 ∨ optField w = 1 := by bv_omega
    · simp [h0, Instr.opt]
    · simp [h1, Instr.opt]
  | resample pix =>
    have hle : (optField w).toNat ≤ 7 := hopt
    have hpix := hpix pix rfl
    rw [pixField_eq] at hpix
    change pix % 2 ^ 8 = (optField w).toNat
    omega
  | nop | crcInit | crcUpdate | crcCheck | chunkFrame | typeDecode | hdrLoad | stripRows =>
    exact (Nat.le_zero.mp hopt).symm

theorem wellFormed_of_instrOfOp (h : instrOfOp w = some i) : i.wellFormed = true := by
  obtain ⟨-, -, hpix⟩ := instrOfOp_some h
  cases i with
  | resample pix =>
    have hlt : pix < 8 := by
      rw [hpix pix rfl, pixField_eq]
      omega
    exact decide_eq_true hlt
  | nop | crcInit | crcUpdate | crcCheck | chunkFrame | typeDecode | hdrLoad | stripRows | expandRgba => rfl

theorem encode_eq_of_decode (h : decode w = .ok i) : encode i = w := by
  obtain ⟨hrsv, hop, hopt⟩ := decode_eq_ok_iff.mp h
  refine word_eq_iff_fields.mpr ⟨?_, ?_, ?_⟩
  · rw [opField_encode, (instrOfOp_some hop).1]
  · rw [optField_encode, opt_eq_optField hop hopt]
  · rw [rsvField_encode, hrsv]

/-! ## The rows of the opcode table (30_encoding.md R101) -/

/-- A word selects a command's row exactly when it has the command's operation number, no undefined option and no
reserved bit. -/
theorem selectsRow_iff (w : Word) (i : Instr) :
    w &&& i.rowMask = i.rowMatch ↔
      opField w = i.op ∧ (optField w).toNat ≤ i.definedMask.toNat ∧ rsvField w = 0 := by
  have hmask : opField i.rowMask = BitVec.allOnes 8 ∧ optField i.rowMask = ~~~ i.definedMask ∧
      rsvField i.rowMask = BitVec.allOnes 16 := by
    cases i <;> simp only [Instr.rowMask, Instr.definedMask] <;> decide
  have hmatch : opField i.rowMatch = i.op ∧ optField i.rowMatch = 0 ∧ rsvField i.rowMatch = 0 := by
    cases i <;> simp only [Instr.rowMatch, Instr.op] <;> decide
  obtain ⟨hop, hopt, hrsv⟩ := hmask
  obtain ⟨hop', hopt', hrsv'⟩ := hmatch
  rw [word_eq_iff_fields, ← and_not_definedMask_eq_zero_iff]
  simp only [opField_and, optField_and, rsvField_and, hop, hopt, hrsv, hop', hopt', hrsv', BitVec.and_allOnes]

theorem exists_decode_of_selectsRow (h : w &&& i.rowMask = i.rowMatch) :
    ∃ j, decode w = .ok j ∧ j.rowMatch = i.rowMatch := by
  obtain ⟨hop, hopt, hrsv⟩ := (selectsRow_iff w i).mp h
  obtain ⟨j, hj, hrow, hmask⟩ := exists_instrOfOp hop
  exact ⟨j, decode_eq_ok_iff.mpr ⟨hrsv, hj, hmask ▸ hopt⟩, hrow⟩

theorem selectsRow_of_decode (h : decode w = .ok i) : w &&& i.rowMask = i.rowMatch := by
  obtain ⟨hrsv, hop, hopt⟩ := decode_eq_ok_iff.mp h
  exact (selectsRow_iff w i).mpr ⟨(instrOfOp_some hop).1, hopt, hrsv⟩

/-! ## The illegal words by number (30_encoding.md R96) -/

/-- The rows by number: which operation numbers the table has, and up to which number each has options. -/
theorem exists_row_iff (n o : Nat) :
    (∃ i : Instr, n = i.op.toNat ∧ o ≤ i.definedMask.toNat) ↔
      (n ≤ 0x03 ∨ 0x10 ≤ n ∧ n ≤ 0x12 ∨ n = 0x20) ∧ o = 0 ∨ n = 0x30 ∧ o ≤ 1 ∨ n = 0x40 ∧ o ≤ 7 := by
  constructor
  · rintro ⟨i, hop, hopt⟩
    cases i <;> simp [Instr.op, Instr.definedMask] at hop hopt <;> omega
  · rintro (⟨hn | hn | rfl, rfl⟩ | ⟨rfl, ho⟩ | ⟨rfl, ho⟩)
    · interval_cases n
      exacts [⟨.nop, by decide⟩, ⟨.crcInit, by decide⟩, ⟨.crcUpdate, by decide⟩, ⟨.crcCheck, by decide⟩]
    · obtain ⟨hlo, hhi⟩ := hn
      interval_cases n
      exacts [⟨.chunkFrame, by decide⟩, ⟨.typeDecode, by decide⟩, ⟨.hdrLoad, by decide⟩]
    · exact ⟨.stripRows, by decide⟩
    · exact ⟨.expandRgba true, rfl, ho⟩
    · exact ⟨.resample 0, rfl, ho⟩

/-- A word is legal when its fields, as numbers, are those of a row. -/
theorem exists_decode_iff (w : Word) :
    (∃ i, decode w = .ok i) ↔
      (∃ i : Instr, w.toNat % 256 = i.op.toNat ∧ w.toNat / 256 % 256 ≤ i.definedMask.toNat) ∧ w.toNat / 65536 = 0 := by
  have hrow (i : Instr) : w &&& i.rowMask = i.rowMatch ↔
      (w.toNat % 256 = i.op.toNat ∧ w.toNat / 256 % 256 ≤ i.definedMask.toNat) ∧ w.toNat / 65536 = 0 := by
    rw [selectsRow_iff, ← BitVec.toNat_inj, ← BitVec.toNat_inj (x := rsvField w), opField_toNat, optField_toNat,
      rsvField_toNat, and_assoc]
    rfl
  constructor
  · rintro ⟨i, hi⟩
    obtain ⟨hfields, hrsv⟩ := (hrow i).mp (selectsRow_of_decode hi)
    exact ⟨⟨i, hfields⟩, hrsv⟩
  · rintro ⟨⟨i, hi⟩, hrsv⟩
    obtain ⟨j, hj, -⟩ := exists_decode_of_selectsRow ((hrow i).mpr ⟨hi, hrsv⟩)
    exact ⟨j, hj⟩

theorem exists_error_iff (w : Word) : (∃ e, decode w = .error e) ↔ ¬ ∃ i, decode w = .ok i := by
  cases decode w <;> simp

end

/-- Settles O1: the word's three fields are the command's. -/
theorem decodeEncodeGivesBackTheCommand : Obligations.DecodeEncodeGivesBackTheCommand :=
  fun _ h => decode_encode h

/-- Settles O2: a word is its three fields, and each is the decoded command's. -/
theorem encodeDecodeGivesBackTheWord : Obligations.EncodeDecodeGivesBackTheWord :=
  fun _ _ h => ⟨encode_eq_of_decode h, wellFormed_of_instrOfOp (decode_ok h).2.1⟩

/-- Settles O3: the mask compares the fields that the decoder tests. -/
theorem legalWordsSelectExactlyOneRow : Obligations.LegalWordsSelectExactlyOneRow := by
  intro w
  refine ⟨fun i => selectsRow_of_decode, fun i => exists_decode_of_selectsRow, fun e he i hrow => ?_⟩
  obtain ⟨j, hj, -⟩ := exists_decode_of_selectsRow hrow
  exact absurd (he.symm.trans hj) (by simp)

/-- Settles O5: seven words are words of their commands, three fail one test of the decoder each. -/
theorem tableWordsDecodeToTheirCommands : Obligations.TableWordsDecodeToTheirCommands :=
  ⟨decode_encode (i := .nop) rfl, decode_encode (i := .crcInit) rfl, decode_encode (i := .chunkFrame) rfl,
    decode_encode (i := .hdrLoad) rfl, decode_encode (i := .stripRows) rfl, decode_encode (i := .expandRgba true) rfl,
    decode_encode (i := .resample 4) rfl, by decide, by decide, by decide⟩

end Sys2Proof
end

section
/-! PROOFS. What an illegal word does (30_encoding.md R96). -/

namespace Sys2Proof.Machine

theorem complete_eq_raiseError {s : State} {e : Illegal} (h : decode s.regs.cmd = .error e) :
    complete s = .next (raiseError .illegalCmd 0 s) := by
  simp only [complete, h]

/-- Settles O4: the words outside the rows by number, and the error that their completion raises. -/
theorem illegalWordsAreThoseOfTheRule : Obligations.IllegalWordsAreThoseOfTheRule := by
  intro w
  refine ⟨?_, fun s e hcmd he => complete_eq_raiseError (hcmd ▸ he)⟩
  rw [exists_error_iff, exists_decode_iff, exists_row_iff]
  omega

end Sys2Proof.Machine
end

section
/-! PROOFS. Every command completes, with or without an error, and changes only what its write set and its destination
region allow (40_control.md R112, R113, R115). -/

namespace Sys2Proof.Machine

section
variable {i : Instr} {s t u : State} {o : Host.Outcome State Fault Refusal}

/-- What a command may have done before its completion: of `STATUS` it has written only `CRC_OK`, and that where the
table lists it, and of memory only its destination region (40_control.md R115). The other registers are the matter of
`exec_keepsRegs`. -/
structure WritesWithin (i : Instr) (s u : State) : Prop where
  status : u.regs.status = { s.regs.status with crcOk := u.regs.status.crcOk }
  crcOk : writesCrcOk i = false → u.regs.status.crcOk = s.regs.status.crcOk
  errInfo : u.regs.errInfo = s.regs.errInfo
  mem : SameMemOutside s.regs.dst.toNat (destLen i s.regs) s u
  surroundings : KeepsSurroundings s u

/-- The answer is the completion, or an error raised, at a state that the command's own writes have reached. -/
def CompletesWithin (i : Instr) (s : State) (o : Host.Outcome State Fault Refusal) : Prop :=
  ∃ u, WritesWithin i s u ∧ (o = .next (finish u) ∨ Raises o u)

/-! ## Answers of each kind -/

theorem writesWithin_setRegs {g : Regs} (hstatus : g.status = { s.regs.status with crcOk := g.status.crcOk })
    (hcrc : writesCrcOk i = false → g.status.crcOk = s.regs.status.crcOk) (hinfo : g.errInfo = s.regs.errInfo) :
    WritesWithin i s { s with regs := g } :=
  ⟨hstatus, hcrc, hinfo, fun _ _ => rfl, rfl, rfl, rfl, rfl, rfl⟩

theorem completesWithin_of_raises (h : Raises o s) : CompletesWithin i s o :=
  ⟨s, writesWithin_setRegs rfl (fun _ => rfl) rfl, .inr h⟩

theorem completesWithin_of_finish (ho : o = .next (finish u)) (hu : WritesWithin i s u) : CompletesWithin i s o :=
  ⟨u, hu, .inl ho⟩

/-- The image commands complete or raise a data error after a loop (43_scanline.md R174, 44_expand.md R188). -/
theorem completesWithin_of_loop {e : ErrCode} {out : Memory × Option Nat} (he : e ≠ .none)
    (hmem : AgreeOut s.regs.dst.toNat (destLen i s.regs) s.mem out.1) (hdraw : out.1.draw = s.mem.draw)
    (ho : o = .next (finishLoop e out s)) : CompletesWithin i s o := by
  obtain ⟨m, stop⟩ := out
  refine ⟨{ s with mem := m }, ⟨rfl, fun _ => rfl, rfl, hmem, rfl, rfl, rfl, rfl, hdraw⟩, ?_⟩
  cases stop with
  | none => exact .inl ho
  | some n => exact .inr ⟨e, n, he, ho⟩

/-! ## The destination regions (40_control.md R115) -/

theorem destLen_stripRows {k : ColorKind} (hk : s.regs.colorKind = some k) :
    destLen .stripRows s.regs = s.regs.hdrHeight.toNat * s.regs.scanline k := by
  simp only [destLen, hk]

theorem destLen_expandRgba {k : ColorKind} (hk : s.regs.colorKind = some k) (sp : Bool) :
    destLen (.expandRgba sp) s.regs = 4 * s.regs.pixels := by
  simp only [destLen, hk]

/-- `STEP` and `PIX` by number, as the tests of `RESAMPLE` take them (45_resample.md R206, R207). -/
theorem destLen_resample (pix : Nat) (g : Regs) :
    destLen (.resample pix) g =
      if g.stepSize.toNat = 0 ∨ pix = 0 ∨ 4 < pix then 0 else g.thumbW * g.thumbH * pix := by
  have hzero : g.stepSize = 0 ↔ g.stepSize.toNat = 0 := BitVec.toNat_inj.symm
  simp only [destLen, hzero]

/-- `RESAMPLE` writes its two result registers and its destination region (45_resample.md R207). -/
theorem resample_completesWithin {pix : Nat} (hfits : ResampleFits s pix)
    (ho : o = .next (resampleAnswer s pix)) : CompletesWithin (.resample pix) s o := by
  obtain ⟨hstep, hlo, hhi, -, -, hov⟩ := hfits
  have hlen : destLen (.resample pix) s.regs = s.regs.thumbW * s.regs.thumbH * pix := by
    rw [destLen_resample, if_neg (by omega)]
  have hmem := (resampleLoop_spec s.mem hstep hov).2
  exact completesWithin_of_finish ho
    ⟨rfl, fun _ => rfl, rfl, fun x hx => hmem x (hlen ▸ hx), rfl, rfl, rfl, rfl, resampleLoop_draw ..⟩

/-! ## Every command -/

/-- Each command is a completion, or an error raised, after writes within its table row (40_control.md R112, R115). -/
theorem exec_completesWithin (i : Instr) (s : State) : CompletesWithin i s (exec i s) := by
  cases i with
  | nop => exact completesWithin_of_finish rfl (writesWithin_setRegs rfl (fun _ => rfl) rfl)
  | crcInit => exact completesWithin_of_finish rfl (writesWithin_setRegs rfl (fun _ => rfl) rfl)
  | crcUpdate =>
    rcases execCrcUpdate_cases s with hr | ⟨-, hu⟩
    · exact completesWithin_of_raises hr
    · exact completesWithin_of_finish hu (writesWithin_setRegs rfl (fun _ => rfl) rfl)
  | crcCheck => exact completesWithin_of_finish rfl (writesWithin_setRegs rfl nofun rfl)
  | chunkFrame =>
    rcases execChunkFrame_cases s with hr | ⟨-, hu⟩
    · exact completesWithin_of_raises hr
    · exact completesWithin_of_finish hu (writesWithin_setRegs rfl nofun rfl)
  | typeDecode => exact completesWithin_of_finish rfl (writesWithin_setRegs rfl (fun _ => rfl) rfl)
  | hdrLoad =>
    rcases execHdrLoad_cases s with hr | ⟨-, hu⟩
    · exact completesWithin_of_raises hr
    · exact completesWithin_of_finish hu (writesWithin_setRegs rfl (fun _ => rfl) rfl)
  | stripRows =>
    rcases execStripRows_cases s with hr | ⟨k, hk, -, hu⟩
    · exact completesWithin_of_raises hr
    · have hmem := stripLoop_agreeOut s.regs.src.toNat s.regs.dst.toNat (s.regs.scanline k) s.regs.hdrHeight.toNat
        s.mem
      exact completesWithin_of_loop (by decide) (destLen_stripRows hk ▸ hmem) (stripLoop_draw ..) hu
  | expandRgba sp =>
    rcases execExpandRgba_cases sp s with hr | ⟨k, hk, -, hu⟩
    · exact completesWithin_of_raises hr
    · have hmem := expandLoop_agreeOut k s.regs.src.toNat s.regs.dst.toNat
        (s.regs.palette sp (s.regs.pixels * k.bpp)).1 (s.regs.palette sp (s.regs.pixels * k.bpp)).2 s.regs.pixels s.mem
      exact completesWithin_of_loop (by decide) (destLen_expandRgba hk sp ▸ hmem) (expandLoop_draw ..) hu
  | resample pix =>
    rcases execResample_cases pix s with hr | ⟨hfits, hu⟩
    · exact completesWithin_of_raises hr
    · exact resample_completesWithin hfits hu

/-- The completion and the raising of an error keep `WERR`, `CRC_OK`, memory and the surroundings, so a command's
answer keeps of them what its own writes keep. -/
theorem exec_frame (he : exec i s = .next t) :
    t.regs.status.werr = s.regs.status.werr ∧
      (writesCrcOk i = false → t.regs.status.crcOk = s.regs.status.crcOk) ∧
      SameMemOutside s.regs.dst.toNat (destLen i s.regs) s t ∧ KeepsSurroundings s t := by
  obtain ⟨u, hu, ho⟩ := exec_completesWithin i s
  have hwerr : u.regs.status.werr = s.regs.status.werr := by rw [hu.status]
  rcases ho with hn | ⟨e, n, -, hn⟩ <;> obtain rfl := Host.Outcome.next.inj (hn.symm.trans he) <;>
    exact ⟨hwerr, hu.crcOk, hu.mem, hu.surroundings⟩

end

/-- Settles O9: a command's registers keep to its write set, and everything else to its own writes. -/
theorem commandsChangeOnlyTheirWriteSet : Obligations.CommandsChangeOnlyTheirWriteSet :=
  fun i _ _ he => ⟨exec_keepsRegs i he, exec_frame he⟩

/-- Settles O8: the completion leaves the error fields as they were, and an error is raised with a code. -/
theorem everyCommandCompletes : Obligations.EveryCommandCompletes := by
  intro i s
  obtain ⟨u, hu, hn | ⟨e, n, he, hn⟩⟩ := exec_completesWithin i s
  · exact ⟨finish u, hn, rfl, rfl, fun herr hcode hinfo => .inl ⟨(congrArg Status.err hu.status).trans herr,
      (congrArg Status.errcode hu.status).trans hcode, hu.errInfo.trans hinfo⟩⟩
  · exact ⟨raiseError e n u, hn, rfl, rfl, fun _ _ _ => .inr ⟨rfl, he⟩⟩

/-- Settles O13: the word and the meaning of `NOP` are read off their definitions. -/
theorem nopOnlyCompletes : Obligations.NopOnlyCompletes :=
  ⟨rfl, fun _ => rfl⟩

/-- Settles O59: the write sets by command, and the destination lengths by the rows of the colour-type table. -/
theorem writeSetsAreThoseOfTheTable : Obligations.WriteSetsAreThoseOfTheTable := by
  refine ⟨by decide, rfl, rfl, rfl, rfl, rfl, fun _ => rfl, fun i => by cases i <;> simp [writesCrcOk], fun s =>
    ⟨fun i hi => by fin_cases hi <;> rfl, fun h => ?_, fun k p h => ?_, fun pix => destLen_resample pix s.regs,
      inFlight_idle, fun i hb hd => ?_, fun e hb hd => ?_⟩⟩
  · have hk := (noColorRow_iff s).mp h
    exact ⟨by simp only [destLen, hk], fun _ => by simp only [destLen, hk]⟩
  · obtain ⟨hk, rfl⟩ := (colorRow_iff s k p).mp h
    exact ⟨by rw [destLen_stripRows hk, Regs.scanline, Nat.mul_assoc],
      fun sp => by rw [destLen_expandRgba hk, Regs.pixels, Nat.mul_assoc]⟩
  · simp [State.inFlight, hb, hd]
  · simp [State.inFlight, hb, hd]

end Sys2Proof.Machine
end

section
/-! PROOFS. The life of a command: the host's write to `CMD` starts it, the engine's turn runs it, and only that turn or
a reset ends it (40_control.md R110 to R112, R116). -/

namespace Sys2Proof.Machine

section
variable {s t : State} {ts : List Turn}

/-! ## The start (40_control.md R110) -/

theorem hostWrite_cmd (v : Word) (s : State) : hostWrite (.port (.reg 0x00C)) 32 v s = .next (writeOffset 0x00C v s) :=
  hostWrite_reg s v (by decide) (by decide)

theorem hostWrite_cmd_idle (hb : s.regs.status.busy = false) (v : Word) :
    hostWrite (.port (.reg 0x00C)) 32 v s = .next (startCommand v s) := by
  rw [hostWrite_cmd, writeOffset_cmd v hb]

theorem hostWrite_cmd_busy (hb : s.regs.status.busy = true) (v : Word) :
    hostWrite (.port (.reg 0x00C)) 32 v s = .next (dropWrite s) := by
  rw [hostWrite_cmd, writeOffset_busy v (by decide) (by decide) hb]

/-! ## The engine's turn (40_control.md R111, R112) -/

/-- The engine completes the command on its turn, and when no turn is left (log 5). -/
theorem step_engineTurn (hturn : s.turns = .engine :: ts ∨ s.turns = [] ∧ ts = [])
    (hb : s.regs.status.busy = true) : step s = complete { s with turns := ts } := by
  obtain ⟨cfg, regs, mem, host, turns, draws⟩ := s
  obtain rfl | ⟨rfl, rfl⟩ := hturn
  · exact if_pos hb
  · exact (if_pos hb).trans (if_pos hb)

theorem complete_of_decode {i : Instr} (h : decode s.regs.cmd = .ok i) : complete s = exec i s := by
  simp only [complete, h]

theorem step_hostWrite {tgt : Target} {width : Nat} {v : Word} {rest : List HostStmt} (hturn : s.turns = .host :: ts)
    (hprog : s.host.program = .write tgt width v :: rest) :
    step s = hostWrite tgt width v { s with host := { s.host with program := rest }, turns := ts } := by
  simp only [step, hturn, hostStep, hprog, hostExec]

/-! ## The end (40_control.md R113, R116) -/

/-- The completion step, of a legal word or an illegal one, leaves the block idle with `DONE` set. -/
theorem complete_idle_done (hc : complete s = .next t) : t.regs.status.busy = false ∧ t.regs.status.done = true := by
  rcases complete_cases s with ⟨e, n, -, hn⟩ | ⟨i, -, hi⟩
  · obtain rfl := Host.Outcome.next.inj (hn.symm.trans hc)
    exact ⟨rfl, rfl⟩
  · obtain ⟨u, hu, hbusy, hdone, -⟩ := everyCommandCompletes i s
    obtain rfl := Host.Outcome.next.inj (hu.symm.trans (hi.symm.trans hc))
    exact ⟨hbusy, hdone⟩

/-- No write set lists `CMD` (40_control.md R115). -/
theorem complete_cmd (hc : complete s = .next t) : t.regs.cmd = s.regs.cmd :=
  complete_keepsReg (r := .cmd) hc (fun i => by cases i <;> simp [writeSet]) (by decide) (by decide) (by decide)

/-- While a command is in flight no register write changes `CMD` or ends it, but for the soft reset
(10_state.md R22, R50). -/
theorem writeOffset_inFlight (off : Nat) (v : Word) (hb : s.regs.status.busy = true) :
    ((writeOffset off v s).regs.status.busy = true ∧ (writeOffset off v s).regs.cmd = s.regs.cmd) ∨
      (off = 0x004 ∧ v.getLsbD 1 = true ∧ writeOffset off v s = softReset s) := by
  rcases writeOffset_cases off v s with ⟨hoff, hw⟩ | ⟨-, hw⟩ | ⟨-, hw⟩ | ⟨hidle, -⟩ | ⟨hidle, -⟩
  · rcases writeCtrl_cases v s with ⟨hv, hc⟩ | ⟨-, hc⟩
    · exact .inr ⟨hoff, hv, hw.trans hc⟩
    · exact .inl (by rw [hw, hc]; exact ⟨hb, rfl⟩)
  · exact .inl (by rw [hw]; exact ⟨hb, rfl⟩)
  · exact .inl (by rw [hw]; exact ⟨hb, rfl⟩)
  · simp [hb] at hidle
  · simp [hb] at hidle

/-- While a command is in flight the host's turn keeps it and `CMD`, or is a soft reset (40_control.md R116). -/
theorem hostStep_inFlight (h : hostStep s = .next t) (hb : s.regs.status.busy = true) :
    (t.regs.status.busy = true ∧ t.regs.cmd = s.regs.cmd) ∨
      ∃ tgt v rest, s.host.program = .write tgt 32 v :: rest ∧ tgt.resolve s.cfg = some (.reg 0x004) ∧
        v.getLsbD 1 = true ∧ t.regs = .reset := by
  rcases hostStep_cases h with ⟨tgt, width, v, rest, hprog, hw⟩ | ⟨agent, n, rfl⟩
  · rcases hostWrite_cases hw with ⟨off, hres, rfl, -, -, rfl⟩ | ⟨a, -, -, rfl⟩
    · rcases writeOffset_inFlight (s := { s with host := { s.host with program := rest } }) off v hb with
        hkeep | ⟨rfl, hv, hreset⟩
      · exact .inl hkeep
      · exact .inr ⟨tgt, v, rest, hprog, hres, hv, by rw [hreset]; rfl⟩
    · exact .inl (by rw [writeBuf_of_busy (by exact hb)]; exact ⟨hb, rfl⟩)
  · exact .inl ⟨hb, rfl⟩

end

/-- Settles O36: the write reaches the offset of `CMD`, which starts a command when idle and drops it when busy. -/
theorem writingCmdStartsTheCommand : Obligations.WritingCmdStartsTheCommand :=
  fun _ v => ⟨fun hb => hostWrite_cmd_idle hb v, fun hb => hostWrite_cmd_busy hb v⟩

/-- Settles O6: the engine's turn is the completion step, and that is the decoded command's meaning. -/
theorem engineTurnRunsTheDecodedCommand : Obligations.EngineTurnRunsTheDecodedCommand := by
  intro s ts i hturn hb hd
  rw [step_engineTurn hturn hb]
  exact complete_of_decode hd

/-- Settles O7: the host's turn starts the command, whose word the engine's turn decodes. -/
theorem writtenCommandRunsAtTheNextEngineTurn : Obligations.WrittenCommandRunsAtTheNextEngineTurn := by
  intro s i rest ts hwf hb hturns hprog
  have hstart := step_hostWrite hturns hprog
  rw [hostWrite_cmd_idle] at hstart
  · exact ⟨_, hstart, rfl, rfl, engineTurnRunsTheDecodedCommand _ ts i (.inl rfl) rfl (decode_encode hwf)⟩
  · exact hb

/-- Settles O55: of the three agents the engine completes the command, the power-on resets, and the host keeps the
command or resets. -/
theorem onlyCompletionOrResetEndsACommand : Obligations.OnlyCompletionOrResetEndsACommand := by
  intro s t hstep hb
  obtain ⟨ts, ⟨hturn, -⟩ | ⟨hturn, h⟩ | ⟨hturn, rfl⟩⟩ := step_cases hstep
  · have hengine : s.turns = .engine :: ts ∨ s.turns = [] ∧ ts = [] :=
      hturn.imp_right fun ⟨hnone, hts, _⟩ => ⟨hnone, hts⟩
    have hc := (step_engineTurn hengine hb).symm.trans hstep
    have hcmd := complete_cmd hc
    obtain ⟨-, hdone⟩ := complete_idle_done hc
    exact ⟨fun _ => hcmd, fun _ => .inl ⟨ts, hengine, hc, hdone, hcmd⟩⟩
  · have hhost : s.turns = .host :: ts := hturn.resolve_right fun ⟨_, _, hidle⟩ => by simp [hb] at hidle
    rcases hostStep_inFlight h hb with ⟨hbusy, hcmd⟩ | ⟨tgt, v, rest, hprog, hres, hv, hreset⟩
    · exact ⟨fun _ => hcmd, fun hidle => by simp [hbusy] at hidle⟩
    · exact ⟨fun hbusy => by simp [hreset, Regs.reset] at hbusy,
        fun _ => .inr (.inr ⟨ts, tgt, v, rest, hhost, hprog, hres, hv, hreset⟩)⟩
  · exact ⟨fun hbusy => by simp [Regs.reset] at hbusy, fun _ => .inr (.inl ⟨ts, hturn, rfl⟩)⟩

end Sys2Proof.Machine
end

section
/-! PROOFS. The CRC commands (41_crc.md R120 to R125): the update is a fold over the source bytes, and folds over
adjacent regions join. -/

namespace Sys2Proof.Machine

section
variable {s : State}

/-! ## The answers of `CRC_UPDATE` (41_crc.md R123) -/

theorem exec_crcUpdate_inMem (h : InMem s.cfg s.regs.src.toNat s.regs.len.toNat) :
    exec .crcUpdate s = .next (finish (s.setCrcState
      (crcRaw s.regs.crcState (s.mem.readBytes s.regs.src.toNat s.regs.len.toNat)))) :=
  if_neg (not_not_intro h)

theorem exec_crcUpdate_outside (h : ¬ InMem s.cfg s.regs.src.toNat s.regs.len.toNat) :
    exec .crcUpdate s = .next (raiseError .bounds 0 s) :=
  if_pos h

end

/-! ## The CRC of a region -/

theorem crcRaw_append (c : Word) (p q : List Byte) : crcRaw c (p ++ q) = crcRaw (crcRaw c p) q := by
  simp only [crcRaw_eq_foldl, List.foldl_append]

theorem crcRaw_readBytes_eq_foldl (c : Word) (m : Memory) (a n : Nat) :
    crcRaw c (m.readBytes a n) = (List.range n).foldl (fun c i => crcByte c (m.read (a + i))) c := by
  rw [crcRaw_eq_foldl, readBytes_eq_map, List.foldl_map]

/-- Settles O18: the fold over a joined region runs through the state that the first part leaves. -/
theorem crcOfAJoinedRegionIsTheCrcInTwoParts : Obligations.CrcOfAJoinedRegionIsTheCrcInTwoParts := by
  refine ⟨crcRaw_append, by decide, fun s t u v n k hin hlen hsrc ht hu hv => ?_⟩
  have hsmall {j : Nat} (hj : j < 2 ^ 32) : (BitVec.ofNat 32 j).toNat = j := Nat.mod_eq_of_lt hj
  have hn : (BitVec.ofNat 32 n).toNat = n := hsmall (by omega)
  have hk : (BitVec.ofNat 32 k).toNat = k := hsmall (by omega)
  rw [exec_crcUpdate_inMem (by simp only [hn]; omega)] at ht
  obtain rfl := Host.Outcome.next.inj ht
  rw [exec_crcUpdate_inMem (by simp only [hk, hsmall hsrc, finish_cfg, setCrcState_cfg]; omega)] at hu
  obtain rfl := Host.Outcome.next.inj hu
  rw [exec_crcUpdate_inMem (by simpa only [hsmall hlen] using hin)] at hv
  obtain rfl := Host.Outcome.next.inj hv
  simp only [finish_regs, finish_mem, setCrcState_regs, setCrcState_mem, hn, hk, hsmall hlen, hsmall hsrc,
    readBytes_append, crcRaw_append]

/-- Settles O14: the word and the meaning of `CRC_INIT` are read off their definitions, and the complement of the
initial state is 0. -/
theorem crcInitSetsTheInitialState : Obligations.CrcInitSetsTheInitialState :=
  ⟨rfl, fun _ => ⟨_, rfl, rfl, (by decide : ~~~(0xFFFFFFFF : Word) = 0)⟩⟩

/-- Settles O15: the bounds test chooses between the fold and `E_BOUNDS`. -/
theorem crcUpdateFoldsTheSourceBytes : Obligations.CrcUpdateFoldsTheSourceBytes := by
  refine ⟨rfl, fun s => ⟨fun hin => ?_, fun hout => exec_crcUpdate_outside (Nat.not_le.mpr hout)⟩⟩
  rw [exec_crcUpdate_inMem hin, crcRaw_readBytes_eq_foldl]
  rfl

/-- Settles O16: `CRC_RESULT` reads as the complement that `CRC_CHECK` compares. -/
theorem crcCheckComparesTheComplement : Obligations.CrcCheckComparesTheComplement :=
  ⟨rfl, fun _ => ⟨_, rfl, decide_eq_true_iff, rfl⟩⟩

/-- Settles O17: the values are computed; the CRC is the complement of the raw state. -/
theorem crcCheckValueIsReproduced : Obligations.CrcCheckValueIsReproduced := by
  have hraw : crcRaw 0xFFFFFFFF [0x31, 0x32, 0x33, 0x34, 0x35, 0x36, 0x37, 0x38, 0x39] = 0x340BC6D9 := by
    decide +kernel
  exact ⟨by decide, by decide, hraw, by rw [crc32, hraw]; rfl⟩

end Sys2Proof.Machine
end

section
/-! PROOFS. A changed byte of a chunk's tag or payload (41_crc.md R126). -/

namespace Sys2Proof.Machine

section
variable {s : State} {m : Memory} {a n x : Nat} {b : Byte}

/-- A write into a region that changes a byte changes the region's CRC (41_crc.md R126). -/
theorem crcRaw_readBytes_write_ne (c : Word) (hx : a ≤ x) (hxn : x < a + n) (hb : b ≠ m.read x) :
    crcRaw c ((m.write x b).readBytes a n) ≠ crcRaw c (m.readBytes a n) := by
  obtain ⟨i, rfl⟩ := Nat.exists_eq_add_of_le hx
  obtain ⟨j, rfl⟩ : ∃ j, n = i + (j + 1) := ⟨n - i - 1, by omega⟩
  have hbefore : (m.write (a + i) b).readBytes a i = m.readBytes a i :=
    readBytes_congr fun _ _ => read_write_ne _ _ (by omega)
  have hafter : (m.write (a + i) b).readBytes (a + i + 1) j = m.readBytes (a + i + 1) j :=
    readBytes_congr fun _ _ => read_write_ne _ _ (by omega)
  rw [readBytes_append _ a i, readBytes_append m a i, hbefore]
  simp only [Memory.readBytes, hafter, read_write_self]
  exact crcRaw_ne_of_one_byte c _ _ hb

theorem be32_write_outside (h : ¬ (a ≤ x ∧ x < a + 4)) : (m.write x b).be32 a = m.be32 a :=
  be32_congr fun _ _ => read_write_ne _ _ (by omega)

theorem exec_chunkFrame_fits (h : ChunkFits s) :
    exec .chunkFrame s = .next (finish (frameResults s.regs.src.toNat (s.mem.be32 s.regs.src.toNat).toNat s)) := by
  obtain ⟨hlim, hfirst, hchunk⟩ := h
  change execChunkFrame s = _
  simp only [execChunkFrame]
  rw [if_neg (Nat.not_lt.mpr hlim), if_neg (Nat.not_lt.mpr hfirst), if_neg (Nat.not_lt.mpr hchunk)]

/-- The comparison that `CHUNK_FRAME` writes to `CRC_OK` (42_chunk.md R143). -/
theorem frameResults_crcOk_iff (a len : Nat) (s : State) :
    (frameResults a len s).regs.status.crcOk = true ↔
      ~~~ crcRaw 0xFFFFFFFF (s.mem.readBytes (a + 4) (4 + len)) = s.mem.be32 (a + 8 + len) :=
  decide_eq_true_iff

/-- CRC_VALID of a framed chunk is its `CRC_OK` (42_chunk.md R143). -/
theorem frameResults_chClass_valid (a len : Nat) (s : State) :
    (frameResults a len s).regs.chClass.getLsbD 3 = (frameResults a len s).regs.status.crcOk :=
  (class_getLsbD _ _ 3).trans (by simp [frameResults])

end

/-- Settles O21: the length and the stored CRC are read as before, and the computed CRC is not. -/
theorem oneChangedByteMakesAChunkInvalid : Obligations.OneChangedByteMakesAChunkInvalid := by
  intro s t x b hfits ht hok hx hxn hb
  obtain rfl := Host.Outcome.next.inj ((exec_chunkFrame_fits hfits).symm.trans ht)
  have hlen : (s.mem.write x b).be32 s.regs.src.toNat = s.mem.be32 s.regs.src.toNat := be32_write_outside (by omega)
  have hbad : (frameResults s.regs.src.toNat (s.mem.be32 s.regs.src.toNat).toNat
      { s with mem := s.mem.write x b }).regs.status.crcOk = false := by
    rw [← Bool.not_eq_true, frameResults_crcOk_iff, be32_write_outside (by omega),
      ← (frameResults_crcOk_iff _ _ s).mp hok]
    exact mt (BitVec.not_inj).mp (crcRaw_readBytes_write_ne _ hx (by omega) hb)
  refine ⟨_, exec_chunkFrame_fits (by simpa only [ChunkFits, hlen] using hfits), ?_⟩
  simp only [hlen]
  exact ⟨hbad, (frameResults_chClass_valid _ _ _).trans hbad, rfl⟩

end Sys2Proof.Machine
end

section
/-! PROOFS. The chunk framer, the type decoder and the header loader (42_chunk.md R140 to R147): big-endian words byte
by byte, the bits of `CH_CLASS`, and each command's answer for each outcome of its tests. -/

namespace Sys2Proof.Machine

section
variable {s : State}

/-! ## Big-endian words (20_memory.md R63) -/

/-- A big-endian word is the little-endian word of its bytes in the opposite order. -/
theorem be32_eq_le32 (m : Memory) (a : Nat) :
    m.be32 a = le32 (m.read (a + 3)) (m.read (a + 2)) (m.read (a + 1)) (m.read a) := by
  rw [Memory.be32, le32, BitVec.or_assoc, BitVec.or_comm, BitVec.or_comm _ ((m.read (a + 3)).setWidth 32),
    BitVec.or_comm ((m.read a).setWidth 32 <<< 24), ← BitVec.or_assoc]

/-- Byte `k` of a word in memory is the one at the `k`-th lowest address (10_state.md R37). -/
theorem tagByte_be32 (m : Memory) (a : Nat) {k : Nat} (hk : k < 4) : tagByte (m.be32 a) k = m.read (a + k) := by
  have hlane := le32_extractLsb' (fun j => m.read (a + (3 - j))) (i := 3 - k) (by omega)
  rw [show 8 * (3 - k) = 24 - 8 * k by omega, show 3 - (3 - k) = k by omega] at hlane
  rw [tagByte, be32_eq_le32]
  exact hlane

theorem toNat_eq_tagBytes (w : Word) :
    w.toNat = (tagByte w 0).toNat * 2 ^ 24 + (tagByte w 1).toNat * 2 ^ 16 + (tagByte w 2).toNat * 2 ^ 8 +
      (tagByte w 3).toNat := by
  have hw := w.isLt
  simp only [tagByte, BitVec.extractLsb'_toNat, Nat.shiftRight_eq_div_pow]
  omega

theorem be32_toNat (m : Memory) (a : Nat) :
    (m.be32 a).toNat = (m.read a).toNat * 2 ^ 24 + (m.read (a + 1)).toNat * 2 ^ 16 + (m.read (a + 2)).toNat * 2 ^ 8 +
      (m.read (a + 3)).toNat := by
  rw [toNat_eq_tagBytes, tagByte_be32 m a (by decide), tagByte_be32 m a (by decide), tagByte_be32 m a (by decide),
    tagByte_be32 m a (by decide), Nat.add_zero]

/-! ## The bits of `CH_CLASS` (42_chunk.md R140, R141) -/

theorem chunkClass_caseBit (t : Word) (ok : Bool) {k : Nat} (hk : k < 3) :
    (chunkClass t ok).getLsbD k = !(tagByte t k).getLsbD 5 := by
  rw [chunkClass, class_getLsbD]
  interval_cases k <;> simp [tagByte]

theorem chunkClass_knownTag (t : Word) (ok : Bool) :
    ((chunkClass t ok).getLsbD 4 = true ↔ t = 0x49484452) ∧ ((chunkClass t ok).getLsbD 5 = true ↔ t = 0x49444154) ∧
      ((chunkClass t ok).getLsbD 6 = true ↔ t = 0x49454E44) ∧
      ((chunkClass t ok).getLsbD 7 = true ↔ t = 0x504C5445) := by
  simp only [chunkClass, class_getLsbD]
  simp

/-- The class of a tag in memory has its case bits from the tag's bytes there (42_chunk.md R140). -/
theorem chunkClass_be32_caseBit (m : Memory) (a : Nat) (ok : Bool) {k : Nat} (hk : k < 3) :
    (chunkClass (m.be32 a) ok).getLsbD k = !(m.read (a + k)).getLsbD 5 := by
  rw [chunkClass_caseBit _ _ hk, tagByte_be32 _ _ (by omega)]

/-! ## The answers of `HDR_LOAD` (42_chunk.md R146) -/

theorem exec_hdrLoad_short (h : s.regs.len.toNat < 13) : exec .hdrLoad s = .next (raiseError .invalidData 0 s) :=
  if_pos h

theorem exec_hdrLoad_outside (h13 : 13 ≤ s.regs.len.toNat) (hout : ¬ InMem s.cfg s.regs.src.toNat s.regs.len.toNat) :
    exec .hdrLoad s = .next (raiseError .bounds 0 s) :=
  (if_neg (Nat.not_lt.mpr h13)).trans (if_pos hout)

theorem exec_hdrLoad_fits (h13 : 13 ≤ s.regs.len.toNat) (hin : InMem s.cfg s.regs.src.toNat s.regs.len.toNat) :
    exec .hdrLoad s = .next (finish (loadHeader s.regs.src.toNat s)) :=
  (if_neg (Nat.not_lt.mpr h13)).trans (if_neg (not_not_intro hin))

end

/-- Settles O19: the addresses do not wrap because the chunk ends inside a legal memory, and the class bits are those of
the tag's bytes and of `CRC_OK`. -/
theorem chunkFrameReportsTheChunk : Obligations.ChunkFrameReportsTheChunk := by
  intro s hlegal hfits a len crc
  have hend : a + 12 + len < 2 ^ 32 := by
    obtain ⟨-, hsize⟩ := hlegal
    obtain ⟨hlim, -, hchunk⟩ := hfits
    change a + 12 + len ≤ _ at hchunk
    omega
  have hcrc : crc = crcRaw 0xFFFFFFFF (s.mem.readBytes (a + 4) (4 + len)) := by rw [readBytes_eq_map]
  have hcase {k : Nat} := chunkClass_be32_caseBit s.mem (a + 4) (frameResults a len s).regs.status.crcOk (k := k)
  obtain ⟨hihdr, hidat, hiend, hplte⟩ :=
    chunkClass_knownTag (s.mem.be32 (a + 4)) (frameResults a len s).regs.status.crcOk
  exact ⟨_, exec_chunkFrame_fits hfits, BitVec.ofNat_toNat _ _, rfl, Nat.mod_eq_of_lt (by omega), rfl,
    Nat.mod_eq_of_lt hend, hcrc.symm, by rw [hcrc]; exact frameResults_crcOk_iff a len s, hcase (by decide),
    hcase (by decide), hcase (by decide), frameResults_chClass_valid a len s, hihdr, hidat, hiend, hplte,
    class_lt _ _, rfl⟩

/-- Settles O22: the new class is that of `CH_TYPE` with the old CRC_VALID, and its bits are read off one by one. -/
theorem typeDecodeClassifiesTheTag : Obligations.TypeDecodeClassifiesTheTag := by
  refine ⟨rfl, fun s => ⟨_, rfl, fun n _ => ?_, rfl⟩⟩
  change (retypedClass s.regs.chClass s.regs.chType).getLsbD n = _
  rw [retypedClass_eq, class_getLsbD]
  split_ifs <;> simp [*]

/-- Settles O23: the sizes are big-endian words, and `HDR_FMT` is the little-endian word of bytes 8 to 11. -/
theorem hdrLoadReadsTheThirteenBytes : Obligations.HdrLoadReadsTheThirteenBytes := by
  intro s h13 hin byte
  have hfmt {i : Nat} := le32_extractLsb' (fun j => byte (8 + j)) (i := i)
  exact ⟨_, exec_hdrLoad_fits h13 hin, be32_toNat _ _, be32_toNat _ _, hfmt (i := 0) (by decide),
    hfmt (i := 1) (by decide), hfmt (i := 2) (by decide), hfmt (i := 3) (by decide),
    BitVec.toNat_setWidth_of_le (by decide), rfl⟩

/-- Settles O20: each error is that of the first test that fails. -/
theorem chunkFrameRejectsChunksThatDoNotFit : Obligations.ChunkFrameRejectsChunksThatDoNotFit := by
  refine fun s => ⟨fun hlim => if_pos hlim, fun hlim hfirst => ?_, fun hlim hfirst hchunk => ?_⟩
  · exact (if_neg (Nat.not_lt.mpr hlim)).trans (if_pos hfirst)
  · exact (if_neg (Nat.not_lt.mpr hlim)).trans ((if_neg (Nat.not_lt.mpr hfirst)).trans (if_pos hchunk))

/-- Settles O24: `LEN` is tested before the bounds. -/
theorem hdrLoadRejectsShortOrOutsidePayloads : Obligations.HdrLoadRejectsShortOrOutsidePayloads :=
  fun _ => ⟨exec_hdrLoad_short, fun h13 hout => exec_hdrLoad_outside h13 (Nat.not_le.mpr hout)⟩

end Sys2Proof.Machine
end

section
/-! PROOFS. The scanline filter-tag stripper (43_scanline.md R170 to R174): its answer for each outcome of its argument
tests, and its row loop with every tag 0 and at the first other tag. -/

namespace Sys2Proof.Machine

/-! ## The colour type and the error number, as numbers -/

/-- The colour type is the second byte of `HDR_FMT` (10_state.md R44). -/
theorem hdrFmt_colorType (g : Regs) : g.hdrFmt.toNat / 256 % 256 = g.colorType := by
  simp [Regs.colorType, Nat.shiftRight_eq_div_pow]

theorem colorType_lt (g : Regs) : g.colorType < 256 := (g.hdrFmt.extractLsb' 8 8).isLt

/-- `ERR_INFO` reports a number that fits a word as it is (60_exceptions.md R221). -/
theorem raiseError_errInfo_toNat {n : Nat} (hn : n < 2 ^ 32) (e : ErrCode) (s : State) :
    (raiseError e n s).regs.errInfo.toNat = n :=
  Nat.mod_eq_of_lt hn

/-! ## The row loop -/

section
variable {s t : State} {src dst sl h n : Nat} {m : Memory} {k : ColorKind}

theorem badTag_eq_false_iff (r : Nat) : badTag src sl r m = false ↔ m.read (src + r * (1 + sl)) = 0 := by
  simp [badTag]

/-- The output never covers a tag, so row `r` finds the tag that stood there at the start. -/
theorem badTag_copied (hov : ¬ Overlap src (h * (1 + sl)) dst (h * sl)) {r : Nat} (hr : r < h) :
    badTag src sl r (forUp (copyRow src dst sl) m r) = badTag src sl r m := by
  obtain ⟨-, -, htag⟩ := stripped_rows m hov r hr.le
  exact htag r hr

/-- With every tag 0 the row loop copies every row. -/
theorem stripLoop_copiesAll (hov : ¬ Overlap src (h * (1 + sl)) dst (h * sl))
    (htag : ∀ r < h, badTag src sl r m = false) :
    stripLoop src dst sl h m = (forUp (copyRow src dst sl) m h, none) :=
  forUpUntil_eq_none fun r hr => (badTag_copied hov hr).trans (htag r hr)

/-- The row loop stops at the first tag that is not 0. -/
theorem stripLoop_stopsAt (hov : ¬ Overlap src (h * (1 + sl)) dst (h * sl)) (hn : n < h)
    (htag : ∀ r < n, badTag src sl r m = false) (hbad : badTag src sl n m = true) :
    stripLoop src dst sl h m = (forUp (copyRow src dst sl) m n, some n) :=
  forUpUntil_eq_some hn ((badTag_copied hov hn).trans hbad)
    fun r hr => (badTag_copied hov (hr.trans hn)).trans (htag r hr)

/-- What the memory after `n` rows says: those rows stand in the output, and everything else is as before. -/
theorem rowsCopied_of_mem (hfits : StripFits s k.bpp) (hn : n ≤ s.regs.hdrHeight.toNat)
    (hmem : t.mem = forUp (copyRow s.regs.src.toNat s.regs.dst.toNat (s.regs.scanline k)) s.mem n) :
    RowsCopied s t k.bpp n ∧ SameMemOutside s.regs.dst.toNat (n * (s.regs.hdrWidth.toNat * k.bpp)) s t ∧
      t.mem.draw = s.mem.draw := by
  obtain ⟨-, -, -, hov⟩ := hfits
  obtain ⟨hrows, hout, -⟩ := stripped_rows s.mem hov n hn
  rw [RowsCopied, SameMemOutside, hmem]
  exact ⟨hrows, hout, forUp_draw (fun _ _ => copyRow_draw _ _ _ _ _) _ _⟩

/-! ## The answers of `STRIP_ROWS` (43_scanline.md R171, R173) -/

theorem exec_stripRows_noColor (hk : s.regs.colorKind = none) :
    exec .stripRows s = .next (raiseError .invalidColorType s.regs.colorType s) := by
  simp only [exec, execStripRows, hk]

theorem exec_stripRows_truncated (hk : s.regs.colorKind = some k)
    (hlen : s.regs.len.toNat < s.regs.hdrHeight.toNat * (1 + s.regs.scanline k)) :
    exec .stripRows s = .next (raiseError .truncated (s.regs.len.toNat / (1 + s.regs.scanline k)) s) := by
  simp only [exec, execStripRows, hk]
  rw [if_pos hlen]

theorem exec_stripRows_outside (hk : s.regs.colorKind = some k)
    (hlen : s.regs.hdrHeight.toNat * (1 + s.regs.scanline k) ≤ s.regs.len.toNat)
    (hout : ¬ InMem s.cfg s.regs.src.toNat (s.regs.hdrHeight.toNat * (1 + s.regs.scanline k)) ∨
      ¬ InMem s.cfg s.regs.dst.toNat (s.regs.hdrHeight.toNat * s.regs.scanline k)) :
    exec .stripRows s = .next (raiseError .bounds 0 s) := by
  simp only [exec, execStripRows, hk]
  rw [if_neg (Nat.not_lt.mpr hlen), if_pos hout]

theorem exec_stripRows_overlap (hk : s.regs.colorKind = some k)
    (hlen : s.regs.hdrHeight.toNat * (1 + s.regs.scanline k) ≤ s.regs.len.toNat)
    (hsrc : InMem s.cfg s.regs.src.toNat (s.regs.hdrHeight.toNat * (1 + s.regs.scanline k)))
    (hdst : InMem s.cfg s.regs.dst.toNat (s.regs.hdrHeight.toNat * s.regs.scanline k))
    (hov : Overlap s.regs.src.toNat (s.regs.hdrHeight.toNat * (1 + s.regs.scanline k)) s.regs.dst.toNat
      (s.regs.hdrHeight.toNat * s.regs.scanline k)) :
    exec .stripRows s = .next (raiseError .overlap 0 s) := by
  simp only [exec, execStripRows, hk]
  rw [if_neg (Nat.not_lt.mpr hlen), if_neg (not_or.mpr ⟨not_not_intro hsrc, not_not_intro hdst⟩), if_pos hov]

end

/-- Settles O25: with every tag 0 the loop runs to its end and the command finishes. -/
theorem stripRowsCopiesEveryRow : Obligations.StripRowsCopiesEveryRow := by
  intro s k p hrow hfits htags
  obtain ⟨hk, rfl⟩ := (colorRow_iff s k p).1 hrow
  have ⟨_, _, _, hov⟩ := hfits
  have hloop := stripLoop_copiesAll hov fun r hr => (badTag_eq_false_iff r).2 (htags r hr)
  have hexec : exec .stripRows s = .next (stripAnswer s k) := execStripRows_of_fits hk hfits
  rw [stripAnswer, Regs.scanline, hloop, finishLoop_none] at hexec
  obtain ⟨hcopied, hsame, hdraw⟩ := rowsCopied_of_mem (t := finish { s with mem := _ }) hfits le_rfl rfl
  exact ⟨_, hexec, hcopied, hsame, rfl, hdraw⟩

/-- Settles O26: the loop stops at row `r` with the rows before it copied, and the command raises its error there. -/
theorem stripRowsStopsAtTheFirstBadTag : Obligations.StripRowsStopsAtTheFirstBadTag := by
  intro s k p r hrow hfits hr htags hbad
  obtain ⟨hk, rfl⟩ := (colorRow_iff s k p).1 hrow
  have ⟨_, _, _, hov⟩ := hfits
  have hloop := stripLoop_stopsAt hov hr (fun q hq => (badTag_eq_false_iff q).2 (htags q hq))
    (eq_true_of_ne_false fun h => hbad ((badTag_eq_false_iff r).1 h))
  have hexec : exec .stripRows s = .next (stripAnswer s k) := execStripRows_of_fits hk hfits
  rw [stripAnswer, Regs.scanline, hloop, finishLoop_some] at hexec
  obtain ⟨hcopied, hsame, hdraw⟩ :=
    rowsCopied_of_mem (t := raiseError .unimplementedFilter r { s with mem := _ }) hfits hr.le rfl
  exact ⟨_, hexec, hcopied, hsame, rfl, raiseError_errInfo_toNat (hr.trans s.regs.hdrHeight.isLt) _ _, hdraw⟩

/-- Settles O27: each error is that of the first test that fails, and both numbers reported fit `ERR_INFO`. -/
theorem stripRowsTestsItsArgumentsInOrder : Obligations.StripRowsTestsItsArgumentsInOrder := by
  refine fun s => ⟨fun hno => ?_, fun k p hrow => ?_⟩
  · rw [hdrFmt_colorType]
    exact ⟨_, exec_stripRows_noColor ((noColorRow_iff s).1 hno), rfl,
      raiseError_errInfo_toNat ((colorType_lt s.regs).trans (by decide)) _ _⟩
  · obtain ⟨hk, rfl⟩ := (colorRow_iff s k p).1 hrow
    refine ⟨fun hlen => ?_, exec_stripRows_outside hk, exec_stripRows_overlap hk⟩
    exact ⟨_, exec_stripRows_truncated hk hlen, rfl,
      raiseError_errInfo_toNat ((Nat.div_le_self _ _).trans_lt s.regs.len.isLt) _ _⟩

end Sys2Proof.Machine
end

section
/-! PROOFS. The RGBA pixel expander (44_expand.md R185 to R188): its answer for each outcome of its argument tests, and
its pixel loop with every index in the palette and at the first index past its end. -/

namespace Sys2Proof.Machine

/-- The memory after `n` passes of the pixel loop, none of them stopped (44_expand.md R187). -/
def expandedMem (k : ColorKind) (src dst pb : Nat) (m : Memory) (n : Nat) : Memory :=
  forUp (fun i b => b.writeBytes (dst + 4 * i) (pixelRgba b k pb (src + i * k.bpp))) m n

section
variable {s t : State} {sp : Bool} {k : ColorKind} {src dst pb pl n r : Nat} {m : Memory}

/-! ## The pixel loop -/

theorem expandedMem_draw (k : ColorKind) (src dst pb : Nat) (m : Memory) (n : Nat) :
    (expandedMem k src dst pb m n).draw = m.draw :=
  forUp_draw (fun _ _ => writeBytes_draw _ _ _) m n

/-- The output covers neither the input nor the palette, so pixel `r` finds the index that stood there at the start. -/
theorem badIndex_expanded (hov : ¬ Overlap src (n * k.bpp) dst (4 * n))
    (hpal : k = .indexed → ¬ Overlap pb pl dst (4 * n)) (hr : r < n)
    (hgood : ∀ i < r, badIndex k pl (src + i * k.bpp) m = false) :
    badIndex k pl (src + r * k.bpp) (expandedMem k src dst pb m r) = badIndex k pl (src + r * k.bpp) m := by
  obtain ⟨-, -, hindex⟩ := expanded_pixels m hov hpal r hr.le hgood
  exact hindex r hr

/-- With every index in the palette the pixel loop maps every pixel. -/
theorem expandLoop_mapsAll (hov : ¬ Overlap src (n * k.bpp) dst (4 * n))
    (hpal : k = .indexed → ¬ Overlap pb pl dst (4 * n))
    (hgood : ∀ i < n, badIndex k pl (src + i * k.bpp) m = false) :
    expandLoop k src dst pb pl n m = (expandedMem k src dst pb m n, none) :=
  forUpUntil_eq_none fun i hi =>
    (badIndex_expanded hov hpal hi fun j hj => hgood j (hj.trans hi)).trans (hgood i hi)

/-- The pixel loop stops at the first index past the end of the palette. -/
theorem expandLoop_stopsAt (hov : ¬ Overlap src (n * k.bpp) dst (4 * n))
    (hpal : k = .indexed → ¬ Overlap pb pl dst (4 * n)) (hr : r < n)
    (hgood : ∀ i < r, badIndex k pl (src + i * k.bpp) m = false) (hbad : badIndex k pl (src + r * k.bpp) m = true) :
    expandLoop k src dst pb pl n m = (expandedMem k src dst pb m r, some r) :=
  forUpUntil_eq_some hr ((badIndex_expanded hov hpal hr hgood).trans hbad) fun i hi =>
    (badIndex_expanded hov hpal (hi.trans hr) fun j hj => hgood j (hj.trans hi)).trans (hgood i hi)

theorem badIndex_eq_false_iff (i : Nat) :
    badIndex k (s.paletteRegion sp k.bpp).2 (s.regs.src.toNat + i * k.bpp) s.mem = false ↔
      IndexInRange s sp k k.bpp i := by
  simp [badIndex, IndexInRange, pixelByte]

/-- What the memory after `n` pixels says: those pixels stand in the output, and everything else is as before. -/
theorem pixelsMapped_of_mem (hfits : ExpandFits s sp k k.bpp) (hn : n ≤ s.pixelCount)
    (hgood : ∀ i < n, IndexInRange s sp k k.bpp i)
    (hmem : t.mem = expandedMem k s.regs.src.toNat s.regs.dst.toNat (s.paletteRegion sp k.bpp).1 s.mem n) :
    PixelsMapped s t sp k k.bpp n ∧ SameMemOutside s.regs.dst.toNat (4 * n) s t ∧ t.mem.draw = s.mem.draw := by
  obtain ⟨-, -, hov, hpal⟩ := hfits
  obtain ⟨hpixels, hout, -⟩ := expanded_pixels s.mem hov (fun hk => (hpal hk).2) n hn
    fun i hi => (badIndex_eq_false_iff i).2 (hgood i hi)
  refine ⟨fun i hi => ?_, ?_, ?_⟩
  · have hpixel := hpixels i hi
    rw [← expandedMem, ← hmem] at hpixel
    have hbytes := And.intro (hpixel 0 (by decide)) <| And.intro (hpixel 1 (by decide)) <|
      And.intro (hpixel 2 (by decide)) (hpixel 3 (by decide))
    cases k <;> exact hbytes
  · rw [SameMemOutside, hmem]
    exact hout
  · rw [hmem, expandedMem_draw]

/-! ## The answers of `EXPAND_RGBA` (44_expand.md R187) -/

theorem exec_expandRgba_noColor (sp : Bool) (hk : s.regs.colorKind = none) :
    exec (.expandRgba sp) s = .next (raiseError .invalidColorType s.regs.colorType s) := by
  simp only [exec, execExpandRgba, hk]

/-- The input, the output and, where there is one, the palette are in memory (44_expand.md R187). -/
abbrev ExpandInside (s : State) (sp : Bool) (k : ColorKind) : Prop :=
  InMem s.cfg s.regs.src.toNat (s.regs.pixels * k.bpp) ∧ InMem s.cfg s.regs.dst.toNat (4 * s.regs.pixels) ∧
    (k = .indexed →
      InMem s.cfg (s.regs.palette sp (s.regs.pixels * k.bpp)).1 (s.regs.palette sp (s.regs.pixels * k.bpp)).2)

/-- The output covers the input or, where there is one, the palette (44_expand.md R187). -/
abbrev ExpandOverlaps (s : State) (sp : Bool) (k : ColorKind) : Prop :=
  Overlap s.regs.src.toNat (s.regs.pixels * k.bpp) s.regs.dst.toNat (4 * s.regs.pixels) ∨
    k = .indexed ∧
      Overlap (s.regs.palette sp (s.regs.pixels * k.bpp)).1 (s.regs.palette sp (s.regs.pixels * k.bpp)).2
        s.regs.dst.toNat (4 * s.regs.pixels)

theorem expandFits_of_inside (hin : ExpandInside s sp k) (hov : ¬ ExpandOverlaps s sp k) :
    ExpandFits s sp k k.bpp := by
  obtain ⟨hsrc, hdst, hpal⟩ := hin
  obtain ⟨himage, hpalette⟩ := not_or.mp hov
  exact ⟨hsrc, hdst, himage, fun hi => ⟨hpal hi, fun h => hpalette ⟨hi, h⟩⟩⟩

theorem exec_expandRgba_outside (hk : s.regs.colorKind = some k) (hout : ¬ ExpandInside s sp k) :
    exec (.expandRgba sp) s = .next (raiseError .bounds 0 s) := by
  simp only [exec, execExpandRgba, hk]
  by_cases himage : ¬ InMem s.cfg s.regs.src.toNat (s.regs.pixels * k.bpp) ∨
      ¬ InMem s.cfg s.regs.dst.toNat (4 * s.regs.pixels)
  · exact if_pos himage
  · have hpal : k = .indexed ∧ ¬ InMem s.cfg (s.regs.palette sp (s.regs.pixels * k.bpp)).1
        (s.regs.palette sp (s.regs.pixels * k.bpp)).2 := by
      obtain ⟨hsrc, hdst⟩ := not_or.mp himage
      by_contra h
      exact hout ⟨not_not.mp hsrc, not_not.mp hdst, fun hi => not_not.mp fun hp => h ⟨hi, hp⟩⟩
    exact (if_neg himage).trans (if_pos hpal)

theorem exec_expandRgba_overlap (hk : s.regs.colorKind = some k) (hin : ExpandInside s sp k)
    (hov : ExpandOverlaps s sp k) : exec (.expandRgba sp) s = .next (raiseError .overlap 0 s) := by
  obtain ⟨hsrc, hdst, hpal⟩ := hin
  simp only [exec, execExpandRgba, hk]
  rw [if_neg (not_or.mpr ⟨not_not_intro hsrc, not_not_intro hdst⟩), if_neg fun h => h.2 (hpal h.1)]
  by_cases himage : Overlap s.regs.src.toNat (s.regs.pixels * k.bpp) s.regs.dst.toNat (4 * s.regs.pixels)
  · exact if_pos himage
  · exact (if_neg himage).trans (if_pos (hov.resolve_left himage))

end

/-- Settles O28: with every index in the palette the loop runs to its end and the command finishes. -/
theorem expandRgbaMapsEveryPixel : Obligations.ExpandRgbaMapsEveryPixel := by
  intro s sp k p hrow hfits hgood
  obtain ⟨hk, rfl⟩ := (colorRow_iff s k p).1 hrow
  have ⟨_, _, hov, hpal⟩ := hfits
  have hloop := expandLoop_mapsAll hov (fun hi => (hpal hi).2) fun i hi => (badIndex_eq_false_iff i).2 (hgood i hi)
  have hexec : exec (.expandRgba sp) s = .next (expandAnswer s sp k) := execExpandRgba_of_fits hk hfits
  rw [expandAnswer, Regs.palette, Regs.pixels, hloop, finishLoop_none] at hexec
  obtain ⟨hmapped, hsame, hdraw⟩ := pixelsMapped_of_mem (t := finish { s with mem := _ }) hfits le_rfl hgood rfl
  exact ⟨_, hexec, hmapped, hsame, rfl, hdraw⟩

/-- Settles O29: the loop stops at pixel `n` with the pixels before it mapped, and the output region in a legal memory
bounds the number reported. -/
theorem expandRgbaStopsAtTheFirstBadIndex : Obligations.ExpandRgbaStopsAtTheFirstBadIndex := by
  intro s sp k p n hlegal hrow hfits hn hgood hbad
  obtain ⟨hk, rfl⟩ := (colorRow_iff s k p).1 hrow
  have ⟨_, hdst, hov, hpal⟩ := hfits
  have hword : n < 2 ^ 32 := by
    obtain ⟨-, hsize⟩ := hlegal
    omega
  have hloop := expandLoop_stopsAt hov (fun hi => (hpal hi).2) hn (fun i hi => (badIndex_eq_false_iff i).2 (hgood i hi))
    (eq_true_of_ne_false fun h => hbad ((badIndex_eq_false_iff n).1 h))
  have hexec : exec (.expandRgba sp) s = .next (expandAnswer s sp k) := execExpandRgba_of_fits hk hfits
  rw [expandAnswer, Regs.palette, Regs.pixels, hloop, finishLoop_some] at hexec
  obtain ⟨hmapped, hsame, hdraw⟩ :=
    pixelsMapped_of_mem (t := raiseError .paletteRange n { s with mem := _ }) hfits hn.le hgood rfl
  exact ⟨_, hexec, hmapped, hsame, rfl, raiseError_errInfo_toNat hword _ _, hdraw⟩

/-- Settles O30: each error is that of the first test that fails. -/
theorem expandRgbaTestsItsArgumentsInOrder : Obligations.ExpandRgbaTestsItsArgumentsInOrder := by
  refine fun s sp => ⟨fun hno => ?_, fun k p hrow => ?_⟩
  · rw [hdrFmt_colorType]
    exact ⟨_, exec_expandRgba_noColor sp ((noColorRow_iff s).1 hno), rfl,
      raiseError_errInfo_toNat ((colorType_lt s.regs).trans (by decide)) _ _⟩
  · obtain ⟨hk, rfl⟩ := (colorRow_iff s k p).1 hrow
    exact ⟨exec_expandRgba_outside hk, exec_expandRgba_overlap hk⟩

end Sys2Proof.Machine
end

section
/-! PROOFS. The pixel commands read the colour type and no other field of `HDR_FMT`, nor `HDR_INTERLACE`
(43_scanline.md R175). -/

namespace Sys2Proof.Machine

/-- The state with other words in `HDR_FMT` and `HDR_INTERLACE`. -/
def State.setFormat (f x : Word) (s : State) : State :=
  { s with regs := { s.regs with hdrFmt := f, hdrInterlace := x } }

/-- Both runs complete, the second with the words `f` and `x` in the two registers and otherwise as the first. -/
def SameButFormat (f x : Word) (o o' : Host.Outcome State Fault Refusal) : Prop :=
  ∃ t, o = .next t ∧ o' = .next (t.setFormat f x)

section
variable {s : State} {f x : Word}

theorem colorKind_setFormat (h : f.extractLsb' 8 8 = s.regs.hdrFmt.extractLsb' 8 8) :
    (s.setFormat f x).regs.colorKind = s.regs.colorKind :=
  congrArg (fun b : Byte => ColorKind.ofCode b.toNat) h

theorem finishLoop_setFormat (e : ErrCode) (o : Memory × Option Nat) (s : State) (f x : Word) :
    finishLoop e o (s.setFormat f x) = (finishLoop e o s).setFormat f x := by
  rcases o with ⟨m, _ | k⟩ <;> rfl

/-- An undefined colour type is reported by its number, which the two words share. -/
theorem raiseError_colorType_setFormat (h : f.extractLsb' 8 8 = s.regs.hdrFmt.extractLsb' 8 8) (e : ErrCode) :
    raiseError e (s.setFormat f x).regs.colorType (s.setFormat f x) =
      (raiseError e s.regs.colorType s).setFormat f x :=
  congrArg (fun b : Byte => raiseError e b.toNat (s.setFormat f x)) h

theorem exec_stripRows_setFormat (h : f.extractLsb' 8 8 = s.regs.hdrFmt.extractLsb' 8 8) :
    SameButFormat f x (exec .stripRows s) (exec .stripRows (s.setFormat f x)) := by
  have hf := colorKind_setFormat (x := x) h
  cases hk : s.regs.colorKind with
  | none =>
    refine ⟨_, exec_stripRows_noColor hk, ?_⟩
    rw [exec_stripRows_noColor (hf.trans hk), raiseError_colorType_setFormat h]
  | some k =>
    have hk' := hf.trans hk
    by_cases hlen : s.regs.len.toNat < s.regs.hdrHeight.toNat * (1 + s.regs.scanline k)
    · exact ⟨_, exec_stripRows_truncated hk hlen, exec_stripRows_truncated hk' hlen⟩
    rw [Nat.not_lt] at hlen
    by_cases hin : InMem s.cfg s.regs.src.toNat (s.regs.hdrHeight.toNat * (1 + s.regs.scanline k)) ∧
        InMem s.cfg s.regs.dst.toNat (s.regs.hdrHeight.toNat * s.regs.scanline k)
    · obtain ⟨hsrc, hdst⟩ := hin
      by_cases hov : Overlap s.regs.src.toNat (s.regs.hdrHeight.toNat * (1 + s.regs.scanline k)) s.regs.dst.toNat
          (s.regs.hdrHeight.toNat * s.regs.scanline k)
      · exact ⟨_, exec_stripRows_overlap hk hlen hsrc hdst hov, exec_stripRows_overlap hk' hlen hsrc hdst hov⟩
      · have hfits : StripFits s k.bpp := ⟨hlen, hsrc, hdst, hov⟩
        refine ⟨_, execStripRows_of_fits hk hfits, (execStripRows_of_fits hk' hfits).trans ?_⟩
        exact congrArg _ (finishLoop_setFormat _ _ _ _ _)
    · have hout := not_and_or.mp hin
      exact ⟨_, exec_stripRows_outside hk hlen hout, exec_stripRows_outside hk' hlen hout⟩

theorem exec_expandRgba_setFormat (sp : Bool) (h : f.extractLsb' 8 8 = s.regs.hdrFmt.extractLsb' 8 8) :
    SameButFormat f x (exec (.expandRgba sp) s) (exec (.expandRgba sp) (s.setFormat f x)) := by
  have hf := colorKind_setFormat (x := x) h
  cases hk : s.regs.colorKind with
  | none =>
    refine ⟨_, exec_expandRgba_noColor sp hk, ?_⟩
    rw [exec_expandRgba_noColor sp (hf.trans hk), raiseError_colorType_setFormat h]
  | some k =>
    have hk' := hf.trans hk
    by_cases hin : ExpandInside s sp k
    · by_cases hov : ExpandOverlaps s sp k
      · exact ⟨_, exec_expandRgba_overlap hk hin hov, exec_expandRgba_overlap hk' hin hov⟩
      · have hfits := expandFits_of_inside hin hov
        refine ⟨_, execExpandRgba_of_fits hk hfits, (execExpandRgba_of_fits hk' hfits).trans ?_⟩
        exact congrArg _ (finishLoop_setFormat _ _ _ _ _)
    · exact ⟨_, exec_expandRgba_outside hk hin, exec_expandRgba_outside hk' hin⟩

/-- `RESAMPLE` reads neither register, so each of its tests and its effect is the same term in both runs. -/
theorem exec_resample_setFormat (pix : Nat) (s : State) (f x : Word) :
    SameButFormat f x (exec (.resample pix) s) (exec (.resample pix) (s.setFormat f x)) := by
  by_cases hn : s.regs.stepSize.toNat = 0
  · exact ⟨_, if_pos hn, if_pos hn⟩
  by_cases hp : pix = 0 ∨ 4 < pix
  · exact ⟨_, (if_neg hn).trans (if_pos hp), (if_neg hn).trans (if_pos hp)⟩
  by_cases hout : ¬ InMem s.cfg s.regs.src.toNat (s.regs.pixels * pix) ∨
      ¬ InMem s.cfg s.regs.dst.toNat (s.regs.thumbW * s.regs.thumbH * pix)
  · exact ⟨_, (if_neg hn).trans ((if_neg hp).trans (if_pos hout)),
      (if_neg hn).trans ((if_neg hp).trans (if_pos hout))⟩
  by_cases hov : Overlap s.regs.src.toNat (s.regs.pixels * pix) s.regs.dst.toNat
      (s.regs.thumbW * s.regs.thumbH * pix)
  · exact ⟨_, (if_neg hn).trans ((if_neg hp).trans ((if_neg hout).trans (if_pos hov))),
      (if_neg hn).trans ((if_neg hp).trans ((if_neg hout).trans (if_pos hov)))⟩
  · exact ⟨_, (if_neg hn).trans ((if_neg hp).trans ((if_neg hout).trans (if_neg hov))),
      (if_neg hn).trans ((if_neg hp).trans ((if_neg hout).trans (if_neg hov)))⟩

end

/-- Settles O32: each of the three commands is followed through its answers. -/
theorem pixelCommandsIgnoreTheOtherHeaderFields : Obligations.PixelCommandsIgnoreTheOtherHeaderFields := by
  intro i s t f x hi hcolor hexec
  have hsame : SameButFormat f x (exec i s) (exec i (s.setFormat f x)) := by
    rcases hi with rfl | ⟨sp, rfl⟩ | ⟨pix, rfl⟩
    · exact exec_stripRows_setFormat hcolor
    · exact exec_expandRgba_setFormat sp hcolor
    · exact exec_resample_setFormat pix s f x
  obtain ⟨u, hu, hu'⟩ := hsame
  obtain rfl : t = u := Host.Outcome.next.inj (hexec.symm.trans hu)
  exact hu'

end Sys2Proof.Machine
end

section
/-! PROOFS. On an image that is not indexed `EXPAND_RGBA` has no palette: neither its argument tests nor its pixel loop
read `SP`, `PAL_BASE` or `PAL_LEN` (44_expand.md R186). -/

namespace Sys2Proof.Machine

/-- The state with other words in `PAL_BASE` and `PAL_LEN`. -/
def State.setPalette (pb pl : Word) (s : State) : State :=
  { s with regs := { s.regs with palBase := pb, palLen := pl } }

section
variable {s : State} {k : ColorKind} {sp sp' : Bool} {pb pl : Word}

theorem finishLoop_setPalette (e : ErrCode) (o : Memory × Option Nat) (s : State) (pb pl : Word) :
    finishLoop e o (s.setPalette pb pl) = (finishLoop e o s).setPalette pb pl := by
  rcases o with ⟨m, _ | r⟩ <;> rfl

theorem colorKind_ne_indexed (h : s.regs.hdrFmt.toNat / 256 % 256 ≠ 3) : s.regs.colorKind ≠ some .indexed := by
  intro hk
  have hrow : s.ColorRow .indexed 1 := (colorRow_iff s .indexed 1).2 ⟨hk, rfl⟩
  exact h (by simpa using hrow)

/-! ## Neither a test nor the loop reads the palette -/

theorem expandInside_setPalette (hne : k ≠ .indexed) : ExpandInside (s.setPalette pb pl) sp' k ↔ ExpandInside s sp k :=
  and_congr_right' <| and_congr_right' <| iff_of_true (fun hi => absurd hi hne) fun hi => absurd hi hne

theorem expandOverlaps_setPalette (hne : k ≠ .indexed) :
    ExpandOverlaps (s.setPalette pb pl) sp' k ↔ ExpandOverlaps s sp k :=
  or_congr_right <| iff_of_false (fun h => hne h.1) fun h => hne h.1

theorem pixelRgba_palette (hne : k ≠ .indexed) (m : Memory) (p p' a : Nat) :
    pixelRgba m k p a = pixelRgba m k p' a := by
  cases k with
  | indexed => exact absurd rfl hne
  | grayscale | truecolor | grayscaleAlpha | truecolorAlpha => rfl

theorem badIndex_eq_false (hne : k ≠ .indexed) (n a : Nat) (m : Memory) : badIndex k n a m = false :=
  decide_eq_false fun h => hne h.1

theorem expandLoop_palette (hne : k ≠ .indexed) (src dst p n p' n' pixels : Nat) (m : Memory) :
    expandLoop k src dst p n pixels m = expandLoop k src dst p' n' pixels m := by
  simp only [expandLoop, badIndex_eq_false hne, pixelRgba_palette hne _ p p']

theorem expandAnswer_setPalette (hne : k ≠ .indexed) :
    expandAnswer (s.setPalette pb pl) sp' k = (expandAnswer s sp k).setPalette pb pl := by
  rw [expandAnswer, finishLoop_setPalette, expandLoop_palette hne]
  rfl

/-! ## The command -/

/-- Both runs complete, the second with the words `pb` and `pl` in the two registers and otherwise as the first. -/
def SameButPalette (pb pl : Word) (o o' : Host.Outcome State Fault Refusal) : Prop :=
  ∃ t, o = .next t ∧ o' = .next (t.setPalette pb pl)

theorem exec_expandRgba_setPalette (hne : s.regs.colorKind ≠ some .indexed) (sp sp' : Bool) (pb pl : Word) :
    SameButPalette pb pl (exec (.expandRgba sp) s) (exec (.expandRgba sp') (s.setPalette pb pl)) := by
  cases hk : s.regs.colorKind with
  | none => exact ⟨_, exec_expandRgba_noColor sp hk, exec_expandRgba_noColor sp' hk⟩
  | some k =>
    have hk' : (s.setPalette pb pl).regs.colorKind = some k := hk
    have hnk : k ≠ .indexed := fun h => hne (h ▸ hk)
    by_cases hin : ExpandInside s sp k
    · have hin' : ExpandInside (s.setPalette pb pl) sp' k := (expandInside_setPalette hnk).2 hin
      by_cases hov : ExpandOverlaps s sp k
      · exact ⟨_, exec_expandRgba_overlap hk hin hov,
          exec_expandRgba_overlap hk' hin' ((expandOverlaps_setPalette hnk).2 hov)⟩
      · have hfits := expandFits_of_inside hin hov
        have hfits' := expandFits_of_inside hin' (mt (expandOverlaps_setPalette hnk).1 hov)
        refine ⟨_, execExpandRgba_of_fits hk hfits, (execExpandRgba_of_fits hk' hfits').trans ?_⟩
        rw [expandAnswer_setPalette hnk]
    · exact ⟨_, exec_expandRgba_outside hk hin, exec_expandRgba_outside hk' (mt (expandInside_setPalette hnk).1 hin)⟩

end

/-- Settles O31: both runs take the same branch of the command, and where it is the loop they write the same pixels. -/
theorem paletteIsReadOnlyForIndexedImages : Obligations.PaletteIsReadOnlyForIndexedImages := by
  intro s t sp sp' pb pl hcolor hexec
  obtain ⟨u, hu, hu'⟩ := exec_expandRgba_setPalette (colorKind_ne_indexed hcolor) sp sp' pb pl
  obtain rfl : t = u := Host.Outcome.next.inj (hexec.symm.trans hu)
  exact hu'

end Sys2Proof.Machine
end

section
/-! PROOFS. The strided resampler (45_resample.md R205 to R207): its answer for each outcome of its argument tests, and
its copy with and without a stride. -/

namespace Sys2Proof.Machine

section
variable {s : State} {pix : Nat}

/-! ## The errors of `RESAMPLE` (45_resample.md R206, R207) -/

theorem exec_resample_noStep (pix : Nat) (hn : s.regs.stepSize.toNat = 0) :
    exec (.resample pix) s = .next (raiseError .badArg 0 s) := by
  simp only [exec, execResample]
  rw [if_pos hn]

theorem exec_resample_badPix (hn : s.regs.stepSize.toNat ≠ 0) (hp : pix = 0 ∨ 4 < pix) :
    exec (.resample pix) s = .next (raiseError .badArg 1 s) := by
  simp only [exec, execResample]
  rw [if_neg hn, if_pos hp]

theorem exec_resample_outside (hn : s.regs.stepSize.toNat ≠ 0) (hp : ¬ (pix = 0 ∨ 4 < pix))
    (hout : ¬ InMem s.cfg s.regs.src.toNat (s.regs.pixels * pix) ∨
      ¬ InMem s.cfg s.regs.dst.toNat (s.regs.thumbW * s.regs.thumbH * pix)) :
    exec (.resample pix) s = .next (raiseError .bounds 0 s) := by
  simp only [exec, execResample]
  rw [if_neg hn, if_neg hp, if_pos hout]

theorem exec_resample_overlap (hn : s.regs.stepSize.toNat ≠ 0) (hp : ¬ (pix = 0 ∨ 4 < pix))
    (hsrc : InMem s.cfg s.regs.src.toNat (s.regs.pixels * pix))
    (hdst : InMem s.cfg s.regs.dst.toNat (s.regs.thumbW * s.regs.thumbH * pix))
    (hov : Overlap s.regs.src.toNat (s.regs.pixels * pix) s.regs.dst.toNat
      (s.regs.thumbW * s.regs.thumbH * pix)) :
    exec (.resample pix) s = .next (raiseError .overlap 0 s) := by
  simp only [exec, execResample]
  rw [if_neg hn, if_neg hp, if_neg (not_or.mpr ⟨not_not_intro hsrc, not_not_intro hdst⟩), if_pos hov]

end

/-! ## The shape of the output -/

/-- `OW` fits its result register: it is no larger than the register it is divided from. -/
theorem thumbW_lt (r : Regs) : r.thumbW < 2 ^ 32 := (Nat.div_le_self _ _).trans_lt r.hdrWidth.isLt

theorem thumbH_lt (r : Regs) : r.thumbH < 2 ^ 32 := (Nat.div_le_self _ _).trans_lt r.hdrHeight.isLt

/-- Every byte of a `w` by `h` image of `p` bytes a pixel is byte `c` of a pixel `(x, y)`. -/
theorem exists_pixel_of_byte {w h p i : Nat} (hi : i < w * h * p) :
    ∃ y < h, ∃ x < w, ∃ c < p, i = (y * w + x) * p + c := by
  have hp : 0 < p := Nat.pos_of_ne_zero fun h0 => by simp [h0] at hi
  have hq : i / p < w * h := Nat.div_lt_of_lt_mul (by rwa [Nat.mul_comm])
  have hw : 0 < w := Nat.pos_of_ne_zero fun h0 => by simp [h0] at hq
  exact ⟨i / p / w, Nat.div_lt_of_lt_mul hq, i / p % w, Nat.mod_lt _ hw, i % p, Nat.mod_lt _ hp, by
    rw [Nat.div_add_mod', Nat.div_add_mod']⟩

/-- Settles O33: the three loops write the sampled pixels and the command finishes with the shape. -/
theorem resampleCopiesEveryNthPixel : Obligations.ResampleCopiesEveryNthPixel := by
  intro s pix hfits n w ow oh
  have ⟨hn, _, _, _, _, hov⟩ := hfits
  obtain ⟨hcopied, hsame⟩ := resampleLoop_spec s.mem hn hov
  exact ⟨resampleAnswer s pix, execResample_of_fits hfits, hcopied, hsame, Nat.mod_eq_of_lt (thumbW_lt s.regs),
    Nat.mod_eq_of_lt (thumbH_lt s.regs), rfl, resampleLoop_draw ..⟩

/-- Settles O34: with a stride of 1 the sampled pixels are all pixels of the image, each in its own place. -/
theorem resampleByOneCopiesTheImage : Obligations.ResampleByOneCopiesTheImage := by
  intro s pix hfits hstep
  obtain ⟨t, hexec, hcopied, -, hw, hh, -⟩ := resampleCopiesEveryNthPixel s pix hfits
  have hone : s.regs.stepSize.toNat = 1 := by rw [hstep]; rfl
  simp only [hone, Nat.div_one, Nat.mul_one] at hcopied hw hh
  refine ⟨t, hexec, fun i hi => ?_, BitVec.eq_of_toNat_eq hw, BitVec.eq_of_toNat_eq hh⟩
  obtain ⟨y, hy, x, hx, c, hc, rfl⟩ := exists_pixel_of_byte hi
  rw [← Nat.add_assoc, ← Nat.add_assoc]
  exact hcopied y hy x hx c hc

/-- Settles O35: each error is that of the first test that fails. -/
theorem resampleTestsItsArgumentsInOrder : Obligations.ResampleTestsItsArgumentsInOrder := by
  intro s pix inp out inside
  have hzero : s.regs.stepSize = 0 ↔ s.regs.stepSize.toNat = 0 := BitVec.toNat_inj.symm
  rw [Ne, hzero]
  refine ⟨exec_resample_noStep pix, fun hn hp => exec_resample_badPix hn (by omega), fun hn hlo hhi hout => ?_,
    fun hn hlo hhi ⟨hsrc, hdst⟩ hov => ?_⟩
  · exact exec_resample_outside hn (by omega) (not_and_or.mp hout)
  · exact exec_resample_overlap hn (by omega) hsrc hdst hov

end Sys2Proof.Machine
end

section
/-! PROOFS. Error completions (60_exceptions.md R220, R221, R224): what raising an error writes, and that a command that
ends in one has written nothing else, but for the image loops' partial output (43_scanline.md R174, 44_expand.md R188). -/

namespace Sys2Proof.Machine

section
variable {s t u : State} {i : Instr} {o : Host.Outcome State Fault Refusal}

/-- A command ends without an error, or raises one at the state it began in; only the two errors found inside an image
loop leave another memory behind (60_exceptions.md R224). -/
def EndsPrecisely (s : State) (o : Host.Outcome State Fault Refusal) : Prop :=
  (∃ u, u.regs.status.err = s.regs.status.err ∧ o = .next (finish u)) ∨
    ∃ e n m, (e = .unimplementedFilter ∨ e = .paletteRange ∨ m = s.mem) ∧ o = .next (raiseError e n { s with mem := m })

/-! ## Answers of each kind -/

theorem endsPrecisely_of_finish (ho : o = .next (finish u)) (hu : u.regs.status.err = s.regs.status.err) :
    EndsPrecisely s o :=
  .inl ⟨u, hu, ho⟩

theorem endsPrecisely_of_raises (h : Raises o s) : EndsPrecisely s o := by
  obtain ⟨e, n, -, ho⟩ := h
  exact .inr ⟨e, n, s.mem, .inr (.inr rfl), ho⟩

theorem endsPrecisely_of_loop {e : ErrCode} {out : Memory × Option Nat}
    (he : e = .unimplementedFilter ∨ e = .paletteRange) (ho : o = .next (finishLoop e out s)) : EndsPrecisely s o := by
  obtain ⟨m, stop⟩ := out
  cases stop with
  | none => exact endsPrecisely_of_finish ho rfl
  | some n => exact .inr ⟨e, n, m, he.imp_right .inl, ho⟩

/-! ## Every command -/

theorem exec_endsPrecisely (i : Instr) (s : State) : EndsPrecisely s (exec i s) := by
  cases i with
  | nop => exact endsPrecisely_of_finish rfl rfl
  | crcInit => exact endsPrecisely_of_finish rfl rfl
  | crcUpdate =>
    rcases execCrcUpdate_cases s with hr | ⟨-, hu⟩
    · exact endsPrecisely_of_raises hr
    · exact endsPrecisely_of_finish hu rfl
  | crcCheck => exact endsPrecisely_of_finish rfl rfl
  | chunkFrame =>
    rcases execChunkFrame_cases s with hr | ⟨-, hu⟩
    · exact endsPrecisely_of_raises hr
    · exact endsPrecisely_of_finish hu rfl
  | typeDecode => exact endsPrecisely_of_finish rfl rfl
  | hdrLoad =>
    rcases execHdrLoad_cases s with hr | ⟨-, hu⟩
    · exact endsPrecisely_of_raises hr
    · exact endsPrecisely_of_finish hu rfl
  | stripRows =>
    rcases execStripRows_cases s with hr | ⟨k, -, -, hu⟩
    · exact endsPrecisely_of_raises hr
    · exact endsPrecisely_of_loop (.inl rfl) hu
  | expandRgba sp =>
    rcases execExpandRgba_cases sp s with hr | ⟨k, -, -, hu⟩
    · exact endsPrecisely_of_raises hr
    · exact endsPrecisely_of_loop (.inr rfl) hu
  | resample pix =>
    rcases execResample_cases pix s with hr | ⟨-, hu⟩
    · exact endsPrecisely_of_raises hr
    · exact endsPrecisely_of_finish hu rfl

/-- A command that sets `ERR` has raised an error, since its other completion leaves `ERR` as it was. -/
theorem exec_raised (he : exec i s = .next t) (hs : s.regs.status.err = false) (ht : t.regs.status.err = true) :
    ∃ e n m, (e = .unimplementedFilter ∨ e = .paletteRange ∨ m = s.mem) ∧ t = raiseError e n { s with mem := m } := by
  rcases exec_endsPrecisely i s with ⟨u, hu, hn⟩ | ⟨e, n, m, hm, hn⟩ <;>
    obtain rfl := Host.Outcome.next.inj (hn.symm.trans he)
  · have hclean : (finish u).regs.status.err = false := hu.trans hs
    exact absurd (hclean.symm.trans ht) (by decide)
  · exact ⟨e, n, m, hm, rfl⟩

end

/-- Settles O10: the error was raised at the state the command began in, but for the memory of the two loop errors. -/
theorem errorCompletionsArePrecise : Obligations.ErrorCompletionsArePrecise := by
  intro i s t he hs ht
  obtain ⟨e, n, m, hm, rfl⟩ := exec_raised he hs ht
  refine ⟨raiseError_keepsRegs e n { s with mem := m }, rfl, rfl, fun hfilter hpalette => ?_⟩
  rcases hm with rfl | rfl | rfl
  · exact absurd rfl hfilter
  · exact absurd rfl hpalette
  · rfl

/-- The other flags of `STATUS` as they read, beside `DONE` of `get_status_done` (10_state.md R23). -/
theorem get_status_flags (g : Regs) :
    (g.get .status).getLsbD 0 = g.status.busy ∧ (g.get .status).getLsbD 2 = g.status.err ∧
      (g.get .status).getLsbD 3 = g.status.werr ∧ (g.get .status).getLsbD 4 = g.status.crcOk := by
  rw [show g.get .status = g.status.word from rfl]
  simp only [status_word_getLsbD]
  simp

theorem get_status_errcode (g : Regs) : (g.get .status).extractLsb' 8 8 = g.status.errcode.code :=
  status_word_errcode g.status

/-- Settles O11: `STATUS` is read field by field, and everything else is `raiseError` as it stands. -/
theorem raisingAnErrorWritesFiveThings : Obligations.RaisingAnErrorWritesFiveThings := by
  intro code info s t
  obtain ⟨hbusy, herr, hwerr, hcrc⟩ := get_status_flags t.regs
  obtain ⟨-, -, hwerr', hcrc'⟩ := get_status_flags s.regs
  refine ⟨?_, hbusy, get_status_done t.regs, herr, hwerr.trans hwerr'.symm, hcrc.trans hcrc'.symm, rfl,
    raiseError_keepsRegs code info s, rfl, rfl, rfl, rfl, rfl, rfl⟩
  rw [get_status_errcode]
  cases code <;> rfl

end Sys2Proof.Machine
end

section
/-! PROOFS. The interrupt output follows `DONE` and the enable (60_exceptions.md R230, R231). -/

namespace Sys2Proof.Machine

section
variable {s t : State}

theorem irq_iff_bits (s : State) :
    s.irq = true ↔ (s.regs.get .status).getLsbD 1 = true ∧ (s.regs.get .ctrl).getLsbD 0 = true := by
  rw [get_status_done, get_ctrl_irqEn, State.irq, Bool.and_eq_true]

/-- With `DONE` clear `STATUS` bit 1 reads 0 and the interrupt is not asserted, whatever the enable. -/
theorem doneBit_irq_of_not_done (h : s.regs.status.done = false) :
    (s.regs.get .status).getLsbD 1 = false ∧ s.irq = false := by
  rw [get_status_done, State.irq, h]
  exact ⟨rfl, rfl⟩

/-- No write set lists `CTRL` (40_control.md R115). -/
theorem complete_irqEn (hc : complete s = .next t) : t.regs.ctrl.irqEn = s.regs.ctrl.irqEn := by
  have hkeep : t.regs.get .ctrl = s.regs.get .ctrl :=
    complete_keepsReg hc (fun i => by cases i <;> simp [writeSet]) (by decide) (by decide) (by decide)
  rw [← get_ctrl_irqEn, hkeep, get_ctrl_irqEn]

theorem complete_doneBit_irq (hc : complete s = .next t) :
    (t.regs.get .status).getLsbD 1 = true ∧ t.irq = s.regs.ctrl.irqEn := by
  obtain ⟨-, hdone⟩ := complete_idle_done hc
  rw [get_status_done, State.irq, hdone, complete_irqEn hc]
  exact ⟨rfl, Bool.true_and _⟩

/-- The acknowledge clears the interrupt with `DONE` (60_exceptions.md R231). -/
theorem statusWrite_doneBit_irq (v : Word) (s : State) :
    ((s.setStatus (s.regs.status.hostWrite v)).regs.get .status).getLsbD 1 =
        ((s.regs.get .status).getLsbD 1 && !v.getLsbD 1) ∧
      (s.setStatus (s.regs.status.hostWrite v)).irq = (s.irq && !v.getLsbD 1) := by
  rw [get_status_done, get_status_done]
  exact ⟨rfl, Bool.and_right_comm _ _ _⟩

theorem step_powerOn {ts : List Turn} (h : s.turns = .powerOn :: ts) :
    step s = .next (powerOnReset { s with turns := ts }) := by
  simp only [step, h]

end

/-- Settles O49: each event's next state, and what `DONE` and the enable are in it. -/
theorem irqFollowsDoneAndTheEnable : Obligations.IrqFollowsDoneAndTheEnable := by
  intro s
  refine ⟨irq_iff_bits s, fun _ => complete_doneBit_irq, fun t v h => ?_, fun t v hv h => ?_, fun t v hb h => ?_,
    fun t v hv h => ?_, fun t ts hturn h => ?_⟩
  · obtain rfl := Host.Outcome.next.inj ((hostWrite_status v s).symm.trans h)
    exact statusWrite_doneBit_irq v s
  · obtain rfl := Host.Outcome.next.inj ((hostWrite_ctrl_enable hv s).symm.trans h)
    rw [get_status_done, get_status_done]
    exact ⟨rfl, rfl⟩
  · obtain rfl := Host.Outcome.next.inj ((hostWrite_cmd_idle hb v).symm.trans h)
    exact doneBit_irq_of_not_done rfl
  · obtain rfl := Host.Outcome.next.inj ((hostWrite_ctrl_reset hv s).symm.trans h)
    exact doneBit_irq_of_not_done rfl
  · obtain rfl := Host.Outcome.next.inj ((step_powerOn hturn).symm.trans h)
    exact doneBit_irq_of_not_done rfl

end Sys2Proof.Machine
end

section
/-! PROOFS. The two resets (70_reset_and_hazards.md R250 to R252): the reset registers as the host reads them, and
memory after a power-on reset. -/

namespace Sys2Proof.Machine

section
variable {s : State}

/-- The reset values by offset (70_reset_and_hazards.md R251). -/
theorem reset_get (r : Reg) :
    Regs.reset.get r = if r.offset = 0x000 then 0x504E4701 else if r.offset = 0x030 then 0xFFFFFFFF else 0 := by
  cases r <;> rfl

/-- After a reset the host sees the reset values, and 0 where the map has no register (10_state.md R48,
70_reset_and_hazards.md R251). -/
theorem seenOffset_reset (hs : s.regs = .reset) (off : Nat) :
    s.seenOffset off = if off = 0x000 then 0x504E4701 else if off = 0x030 then 0xFFFFFFFF else 0 := by
  cases hr : Reg.ofOffset off with
  | none =>
    have hid : off ≠ 0x000 := by rintro rfl; cases hr
    have hcrc : off ≠ 0x030 := by rintro rfl; cases hr
    simp only [State.seenOffset, hr, if_neg hid, if_neg hcrc]
  | some r =>
    obtain rfl := offset_ofOffset hr
    have hidle : s.regs.status.busy = false := by rw [hs]; rfl
    rw [← reset_get, ← hs, ← seenReg_idle hidle]
    simp only [State.seenOffset, hr]

/-- Memory that nothing has written reads as its draw (20_memory.md R78; log 3). -/
theorem read_of_no_cells (d x : Nat) : ({ cells := [], draw := d } : Memory).read x = Config.freeByte d x := rfl

end

/-- Settles O50: both resets leave the reset registers, and those read as their values at every offset. -/
theorem registersTakeTheirResetValues : Obligations.RegistersTakeTheirResetValues := by
  refine ⟨fun s hs => ⟨?_, fun off hspan h4 => ⟨_, hostRead_reg s h4 hspan, seenOffset_reset hs off⟩⟩,
    fun s ts hturn => ⟨_, step_powerOn hturn, rfl⟩, fun s v hv => ⟨_, hostWrite_ctrl_reset hv s, rfl⟩⟩
  obtain ⟨-, hirq⟩ := doneBit_irq_of_not_done (s := s) (by rw [hs]; rfl)
  exact hirq

/-- Settles O51: the power-on reset leaves no written byte, and memory at the next draw. -/
theorem powerOnResetRedrawsMemory : Obligations.PowerOnResetRedrawsMemory :=
  fun s _ hturn => ⟨_, step_powerOn hturn, read_of_no_cells s.draws, rfl, rfl, rfl, rfl⟩

/-- Settles O52: the reset registers meet the invariant, memory is empty, and 256 bytes are a legal size. -/
theorem resetStateMeetsTheInvariant : Obligations.ResetStateMeetsTheInvariant :=
  inv_of_reset (by decide) ⟨List.Pairwise.nil, by simp [State.reset]⟩ rfl

end Sys2Proof.Machine
end

section
/-! PROOFS. A host that only waits sees its command complete (70_reset_and_hazards.md R263, 30_encoding.md R100): its
turns keep the command in flight until the engine moves, and after that one pass of the `WAIT` loop ends it. -/

namespace Sys2Proof.Machine

/-- Some state of the next `n` steps, the state itself included, has the property. -/
def Within (n : Nat) (P : State → Prop) (s : State) : Prop := ∃ k ≤ n, ∃ t, core.run k s = .next t ∧ P t

/-- The command is done (40_control.md R113). -/
def Completed (s : State) : Prop := s.regs.status.busy = false ∧ s.regs.status.done = true

/-- The command is done, and the `WAIT` loop has ended by reading `BUSY` as 0 (30_encoding.md R100). -/
def WaitEnded (s : State) : Prop :=
  s.regs.status.busy = false ∧ s.regs.status.done = true ∧ s.host.program = [] ∧ s.host.lastRead.getLsbD 0 = false

section
variable {s t : State} {P : State → Prop} {n k : Nat}

/-! ## Bounded reachability -/

theorem within_now (h : P s) (n : Nat) : Within n P s := ⟨0, Nat.zero_le n, s, rfl, h⟩

theorem within_mono (h : Within n P s) (hnk : n ≤ k) : Within k P s := by
  obtain ⟨j, hj, hrun⟩ := h
  exact ⟨j, hj.trans hnk, hrun⟩

theorem run_succ (hstep : step s = .next t) (k : Nat) : core.run (k + 1) s = core.run k t := by
  have hcore : core.step s = .next t := hstep
  simp only [Host.Core.run, hcore]

theorem within_step (hstep : step s = .next t) (h : Within n P t) : Within (n + 1) P s := by
  obtain ⟨k, hk, u, hrun, hu⟩ := h
  exact ⟨k + 1, Nat.succ_le_succ hk, u, (run_succ hstep k).trans hrun, hu⟩

/-! ## One turn -/

/-- The completion step always answers, and moves no one but the engine (40_control.md R112, R113). -/
theorem exists_complete (s : State) : ∃ t, complete s = .next t ∧ KeepsSurroundings s t := by
  rcases complete_cases s with ⟨e, n, -, hn⟩ | ⟨i, -, hi⟩
  · exact ⟨_, hn, rfl, rfl, rfl, rfl, rfl⟩
  · obtain ⟨t, ht, -⟩ := everyCommandCompletes i s
    obtain ⟨-, -, -, hkeeps⟩ := exec_frame ht
    exact ⟨t, hi.trans ht, hkeeps⟩

/-- The engine's turn, or the end of the turns, completes the command in flight (40_control.md R112; log 5). -/
theorem engineTurn_completes {ts : List Turn} (hturn : s.turns = .engine :: ts ∨ s.turns = [] ∧ ts = [])
    (hb : s.regs.status.busy = true) : ∃ t, step s = .next t ∧ Completed t ∧ t.host = s.host ∧ t.turns = ts := by
  obtain ⟨t, hc, -, hhost, hturns, -⟩ := exists_complete { s with turns := ts }
  exact ⟨t, (step_engineTurn hturn hb).trans hc, complete_idle_done hc, hhost, hturns⟩

/-- The host moves on its turn, and when no turn is left and the block is idle (20_memory.md R73; log 5). -/
theorem step_hostTurn {ts : List Turn}
    (hturn : s.turns = .host :: ts ∨ s.turns = [] ∧ ts = [] ∧ s.regs.status.busy = false) :
    step s = hostStep { s with turns := ts } := by
  obtain ⟨cfg, regs, mem, host, turns, draws⟩ := s
  obtain rfl | ⟨rfl, rfl, hidle⟩ := hturn
  · rfl
  · exact if_neg (Bool.not_eq_true _ ▸ hidle)

/-- While a command is in flight the turn of a host that only waits changes neither the block nor the program
(30_encoding.md R100). -/
theorem hostStep_waits (hb : s.regs.status.busy = true) (hprog : s.host.program = [] ∨ s.host.program = [.wait]) :
    ∃ t, hostStep s = .next t ∧ t.regs = s.regs ∧ t.host.program = s.host.program ∧ t.turns = s.turns := by
  rcases hprog with hp | hp
  · exact ⟨s, by simp only [hostStep, hp], rfl, rfl, rfl⟩
  · simp [hostStep, hostExec, hp, hb]

theorem seenStatus_busy_of_idle (hb : s.regs.status.busy = false) : (s.seenReg .status).getLsbD 0 = false := by
  obtain ⟨hbusy, -⟩ := get_status_flags s.regs
  rw [seenReg_idle hb, hbusy, hb]

/-- Once the block is idle, a pass of the `WAIT` loop reads `BUSY` as 0 and ends the loop (30_encoding.md R100). -/
theorem hostStep_endsWait (hdone : Completed s) (hprog : s.host.program = [.wait]) :
    ∃ t, hostStep s = .next t ∧ WaitEnded t := by
  obtain ⟨hidle, hd⟩ := hdone
  simp only [hostStep, hprog, hostExec, hidle, Bool.false_eq_true, if_false]
  exact ⟨_, rfl, hidle, hd, rfl, seenStatus_busy_of_idle hidle⟩

/-! ## The turns given -/

/-- From an idle block the `WAIT` loop ends at the host's next turn, or when no turn is left (log 5). -/
theorem waitEnds_of_completed (hpower : .powerOn ∉ s.turns) (hdone : Completed s) (hprog : s.host.program = [.wait]) :
    Within (s.turns.length + 1) WaitEnded s := by
  induction hturns : s.turns generalizing s with
  | nil =>
    obtain ⟨t, ht, hend⟩ := hostStep_endsWait (s := { s with turns := [] }) hdone hprog
    exact within_step ((step_hostTurn (.inr ⟨hturns, rfl, hdone.left⟩)).trans ht) (within_now hend 0)
  | cons turn ts ih =>
    obtain ⟨hfirst, hrest⟩ := List.ne_and_not_mem_of_not_mem_cons (hturns ▸ hpower)
    cases turn with
    | engine =>
      have hidle := hdone.left
      have hstep : step s = .next { s with turns := ts } := by simp [step, hturns, engineStep, hidle]
      exact within_step hstep (ih hrest hdone hprog rfl)
    | host =>
      obtain ⟨t, ht, hend⟩ := hostStep_endsWait (s := { s with turns := ts }) hdone hprog
      exact within_step ((step_hostTurn (.inl hturns)).trans ht) (within_now hend _)
    | powerOn => exact absurd rfl hfirst

/-- What is seen within the turns left and `k` steps from any completion is seen, while the host only waits, within one
step more from the command in flight. -/
theorem within_of_completed (hpower : .powerOn ∉ s.turns) (hb : s.regs.status.busy = true)
    (hprog : s.host.program = [] ∨ s.host.program = [.wait])
    (hafter : ∀ t, .powerOn ∉ t.turns → Completed t → t.host.program = s.host.program →
      Within (t.turns.length + k) P t) :
    Within (s.turns.length + k + 1) P s := by
  induction hturns : s.turns generalizing s with
  | nil =>
    obtain ⟨t, hstep, hdone, hhost, hleft⟩ := engineTurn_completes (.inr ⟨hturns, rfl⟩) hb
    rw [← hleft]
    exact within_step hstep (hafter t (by simp [hleft]) hdone (by rw [hhost]))
  | cons turn ts ih =>
    obtain ⟨hfirst, hrest⟩ := List.ne_and_not_mem_of_not_mem_cons (hturns ▸ hpower)
    cases turn with
    | engine =>
      obtain ⟨t, hstep, hdone, hhost, rfl⟩ := engineTurn_completes (.inl hturns) hb
      refine within_mono (within_step hstep (hafter t hrest hdone (by rw [hhost]))) ?_
      simp only [List.length_cons]
      omega
    | host =>
      obtain ⟨t, ht, hregs, hkept, rfl⟩ := hostStep_waits (s := { s with turns := ts }) hb hprog
      have hseen := ih hrest (by rw [hregs]; exact hb) (by rw [hkept]; exact hprog)
        (fun u hu hdone huprog => hafter u hu hdone (huprog.trans hkept)) rfl
      rw [List.length_cons, Nat.add_right_comm _ 1 k]
      exact within_step ((step_hostTurn (.inl hturns)).trans ht) hseen
    | powerOn => exact absurd rfl hfirst

end

/-- Settles O57: the engine completes the command at its first turn, or after the turns given, and the `WAIT` loop ends
at the host's next. -/
theorem waitingHostSeesTheCommandComplete : Obligations.WaitingHostSeesTheCommandComplete := by
  refine fun s hb hpower => ⟨fun hprog => ?_, fun hprog => ?_⟩
  · exact within_of_completed (P := Completed) (k := 0) hpower hb (.inl hprog) fun t _ hdone _ => within_now hdone _
  · exact within_of_completed (P := WaitEnded) (k := 1) hpower hb (.inr hprog)
      fun t hleft hdone hkept => waitEnds_of_completed hleft hdone (hkept.trans hprog)

end Sys2Proof.Machine
end
